-- ==== Sys2Proof/Word.lean ====
section
/-! DEFINITION. The two word types of the core (spec R3: XLEN = 8, PCLEN = 16). -/

namespace Sys2Proof

/-- A memory cell, a register `A`, `X`, `Y`, `SP`, or the status register `P` (R3 `XLEN`, R10). -/
abbrev Byte := BitVec 8

/-- A value of the program counter, or a 16-bit address of the instruction stream (R3 `PCLEN`, R15).
An EFFECTIVE address is a natural number, not an `Addr`: it may exceed 0xFFFF and is never wrapped (R88, R97). -/
abbrev Addr := BitVec 16

end Sys2Proof
end

