-- ==== Sys2Proof/Machine/Bits.lean ====
section
/-! DEFINITION. The bit-field, byte-order and sign-extension helpers of R5 (`Compose`, `hi8`, `lo8`, `sext_16`). -/

namespace Sys2Proof.Machine

/-- `Compose(hi, lo) = (hi << 8) | lo` (R5, R63: never `hi << (8 + lo)`). -/
def compose (hi lo : Byte) : Addr := (hi.setWidth 16 <<< 8) ||| lo.setWidth 16

/-- `hi8(w) = w[15:8]` of a 16-bit value (R5). -/
def hi8 (w : Addr) : Byte := (w >>> 8).setWidth 8

/-- `lo8(w) = w[7:0]` of a 16-bit value (R5). -/
def lo8 (w : Addr) : Byte := w.setWidth 8

/-- `hi8` of an effective address, a natural number up to 0x100FE: `(w >> 8) & 0xFF` (R5). -/
def pageOf (ea : Nat) : Nat := ea / 256 % 256

/-- `sext_16(b)`: `b` if `b < 128`, else `b − 256`, a signed integer (R5, R63). -/
def sext16 (b : Byte) : Int := if b.toNat < 128 then (b.toNat : Int) else (b.toNat : Int) - 256

end Sys2Proof.Machine
end

