-- ==== Sys2Proof/Config.lean ====
section
/-! DEFINITION. The parameters spec R3 and 92_eei_decisions.md leave OPEN, as plain data.
"OPEN means the model takes the parameter as an argument": `Config` is a field of the machine's state that no step
writes, so a statement about every state is a statement about every parameter value (log entry 1). -/

namespace Sys2Proof

/-- The OPEN parameters of the core (R3, "Parameters left open, in one place" of 92_eei_decisions.md). -/
structure Config where
  /-- `MEM_SIZE`: number of cells; valid addresses are 0 to `memSize − 1` (D1). -/
  memSize : Nat
  /-- `BRK_VECTOR`: address of the low byte of the BRK vector pair (D12). -/
  brkVector : Nat
  /-- `JMP_INDIRECT_PAGE_WRAP`: the Indirect mode reads the pointer's high byte from the pointer's own page (D6). -/
  jmpIndirectPageWrap : Bool
  /-- `HOST_WRITES_MEMORY`: the driver may write memory between ticks (D23). -/
  hostWritesMemory : Bool
  /-- `BASE_CYCLES`, as the defined opcodes whose base count differs from the opcode table's (U22, D9; log entry 8).
  The count of the undefined opcodes is no part of it: `UNDEF_CYCLES` is 2 (R3, D7). -/
  baseCycleChanges : List (Byte × Nat)
  deriving DecidableEq, Repr

/-- The defaults the spec uses (R3): 64 KB, vector at 0xFFFE, no page wrap, no host writes, the table's counts. -/
def Config.default : Config where
  memSize := 65536
  brkVector := 0xFFFE
  jmpIndirectPageWrap := false
  hostWritesMemory := false
  baseCycleChanges := []

end Sys2Proof
end

