-- ==== Sys2Proof/Syntax.lean ====
section
/-! DEFINITION. The instruction set as syntax: addressing-mode tags, operands, operation tags and `Instr`.
The 256 rows of spec/opcode_table.json are 57 operations, each in the modes the table pairs it with. A constructor of
`Instr` is one operation (one mnemonic) and its argument is the row's addressing mode with the operand bytes, as R8 and
R111 have it: one rule per operation, the same for every mode (log entry 12). -/

namespace Sys2Proof

/-- The addressing-mode tags of an opcode table entry (R62, R65). -/
inductive Mode where
  | implied | accumulator | immediate | zeroPage | zeroPageX | zeroPageY
  | absolute | absoluteX | absoluteY | indirectX | indirectY | relative | indirect
  deriving DecidableEq, Repr

/-- Operand bytes an instruction of each mode has after its opcode (R62). -/
def Mode.operandBytes : Mode → Nat
  | .implied | .accumulator => 0
  | .immediate | .zeroPage | .zeroPageX | .zeroPageY | .indirectX | .indirectY | .relative => 1
  | .absolute | .absoluteX | .absoluteY | .indirect => 2

/-- An addressing mode together with its operand bytes, the 16-bit ones already composed (R61, R63).
`relative` keeps the raw displacement byte; its sign extension is the resolver's (R92). -/
inductive Operand where
  | implied
  | accumulator
  | immediate (v : Byte)
  | zeroPage (zp : Byte)
  | zeroPageX (zp : Byte)
  | zeroPageY (zp : Byte)
  | absolute (addr : Addr)
  | absoluteX (base : Addr)
  | absoluteY (base : Addr)
  | indirectX (zp : Byte)
  | indirectY (zp : Byte)
  | relative (disp : Byte)
  | indirect (ptr : Addr)
  deriving DecidableEq, Repr

/-- The mode tag of an operand. -/
def Operand.mode : Operand → Mode
  | .implied => .implied
  | .accumulator => .accumulator
  | .immediate _ => .immediate
  | .zeroPage _ => .zeroPage
  | .zeroPageX _ => .zeroPageX
  | .zeroPageY _ => .zeroPageY
  | .absolute _ => .absolute
  | .absoluteX _ => .absoluteX
  | .absoluteY _ => .absoluteY
  | .indirectX _ => .indirectX
  | .indirectY _ => .indirectY
  | .relative _ => .relative
  | .indirect _ => .indirect

/-- The operation tag of an opcode table entry (R65), the key `mnemonic` of spec/opcode_table.json. -/
inductive Operation where
  | ora | and | eor
  | asl | rol | lsr | ror
  | bit
  | bpl | bmi | bvc | bvs | bcc | bcs | bne | beq
  | php | brk | pha | pla | plp
  | lda | ldx | ldy | sta | stx | sty
  | tax | tay | txa | tya | tsx | txs
  | adc | sbc | cmp | cpx | cpy | inc | dec | inx | iny | dex | dey
  | jmp | jsr | rts | rti
  | clc | sec | cli | sei | clv | cld | sed | nop
  | undefined
  deriving DecidableEq, Repr

/-- What an operation rests on (R2): `S` settled by the source document, `G` general knowledge. -/
inductive Tier where
  | S | G
  deriving DecidableEq, Repr

/-- The tier of each operation (R2, key `tier` of spec/opcode_table.json). -/
def Operation.tier : Operation → Tier
  | .ora | .and | .asl | .rol | .bit | .bpl | .bmi | .php | .brk | .undefined => .S
  | .eor | .lsr | .ror | .bvc | .bvs | .bcc | .bcs | .bne | .beq | .pha
  | .pla | .plp | .lda | .ldx | .ldy | .sta | .stx | .sty | .tax | .tay
  | .txa | .tya | .tsx | .txs | .adc | .sbc | .cmp | .cpx | .cpy | .inc
  | .dec | .inx | .iny | .dex | .dey | .jmp | .jsr | .rts | .rti | .clc
  | .sec | .cli | .sei | .clv | .cld | .sed | .nop => .G

/-- The instructions: one constructor per operation of the opcode table. The argument, where there is one, is the
operand in the row's addressing mode; `WellFormed.lean` says which modes each operation has. -/
inductive Instr where
  /-- ORA: R120. -/
  | ora (m : Operand)
  /-- AND: R121. -/
  | and (m : Operand)
  /-- EOR: R122. -/
  | eor (m : Operand)
  /-- ASL: R130. -/
  | asl (m : Operand)
  /-- ROL: R131. -/
  | rol (m : Operand)
  /-- LSR: R132. -/
  | lsr (m : Operand)
  /-- ROR: R133. -/
  | ror (m : Operand)
  /-- BIT: R140. -/
  | bit (m : Operand)
  /-- BPL: R146. -/
  | bpl (m : Operand)
  /-- BMI: R147. -/
  | bmi (m : Operand)
  /-- BVC: R148. -/
  | bvc (m : Operand)
  /-- BVS: R149. -/
  | bvs (m : Operand)
  /-- BCC: R150. -/
  | bcc (m : Operand)
  /-- BCS: R151. -/
  | bcs (m : Operand)
  /-- BNE: R152. -/
  | bne (m : Operand)
  /-- BEQ: R153. -/
  | beq (m : Operand)
  /-- PHP: R164. -/
  | php
  /-- BRK: R165. -/
  | brk
  /-- PHA: R169. -/
  | pha
  /-- PLA: R170. -/
  | pla
  /-- PLP: R171. -/
  | plp
  /-- LDA: R180. -/
  | lda (m : Operand)
  /-- LDX: R181. -/
  | ldx (m : Operand)
  /-- LDY: R182. -/
  | ldy (m : Operand)
  /-- STA: R183. -/
  | sta (m : Operand)
  /-- STX: R184. -/
  | stx (m : Operand)
  /-- STY: R185. -/
  | sty (m : Operand)
  /-- TAX: R186. -/
  | tax
  /-- TAY: R187. -/
  | tay
  /-- TXA: R188. -/
  | txa
  /-- TYA: R189. -/
  | tya
  /-- TSX: R190. -/
  | tsx
  /-- TXS: R191. -/
  | txs
  /-- ADC: R200. -/
  | adc (m : Operand)
  /-- SBC: R201. -/
  | sbc (m : Operand)
  /-- CMP: R203. -/
  | cmp (m : Operand)
  /-- CPX: R204. -/
  | cpx (m : Operand)
  /-- CPY: R205. -/
  | cpy (m : Operand)
  /-- INC: R206. -/
  | inc (m : Operand)
  /-- DEC: R207. -/
  | dec (m : Operand)
  /-- INX: R208. -/
  | inx
  /-- INY: R209. -/
  | iny
  /-- DEX: R210. -/
  | dex
  /-- DEY: R211. -/
  | dey
  /-- JMP: R220, R221. -/
  | jmp (m : Operand)
  /-- JSR: R222. -/
  | jsr (m : Operand)
  /-- RTS: R223. -/
  | rts
  /-- RTI: R224. -/
  | rti
  /-- CLC: R225. -/
  | clc
  /-- SEC: R226. -/
  | sec
  /-- CLI: R227. -/
  | cli
  /-- SEI: R228. -/
  | sei
  /-- CLV: R229. -/
  | clv
  /-- CLD: R230. -/
  | cld
  /-- SED: R231. -/
  | sed
  /-- NOP: R232. -/
  | nop
  /-- One of the 105 undefined opcode bytes, a charged no-op: R69, R108. -/
  | undefined (opcode : Byte)
  deriving DecidableEq, Repr

/-- The operation tag of an instruction. -/
def Instr.operation : Instr → Operation
  | .ora _ => .ora
  | .and _ => .and
  | .eor _ => .eor
  | .asl _ => .asl
  | .rol _ => .rol
  | .lsr _ => .lsr
  | .ror _ => .ror
  | .bit _ => .bit
  | .bpl _ => .bpl
  | .bmi _ => .bmi
  | .bvc _ => .bvc
  | .bvs _ => .bvs
  | .bcc _ => .bcc
  | .bcs _ => .bcs
  | .bne _ => .bne
  | .beq _ => .beq
  | .php => .php
  | .brk => .brk
  | .pha => .pha
  | .pla => .pla
  | .plp => .plp
  | .lda _ => .lda
  | .ldx _ => .ldx
  | .ldy _ => .ldy
  | .sta _ => .sta
  | .stx _ => .stx
  | .sty _ => .sty
  | .tax => .tax
  | .tay => .tay
  | .txa => .txa
  | .tya => .tya
  | .tsx => .tsx
  | .txs => .txs
  | .adc _ => .adc
  | .sbc _ => .sbc
  | .cmp _ => .cmp
  | .cpx _ => .cpx
  | .cpy _ => .cpy
  | .inc _ => .inc
  | .dec _ => .dec
  | .inx => .inx
  | .iny => .iny
  | .dex => .dex
  | .dey => .dey
  | .jmp _ => .jmp
  | .jsr _ => .jsr
  | .rts => .rts
  | .rti => .rti
  | .clc => .clc
  | .sec => .sec
  | .cli => .cli
  | .sei => .sei
  | .clv => .clv
  | .cld => .cld
  | .sed => .sed
  | .nop => .nop
  | .undefined _ => .undefined

/-- The operand of an instruction; `implied` where it has none. -/
def Instr.operand : Instr → Operand
  | .ora m | .and m | .eor m | .asl m | .rol m | .lsr m
  | .ror m | .bit m | .bpl m | .bmi m | .bvc m | .bvs m
  | .bcc m | .bcs m | .bne m | .beq m | .lda m | .ldx m
  | .ldy m | .sta m | .stx m | .sty m | .adc m | .sbc m
  | .cmp m | .cpx m | .cpy m | .inc m | .dec m | .jmp m
  | .jsr m => m
  | .php | .brk | .pha | .pla | .plp | .tax | .tay | .txa
  | .tya | .tsx | .txs | .inx | .iny | .dex | .dey | .rts
  | .rti | .clc | .sec | .cli | .sei | .clv | .cld | .sed
  | .nop
  | .undefined _ => .implied

end Sys2Proof
end

