-- ==== Sys2Proof/WellFormed.lean ====
section
/-! DEFINITION. Which (operation, mode) pairs exist (R98), which bytes are undefined opcodes (R69) and which parameters
are legal (R3). The pairs are written from the instruction rules' own mode lists, not from the opcode map:
`Laws/Decode.lean` proves that the map of `Decode.lean` agrees with them. -/

namespace Sys2Proof

/-- The eight modes of ORA, AND, EOR (R120 to R122), ADC, SBC, CMP (R200, R201, R203) and LDA (R180). -/
def readModes : List Mode :=
  [.immediate, .zeroPage, .zeroPageX, .absolute, .absoluteX, .absoluteY, .indirectX, .indirectY]

/-- The five modes of ASL, ROL, LSR, ROR (R130 to R133). -/
def shiftModes : List Mode := [.accumulator, .zeroPage, .zeroPageX, .absolute, .absoluteX]

/-- The modes each operation exists in (the mode tables of files 42 to 49). -/
def Operation.modes : Operation → List Mode
  | .ora | .and | .eor | .adc | .sbc | .cmp | .lda => readModes
  | .asl | .rol | .lsr | .ror => shiftModes
  | .bit => [.zeroPage, .absolute]
  | .bpl | .bmi | .bvc | .bvs | .bcc | .bcs | .bne | .beq => [.relative]
  | .ldx => [.immediate, .zeroPage, .zeroPageY, .absolute, .absoluteY]
  | .ldy => [.immediate, .zeroPage, .zeroPageX, .absolute, .absoluteX]
  | .sta => [.zeroPage, .zeroPageX, .absolute, .absoluteX, .absoluteY, .indirectX, .indirectY]
  | .stx => [.zeroPage, .zeroPageY, .absolute]
  | .sty => [.zeroPage, .zeroPageX, .absolute]
  | .cpx | .cpy => [.immediate, .zeroPage, .absolute]
  | .inc | .dec => [.zeroPage, .zeroPageX, .absolute, .absoluteX]
  | .jmp => [.absolute, .indirect]
  | .jsr => [.absolute]
  | .php | .brk | .pha | .pla | .plp
  | .tax | .tay | .txa | .tya | .tsx | .txs
  | .inx | .iny | .dex | .dey | .rts | .rti
  | .clc | .sec | .cli | .sei | .clv | .cld | .sed | .nop | .undefined => [.implied]

/-- The 105 undefined opcode bytes (R69), four rows of the rule's list at a time. -/
def undefinedOpcodes : List Byte :=
  [0x02, 0x03, 0x04, 0x07, 0x0B, 0x0C, 0x0F, 0x12, 0x13, 0x14, 0x17, 0x1A, 0x1B, 0x1C, 0x1F,
    0x22, 0x23, 0x27, 0x2B, 0x2F, 0x32, 0x33, 0x34, 0x37, 0x3A, 0x3B, 0x3C, 0x3F]
  ++ [0x42, 0x43, 0x44, 0x47, 0x4B, 0x4F, 0x52, 0x53, 0x54, 0x57, 0x5A, 0x5B, 0x5C, 0x5F,
    0x62, 0x63, 0x64, 0x67, 0x6B, 0x6F, 0x72, 0x73, 0x74, 0x77, 0x7A, 0x7B, 0x7C, 0x7F]
  ++ [0x80, 0x82, 0x83, 0x87, 0x89, 0x8B, 0x8F, 0x92, 0x93, 0x97, 0x9B, 0x9C, 0x9E, 0x9F,
    0xA3, 0xA7, 0xAB, 0xAF, 0xB2, 0xB3, 0xB7, 0xBB, 0xBF, 0xC2, 0xC3, 0xC7, 0xCB, 0xCF]
  ++ [0xD2, 0xD3, 0xD4, 0xD7, 0xDA, 0xDB, 0xDC, 0xDF, 0xE2, 0xE3, 0xE7, 0xEB, 0xEF,
    0xF2, 0xF3, 0xF4, 0xF7, 0xFA, 0xFB, 0xFC, 0xFF]

/-- An instruction is well formed when its operand's mode is one its operation has (R98) and, for an undefined opcode,
its byte is one of the 105 (R69). -/
def Instr.wf : Instr → Bool
  | .undefined b => undefinedOpcodes.contains b
  | i => i.operation.modes.contains i.operand.mode

/-- The ranges R3 gives: 1 ≤ `MEM_SIZE` ≤ 65536, 0 ≤ `BRK_VECTOR` ≤ 0xFFFE; a base count is at least 1 (R65), and is
OPEN for defined entries only (U22). DESIGN CHOICE (log entry 8), safe: BRK's count may be 1 as well, although R269 and D17
call its cost multi-cycle. -/
def Config.wf (c : Config) : Bool :=
  decide (1 ≤ c.memSize) && decide (c.memSize ≤ 65536) && decide (c.brkVector ≤ 0xFFFE)
    && c.baseCycleChanges.all fun e => decide (1 ≤ e.2) && !undefinedOpcodes.contains e.1

end Sys2Proof
end

