-- ==== Sys2Proof/Decode.lean ====
section
/-! DEFINITION. The opcode table (R65 to R69), the decoder (R60 to R63, R66, R73) and the encoder.
The table is the map of R68, cell by cell; the encoder is written from the opcode lists of the instruction rules (files
42 to 49), so that "decode of encode" compares two parts of the spec. -/

namespace Sys2Proof

/-- An opcode table entry: "(addressing-mode tag, operation tag, base-cycle-count, 'undefined' flag)" (R65). -/
structure Entry where
  operation : Operation
  mode : Mode
  baseCycles : Nat
  undefined : Bool
  deriving DecidableEq, Repr

namespace OpcodeMap

/-- A defined cell of the map of R68. -/
def e (o : Operation) (m : Mode) (cycles : Nat) : Entry := ⟨o, m, cycles, false⟩

/-- An empty cell `-`: the entry (Implied, Undefined, base cycle count 2, undefined flag set) (R69, R108). -/
def u : Entry := ⟨.undefined, .implied, 2, true⟩

/-- Rows 0x to 3x of the map of R68. -/
def opcodeRows03 : List (List Entry) :=
  [[e .brk .implied 7, e .ora .indirectX 6, u, u, u, e .ora .zeroPage 3, e .asl .zeroPage 5, u,
    e .php .implied 3, e .ora .immediate 2, e .asl .accumulator 2, u, u, e .ora .absolute 4,
    e .asl .absolute 6, u],
   [e .bpl .relative 2, e .ora .indirectY 5, u, u, u, e .ora .zeroPageX 4, e .asl .zeroPageX 6, u,
    e .clc .implied 2, e .ora .absoluteY 4, u, u, u, e .ora .absoluteX 4, e .asl .absoluteX 7, u],
   [e .jsr .absolute 6, e .and .indirectX 6, u, u, e .bit .zeroPage 3, e .and .zeroPage 3,
    e .rol .zeroPage 5, u, e .plp .implied 4, e .and .immediate 2, e .rol .accumulator 2, u,
    e .bit .absolute 4, e .and .absolute 4, e .rol .absolute 6, u],
   [e .bmi .relative 2, e .and .indirectY 5, u, u, u, e .and .zeroPageX 4, e .rol .zeroPageX 6, u,
    e .sec .implied 2, e .and .absoluteY 4, u, u, u, e .and .absoluteX 4, e .rol .absoluteX 7, u]]

/-- Rows 4x to 7x of the map of R68. -/
def opcodeRows47 : List (List Entry) :=
  [[e .rti .implied 6, e .eor .indirectX 6, u, u, u, e .eor .zeroPage 3, e .lsr .zeroPage 5, u,
    e .pha .implied 3, e .eor .immediate 2, e .lsr .accumulator 2, u, e .jmp .absolute 3, e .eor .absolute 4,
    e .lsr .absolute 6, u],
   [e .bvc .relative 2, e .eor .indirectY 5, u, u, u, e .eor .zeroPageX 4, e .lsr .zeroPageX 6, u,
    e .cli .implied 2, e .eor .absoluteY 4, u, u, u, e .eor .absoluteX 4, e .lsr .absoluteX 7, u],
   [e .rts .implied 6, e .adc .indirectX 6, u, u, u, e .adc .zeroPage 3, e .ror .zeroPage 5, u,
    e .pla .implied 4, e .adc .immediate 2, e .ror .accumulator 2, u, e .jmp .indirect 5, e .adc .absolute 4,
    e .ror .absolute 6, u],
   [e .bvs .relative 2, e .adc .indirectY 5, u, u, u, e .adc .zeroPageX 4, e .ror .zeroPageX 6, u,
    e .sei .implied 2, e .adc .absoluteY 4, u, u, u, e .adc .absoluteX 4, e .ror .absoluteX 7, u]]

/-- Rows 8x to Bx of the map of R68. -/
def opcodeRows8B : List (List Entry) :=
  [[u, e .sta .indirectX 6, u, u, e .sty .zeroPage 3, e .sta .zeroPage 3, e .stx .zeroPage 3, u,
    e .dey .implied 2, u, e .txa .implied 2, u, e .sty .absolute 4, e .sta .absolute 4, e .stx .absolute 4,
    u],
   [e .bcc .relative 2, e .sta .indirectY 6, u, u, e .sty .zeroPageX 4, e .sta .zeroPageX 4,
    e .stx .zeroPageY 4, u, e .tya .implied 2, e .sta .absoluteY 5, e .txs .implied 2, u, u,
    e .sta .absoluteX 5, u, u],
   [e .ldy .immediate 2, e .lda .indirectX 6, e .ldx .immediate 2, u, e .ldy .zeroPage 3, e .lda .zeroPage 3,
    e .ldx .zeroPage 3, u, e .tay .implied 2, e .lda .immediate 2, e .tax .implied 2, u, e .ldy .absolute 4,
    e .lda .absolute 4, e .ldx .absolute 4, u],
   [e .bcs .relative 2, e .lda .indirectY 5, u, u, e .ldy .zeroPageX 4, e .lda .zeroPageX 4,
    e .ldx .zeroPageY 4, u, e .clv .implied 2, e .lda .absoluteY 4, e .tsx .implied 2, u,
    e .ldy .absoluteX 4, e .lda .absoluteX 4, e .ldx .absoluteY 4, u]]

/-- Rows Cx to Fx of the map of R68. -/
def opcodeRowsCF : List (List Entry) :=
  [[e .cpy .immediate 2, e .cmp .indirectX 6, u, u, e .cpy .zeroPage 3, e .cmp .zeroPage 3,
    e .dec .zeroPage 5, u, e .iny .implied 2, e .cmp .immediate 2, e .dex .implied 2, u, e .cpy .absolute 4,
    e .cmp .absolute 4, e .dec .absolute 6, u],
   [e .bne .relative 2, e .cmp .indirectY 5, u, u, u, e .cmp .zeroPageX 4, e .dec .zeroPageX 6, u,
    e .cld .implied 2, e .cmp .absoluteY 4, u, u, u, e .cmp .absoluteX 4, e .dec .absoluteX 7, u],
   [e .cpx .immediate 2, e .sbc .indirectX 6, u, u, e .cpx .zeroPage 3, e .sbc .zeroPage 3,
    e .inc .zeroPage 5, u, e .inx .implied 2, e .sbc .immediate 2, e .nop .implied 2, u, e .cpx .absolute 4,
    e .sbc .absolute 4, e .inc .absolute 6, u],
   [e .beq .relative 2, e .sbc .indirectY 5, u, u, u, e .sbc .zeroPageX 4, e .inc .zeroPageX 6, u,
    e .sed .implied 2, e .sbc .absoluteY 4, u, u, u, e .sbc .absoluteX 4, e .inc .absoluteX 7, u]]

end OpcodeMap

/-- The sixteen rows of the map of R68, row `hx` at index `h`. -/
def opcodeRows : List (List Entry) :=
  OpcodeMap.opcodeRows03 ++ OpcodeMap.opcodeRows47 ++ OpcodeMap.opcodeRows8B ++ OpcodeMap.opcodeRowsCF

/-- `OPTABLE[b]`, the document's total `lookup(opcode_byte) -> Entry` (R66): row = high hex digit, column = low. -/
def optable (b : Byte) : Entry :=
  (opcodeRows.getD (b.toNat / 16) []).getD (b.toNat % 16) OpcodeMap.u

/-- `IsUndefined(b) = OPTABLE[b].undefined`, the flag the driver can observe (R70). -/
def isUndefined (b : Byte) : Bool := (optable b).undefined

/-- The operand a mode makes of the bytes after the opcode (R61, R63): a one-byte mode uses the first, a two-byte
mode composes them with the low byte first (R45). -/
def operandOf (m : Mode) (first second : Byte) : Operand :=
  match m with
  | .implied => .implied
  | .accumulator => .accumulator
  | .immediate => .immediate first
  | .zeroPage => .zeroPage first
  | .zeroPageX => .zeroPageX first
  | .zeroPageY => .zeroPageY first
  | .absolute => .absolute (Machine.compose second first)
  | .absoluteX => .absoluteX (Machine.compose second first)
  | .absoluteY => .absoluteY (Machine.compose second first)
  | .indirectX => .indirectX first
  | .indirectY => .indirectY first
  | .relative => .relative first
  | .indirect => .indirect (Machine.compose second first)

/-- The instruction of an operation tag with an operand; `b` is the opcode byte, kept by an undefined opcode only. -/
def instrOf (o : Operation) (b : Byte) (m : Operand) : Instr :=
  match o with
  | .ora => .ora m
  | .and => .and m
  | .eor => .eor m
  | .asl => .asl m
  | .rol => .rol m
  | .lsr => .lsr m
  | .ror => .ror m
  | .bit => .bit m
  | .bpl => .bpl m
  | .bmi => .bmi m
  | .bvc => .bvc m
  | .bvs => .bvs m
  | .bcc => .bcc m
  | .bcs => .bcs m
  | .bne => .bne m
  | .beq => .beq m
  | .php => .php
  | .brk => .brk
  | .pha => .pha
  | .pla => .pla
  | .plp => .plp
  | .lda => .lda m
  | .ldx => .ldx m
  | .ldy => .ldy m
  | .sta => .sta m
  | .stx => .stx m
  | .sty => .sty m
  | .tax => .tax
  | .tay => .tay
  | .txa => .txa
  | .tya => .tya
  | .tsx => .tsx
  | .txs => .txs
  | .adc => .adc m
  | .sbc => .sbc m
  | .cmp => .cmp m
  | .cpx => .cpx m
  | .cpy => .cpy m
  | .inc => .inc m
  | .dec => .dec m
  | .inx => .inx
  | .iny => .iny
  | .dex => .dex
  | .dey => .dey
  | .jmp => .jmp m
  | .jsr => .jsr m
  | .rts => .rts
  | .rti => .rti
  | .clc => .clc
  | .sec => .sec
  | .cli => .cli
  | .sei => .sei
  | .clv => .clv
  | .cld => .cld
  | .sed => .sed
  | .nop => .nop
  | .undefined => .undefined b

/-- The instruction that opcode byte `b` selects, with `first` and `second` the two bytes after it; a mode that has
fewer operand bytes ignores the rest (R60: the opcode byte alone decides). -/
def instrAt (b first second : Byte) : Instr :=
  instrOf (optable b).operation b (operandOf (optable b).mode first second)

/-- Why a byte sequence is no instruction. Every opcode byte has an entry (R66), so only missing bytes are refused. -/
inductive DecodeError where
  /-- The byte sequence is empty. Raised by `decode`; safe. -/
  | noOpcode
  /-- The sequence ends before the operand bytes its opcode's mode needs (R62). Raised by `decode`; safe. -/
  | operandMissing
  deriving DecidableEq, Repr

/-- The decoder (R73): read byte 0, look up its entry, take the operand bytes its mode consumes, answer the
instruction and the bytes after it. -/
def decode : List Byte → Except DecodeError (Instr × List Byte)
  | [] => .error .noOpcode
  | b :: rest =>
    match (optable b).mode.operandBytes, rest with
    | 0, rest => .ok (instrAt b 0#8 0#8, rest)
    | 1, first :: rest => .ok (instrAt b first 0#8, rest)
    | 1, [] => .error .operandMissing
    | _, first :: second :: rest => .ok (instrAt b first second, rest)
    | _, _ => .error .operandMissing

/-- The decoder on an instruction given as a number, numbered as spec/opcode_table.json numbers it: bit 0 is the least
significant bit of the first byte; bits above `nbits` are 0. -/
def decodeTableWord (nbits w : Nat) : Option Instr :=
  let v := w % 2 ^ nbits
  match decode [BitVec.ofNat 8 v, BitVec.ofNat 8 (v / 256), BitVec.ofNat 8 (v / 65536)] with
  | .ok (i, _) => some i
  | .error _ => none

/-! ### The encoder, from the opcode lists of the instruction rules -/

/-- The opcodes of an operation that has the eight reading modes, in the order of the tables of 42_logical.md and
48_ext_arithmetic.md. -/
def readOpcodes (imm zp zpx abs abx aby inx iny : Byte) : List (Mode × Byte) :=
  [(.immediate, imm), (.zeroPage, zp), (.zeroPageX, zpx), (.absolute, abs),
   (.absoluteX, abx), (.absoluteY, aby), (.indirectX, inx), (.indirectY, iny)]

/-- The opcodes of a shift or rotate, in the order of the table of 43_shift_rotate.md. -/
def shiftOpcodes (acc zp zpx abs abx : Byte) : List (Mode × Byte) :=
  [(.accumulator, acc), (.zeroPage, zp), (.zeroPageX, zpx), (.absolute, abs), (.absoluteX, abx)]

/-- The opcode byte of each operation in each of its modes, as the "Encoding" lines of the instruction rules give
them (R120 to R232). An undefined opcode carries its own byte. -/
def opcodesOf : Operation → List (Mode × Byte)
  | .ora => readOpcodes 0x09 0x05 0x15 0x0D 0x1D 0x19 0x01 0x11
  | .and => readOpcodes 0x29 0x25 0x35 0x2D 0x3D 0x39 0x21 0x31
  | .eor => readOpcodes 0x49 0x45 0x55 0x4D 0x5D 0x59 0x41 0x51
  | .asl => shiftOpcodes 0x0A 0x06 0x16 0x0E 0x1E
  | .rol => shiftOpcodes 0x2A 0x26 0x36 0x2E 0x3E
  | .lsr => shiftOpcodes 0x4A 0x46 0x56 0x4E 0x5E
  | .ror => shiftOpcodes 0x6A 0x66 0x76 0x6E 0x7E
  | .bit => [(.zeroPage, 0x24), (.absolute, 0x2C)]
  | .bpl => [(.relative, 0x10)]
  | .bmi => [(.relative, 0x30)]
  | .bvc => [(.relative, 0x50)]
  | .bvs => [(.relative, 0x70)]
  | .bcc => [(.relative, 0x90)]
  | .bcs => [(.relative, 0xB0)]
  | .bne => [(.relative, 0xD0)]
  | .beq => [(.relative, 0xF0)]
  | .php => [(.implied, 0x08)]
  | .brk => [(.implied, 0x00)]
  | .pha => [(.implied, 0x48)]
  | .pla => [(.implied, 0x68)]
  | .plp => [(.implied, 0x28)]
  | .lda => readOpcodes 0xA9 0xA5 0xB5 0xAD 0xBD 0xB9 0xA1 0xB1
  | .ldx => [(.immediate, 0xA2), (.zeroPage, 0xA6), (.zeroPageY, 0xB6), (.absolute, 0xAE), (.absoluteY, 0xBE)]
  | .ldy => [(.immediate, 0xA0), (.zeroPage, 0xA4), (.zeroPageX, 0xB4), (.absolute, 0xAC), (.absoluteX, 0xBC)]
  | .sta => [(.zeroPage, 0x85), (.zeroPageX, 0x95), (.absolute, 0x8D), (.absoluteX, 0x9D),
      (.absoluteY, 0x99), (.indirectX, 0x81), (.indirectY, 0x91)]
  | .stx => [(.zeroPage, 0x86), (.zeroPageY, 0x96), (.absolute, 0x8E)]
  | .sty => [(.zeroPage, 0x84), (.zeroPageX, 0x94), (.absolute, 0x8C)]
  | .tax => [(.implied, 0xAA)]
  | .tay => [(.implied, 0xA8)]
  | .txa => [(.implied, 0x8A)]
  | .tya => [(.implied, 0x98)]
  | .tsx => [(.implied, 0xBA)]
  | .txs => [(.implied, 0x9A)]
  | .adc => readOpcodes 0x69 0x65 0x75 0x6D 0x7D 0x79 0x61 0x71
  | .sbc => readOpcodes 0xE9 0xE5 0xF5 0xED 0xFD 0xF9 0xE1 0xF1
  | .cmp => readOpcodes 0xC9 0xC5 0xD5 0xCD 0xDD 0xD9 0xC1 0xD1
  | .cpx => [(.immediate, 0xE0), (.zeroPage, 0xE4), (.absolute, 0xEC)]
  | .cpy => [(.immediate, 0xC0), (.zeroPage, 0xC4), (.absolute, 0xCC)]
  | .inc => [(.zeroPage, 0xE6), (.zeroPageX, 0xF6), (.absolute, 0xEE), (.absoluteX, 0xFE)]
  | .dec => [(.zeroPage, 0xC6), (.zeroPageX, 0xD6), (.absolute, 0xCE), (.absoluteX, 0xDE)]
  | .inx => [(.implied, 0xE8)]
  | .iny => [(.implied, 0xC8)]
  | .dex => [(.implied, 0xCA)]
  | .dey => [(.implied, 0x88)]
  | .jmp => [(.absolute, 0x4C), (.indirect, 0x6C)]
  | .jsr => [(.absolute, 0x20)]
  | .rts => [(.implied, 0x60)]
  | .rti => [(.implied, 0x40)]
  | .clc => [(.implied, 0x18)]
  | .sec => [(.implied, 0x38)]
  | .cli => [(.implied, 0x58)]
  | .sei => [(.implied, 0x78)]
  | .clv => [(.implied, 0xB8)]
  | .cld => [(.implied, 0xD8)]
  | .sed => [(.implied, 0xF8)]
  | .nop => [(.implied, 0xEA)]
  | .undefined => []

/-- The opcode byte of an instruction; `none` where the table pairs its operation with no such mode (R98), or its byte
is no undefined opcode (R69). -/
def opcodeOf : Instr → Option Byte
  | .undefined b => if undefinedOpcodes.contains b then some b else none
  | i => (opcodesOf i.operation).lookup i.operand.mode

/-- The operand bytes of an operand, at ascending addresses, low byte first (R61, R45). -/
def operandBytesOf : Operand → List Byte
  | .implied => []
  | .accumulator => []
  | .immediate v => [v]
  | .zeroPage zp => [zp]
  | .zeroPageX zp => [zp]
  | .zeroPageY zp => [zp]
  | .absolute addr => [Machine.lo8 addr, Machine.hi8 addr]
  | .absoluteX base => [Machine.lo8 base, Machine.hi8 base]
  | .absoluteY base => [Machine.lo8 base, Machine.hi8 base]
  | .indirectX zp => [zp]
  | .indirectY zp => [zp]
  | .relative disp => [disp]
  | .indirect ptr => [Machine.lo8 ptr, Machine.hi8 ptr]

/-- The bytes of a well-formed instruction (R60, R61); no bytes for one that is not well formed. -/
def encode (i : Instr) : List Byte :=
  match opcodeOf i with
  | some b => b :: operandBytesOf i.operand
  | none => []

end Sys2Proof
end

