-- ==== Sys2Proof/Machine/State.lean ====
section
/-! DEFINITION. The machine's state as plain data, the reasons a step can stop, and the state after reset. -/

namespace Sys2Proof.Machine

/-- The Memory collaborator's cells (R40): the (address, byte) pairs of the cells that do not read 0x00, at strictly
rising addresses (`Memory.wf`). An address that is not listed reads 0x00 (R44; log entry 2). -/
abbrev Memory := List Host.Cell

/-- The seven flags of `P`, a closed enumeration (R19). Bit 5 is "never exposed as a named flag" (R18). -/
inductive Flag where
  | n | v | b | d | i | z | c
  deriving DecidableEq, Repr

/-- The core's seven registers (R10), the memory it reads and writes (R40), and the parameters (R3; log entry 1). -/
structure State where
  /-- Accumulator `A` (R11). -/
  a : Byte
  /-- Index register `X` (R12). -/
  x : Byte
  /-- Index register `Y` (R13). -/
  y : Byte
  /-- Stack pointer `SP`: low byte of the next free stack address (R14). -/
  sp : Byte
  /-- Status register `P`: N7 V6 1 B4 D3 I2 Z1 C0 (R18). -/
  p : Byte
  /-- Program counter `PC`: address of the next byte of the instruction stream (R15). -/
  pc : Addr
  /-- In-flight cycle counter `CYC`: countdown ticks left before the next fetch (R27). -/
  cyc : Nat
  /-- Memory (R40). -/
  mem : Memory
  /-- The OPEN parameters (R3); no step writes this field (log entry 1). -/
  cfg : Config
  deriving DecidableEq, Repr

/-- What stops the machine as the spec describes it. -/
inductive Fault where
  /-- `AddressingFault(addr)` (R240): an access at `addr ≥ MEM_SIZE`. Raised by `memRead` and `memWrite`, so by every
  fetch, pointer read, operand access, stack access and vector read. Safe: the spec gives the tick no successor. -/
  | addressingFault (addr : Nat)
  deriving DecidableEq, Repr

/-- Where the spec gives a case no meaning (`refuse`, R242), or the driver does what its contract forbids. -/
inductive Refusal where
  /-- An instruction without a meaning in this model. Raised by no arm of `exec`; safe. -/
  | notModelled (mnemonic : String)
  /-- `ADC` or `SBC` executed with D = 1 (R202, R242). Raised by `execAdc`, `execSbc`; safe: the rule refuses. -/
  | decimalMode
  /-- A (mode, operation) pair outside the opcode table (R98, U19), or an undefined-opcode instruction whose byte is
  defined. Raised by `runEntry`; no byte sequence decodes to one. Safe. -/
  | noTableEntry
  /-- An operation met an operand descriptor it cannot use (R95, R96, R98). Raised by `readOperand`, `writeOperand`,
  the branch and jump operations; unreachable from a well-formed instruction. Safe. -/
  | unusableDescriptor
  /-- A tick of a core that was never reset (R35, R242). Raised by `Session.tick`; safe. -/
  | tickBeforeReset
  /-- A tick after a fault, before `reset()` (R241, R242). Raised by `Session.tick`; safe. -/
  | tickAfterFault
  /-- The driver wrote memory after its first tick with `HOST_WRITES_MEMORY` false (R36, R59, R254). Raised by
  `Session.hostWrite`; safe. -/
  | hostWriteDisabled
  /-- The driver wrote outside the memory array (R40). Raised by `Session.hostWrite`; safe. -/
  | hostWriteOutOfRange
  deriving DecidableEq, Repr

/-- What can end an instruction before it completes. -/
inductive Stop where
  /-- The tick ends in the fault outcome (R240). Raised as `Fault` says; safe. -/
  | fault (f : Fault)
  /-- The spec gives the case no meaning (R242). Raised as `Refusal` says; safe. -/
  | refused (r : Refusal)
  deriving DecidableEq, Repr

/-- The state right after `reset()` on a zero-filled memory with the default parameters (R34, R44, R260, R262): the
spec states every register's value. -/
def State.reset : State where
  a := 0x00#8
  x := 0x00#8
  y := 0x00#8
  sp := 0xFF#8
  p := 0x20#8
  pc := 0x0000#16
  cyc := 0
  mem := []
  cfg := Config.default

end Sys2Proof.Machine
end

