-- ==== Sys2Proof/Machine/Flags.lean ====
section
/-! DEFINITION. The Flag Bank (R18 to R26) and every flag computation of the instruction rules. Also the register
updates of State: every write of a register goes through one of them. -/

namespace Sys2Proof.Machine

/-- The bit of `P` each flag is (R18). -/
def Flag.bit : Flag → Nat
  | .n => 7
  | .v => 6
  | .b => 4
  | .d => 3
  | .i => 2
  | .z => 1
  | .c => 0

/-- `get(f) = P[k]` (R21). -/
def getFlag (p : Byte) (f : Flag) : Bool := p.getLsbD f.bit

/-- `set(f, b): P <- (P & ~(1 << k) & 0xFF) | (b << k)` (R21). -/
def setFlag (p : Byte) (f : Flag) (b : Bool) : Byte :=
  (p &&& ~~~(1#8 <<< f.bit)) ||| ((if b then 1#8 else 0#8) <<< f.bit)

/-- `SetNZ(v)` on `P`: N = v[7], Z = (v == 0#8), no other flag (R23). -/
def setNZ (p v : Byte) : Byte := setFlag (setFlag p .n (v.getLsbD 7)) .z (v == 0#8)

/-! ### Register updates -/

/-- `A <- v`. -/
def State.withA (s : State) (v : Byte) : State := { s with a := v }

/-- `X <- v`. -/
def State.withX (s : State) (v : Byte) : State := { s with x := v }

/-- `Y <- v`. -/
def State.withY (s : State) (v : Byte) : State := { s with y := v }

/-- `SP <- v`. -/
def State.withSp (s : State) (v : Byte) : State := { s with sp := v }

/-- A write of the whole of `P` by the Flag Bank's own operations, which keep bit 5 by construction. -/
def State.withP (s : State) (v : Byte) : State := { s with p := v }

/-- `PC <- v`. -/
def State.withPc (s : State) (v : Addr) : State := { s with pc := v }

/-- `CYC <- n`. -/
def State.withCyc (s : State) (n : Nat) : State := { s with cyc := n }

/-- The memory after a write. -/
def State.withMem (s : State) (m : Memory) : State := { s with mem := m }

/-- `P.f` (R6). -/
def State.flag (s : State) (f : Flag) : Bool := getFlag s.p f

/-- `P.f <- b` (R6). -/
def State.setFlag (s : State) (f : Flag) (b : Bool) : State := s.withP (Machine.setFlag s.p f b)

/-- `SetNZ(v)` (R23). -/
def State.setNZ (s : State) (v : Byte) : State := s.withP (Machine.setNZ s.p v)

/-- A whole-byte write of `P` forces the reserved bit: `P <- v | 0x20` (R20, R171, R224). -/
def State.loadP (s : State) (v : Byte) : State := s.withP (v ||| 0x20#8)

/-! ### Flag computations -/

/-- What an add or a shift computes: the result byte and the carry it leaves, and the overflow of an add. -/
structure AddResult where
  result : Byte
  carry : Bool
  overflow : Bool
  deriving DecidableEq, Repr

/-- The binary addition of `ADC` (R200): `s = A + M + C` on naturals, `r = s & 0xFF`, C = (s > 0xFF),
V = ((A ^ r) & (M ^ r) & 0x80) ≠ 0. -/
def addWithCarry (a m : Byte) (c : Bool) : AddResult :=
  let s := a.toNat + m.toNat + c.toNat
  let r := BitVec.ofNat 8 s
  { result := r
    carry := decide (s > 0xFF)
    overflow := ((a ^^^ r) &&& (m ^^^ r) &&& 0x80#8) != 0#8 }

/-- `SBC` is `ADC` of the one's complement of the operand (R201). -/
def subWithBorrow (a m : Byte) (c : Bool) : AddResult := addWithCarry a (m ^^^ 0xFF#8) c

/-- The flags a compare leaves: C = (r ≥ m) unsigned, N and Z from (r − m) mod 256 (R203 to R205). -/
def compareFlags (p r m : Byte) : Byte := setNZ (setFlag p .c (decide (m.toNat ≤ r.toNat))) (r - m)

/-- The flags `BIT` leaves: Z = ((A & M) == 0), N = M[7], V = M[6] (R140). -/
def bitFlags (p a m : Byte) : Byte :=
  setFlag (setFlag (setFlag p .z ((a &&& m) == 0#8)) .n (m.getLsbD 7)) .v (m.getLsbD 6)

/-- `ASL`: the result and the carry out; the carry in is not used (R130). -/
def aslByte (_c : Bool) (v : Byte) : Byte × Bool := (v <<< 1, v.getLsbD 7)

/-- `ROL`: the previous carry enters bit 0 (R131). -/
def rolByte (c : Bool) (v : Byte) : Byte × Bool := ((v <<< 1) ||| (if c then 1#8 else 0#8), v.getLsbD 7)

/-- `LSR`: the result and the bit shifted out (R132). -/
def lsrByte (_c : Bool) (v : Byte) : Byte × Bool := (v >>> 1, v.getLsbD 0)

/-- `ROR`: the previous carry enters bit 7 (R133). -/
def rorByte (c : Bool) (v : Byte) : Byte × Bool := ((v >>> 1) ||| (if c then 0x80#8 else 0#8), v.getLsbD 0)

end Sys2Proof.Machine
end

