-- ==== Sys2Proof/Machine/Ops.lean ====
section
/-! DEFINITION. The named operations over memory and registers: the memory port (R40 to R43), the instruction fetch
(R16), the Stack Unit (R160, R161), and taking the BRK trap and returning from it (R246, R247). -/

namespace Sys2Proof.Machine

/-! ### Memory as a canonical list -/

/-- The byte at an address; an address that is not listed reads 0x00 (R44). -/
def Memory.read : Memory → Nat → Byte
  | [], _ => 0#8
  | (b, w) :: rest, a => if a = b then w else Memory.read rest a

/-- Write one byte, keeping the addresses rising and dropping a cell that becomes 0x00. -/
def Memory.write : Memory → Nat → Byte → Memory
  | [], a, v => if v = 0#8 then [] else [(a, v)]
  | (b, w) :: rest, a, v =>
    if a < b then (if v = 0#8 then (b, w) :: rest else (a, v) :: (b, w) :: rest)
    else if a = b then (if v = 0#8 then rest else (a, v) :: rest)
    else (b, w) :: Memory.write rest a v

/-- Every listed address is at least `lo`, addresses rise strictly, and no listed byte is 0x00. -/
def Memory.wfFrom (lo : Nat) : Memory → Bool
  | [] => true
  | (b, w) :: rest => decide (lo ≤ b) && w != 0#8 && Memory.wfFrom (b + 1) rest

/-- The canonical form: equal memories are equal lists. -/
def Memory.wf (m : Memory) : Bool := Memory.wfFrom 0 m

/-- Every listed address is below `size`: the list describes an array of `size` cells (R40). -/
def Memory.fits (m : Memory) (size : Nat) : Bool := m.all fun c => decide (c.1 < size)

/-! ### The memory port -/

/-- `MemRead(addr, 1)` (R41). -/
def memRead (s : State) (addr : Nat) : Except Stop Byte :=
  if addr < s.cfg.memSize then .ok (s.mem.read addr)
  else .error (.fault (.addressingFault addr))

/-- `MemWrite(addr, 1, v)` (R42). -/
def memWrite (s : State) (addr : Nat) (v : Byte) : Except Stop State :=
  if addr < s.cfg.memSize then .ok (s.withMem (s.mem.write addr v))
  else .error (.fault (.addressingFault addr))

/-- `Fetch8()`: the byte at `PC`, and `PC` one further modulo 65536 (R16, R17). -/
def fetch8 (s : State) : Except Stop (Byte × State) := do
  let v ← memRead s s.pc.toNat
  return (v, s.withPc (s.pc + 1#16))

/-! ### The instruction fetch -/

/-- The opcode byte and the operand bytes its mode consumes, at ascending addresses (R58, R60, R73): the decoded
instruction, and the state with `PC` past the whole instruction (R15). -/
def fetch (s : State) : Except Stop (Instr × State) := do
  let (b, s) ← fetch8 s
  match (optable b).mode.operandBytes with
  | 0 => return (instrAt b 0#8 0#8, s)
  | 1 =>
    let (first, s) ← fetch8 s
    return (instrAt b first 0#8, s)
  | _ =>
    let (first, s) ← fetch8 s
    let (second, s) ← fetch8 s
    return (instrAt b first second, s)

/-! ### The Stack Unit -/

/-- The stack address `0x0100 + SP` (R14, R48). -/
def stackAddr (sp : Byte) : Nat := 0x0100 + sp.toNat

/-- `Push(v)`: write at `0x0100 + SP`, then `SP <- (SP − 1) mod 256` (R160). -/
def push (s : State) (v : Byte) : Except Stop State := do
  let t ← memWrite s (stackAddr s.sp) v
  return t.withSp (s.sp - 1#8)

/-- `Pull()`: `SP <- (SP + 1) mod 256`, then read at `0x0100 + SP` (R161). -/
def pull (s : State) : Except Stop (Byte × State) := do
  let t := s.withSp (s.sp + 1#8)
  let v ← memRead t (stackAddr t.sp)
  return (v, t)

/-! ### The BRK trap -/

/-- Trap entry (R246, R165): B is set in `P`; PC high, PC low and `P` are pushed in that order; `PC` is loaded from
the little-endian pair at `BRK_VECTOR`. On entry `PC` is the opcode address + 1. I is not changed. -/
def trapEntry (s : State) : Except Stop State := do
  let s := s.setFlag .b true
  let s ← push s (hi8 s.pc)
  let s ← push s (lo8 s.pc)
  let s ← push s s.p
  let lo ← memRead s s.cfg.brkVector
  let hi ← memRead s (s.cfg.brkVector + 1)
  return s.withPc (compose hi lo)

/-- Trap return (R247, R224): pull `P` (bit 5 forced to 1), then PC low, then PC high; nothing is added to `PC`. -/
def trapReturn (s : State) : Except Stop State := do
  let (v, s) ← pull s
  let s := s.loadP v
  let (lo, s) ← pull s
  let (hi, s) ← pull s
  return s.withPc (compose hi lo)

/-! ### Base cycle counts -/

/-- `BASE_CYCLES[b]`. An undefined opcode has the table's `UNDEF_CYCLES` = 2, whatever the parameters (R3, R69, R108,
D7); a defined one has the table's count (R65, R68) unless the parameter changes it (U22; log entry 8). -/
def State.baseCycles (s : State) (b : Byte) : Nat :=
  if isUndefined b then (optable b).baseCycles
  else (s.cfg.baseCycleChanges.lookup b).getD (optable b).baseCycles

/-- The outcome of an instruction that ran to a state or stopped. -/
def finish : Except Stop State → Host.Outcome State Fault Refusal
  | .ok s => .next s
  | .error (.fault f) => .fault f
  | .error (.refused r) => .refused r

end Sys2Proof.Machine
end

