-- ==== Sys2Proof/Machine/Operands.lean ====
section
/-! DEFINITION. The addressing-mode resolver (R80 to R98), operand access, and running one table entry (R101). -/

namespace Sys2Proof.Machine

/-- Operand descriptors (R80). -/
inductive Opd where
  /-- No operand. -/
  | none
  /-- The accumulator. -/
  | acc
  /-- An immediate byte, already fetched. -/
  | imm (v : Byte)
  /-- A memory operand at an effective address, a natural number 0 to 0x100FE. -/
  | mem (ea : Nat)
  /-- A signed displacement, −128 to 127. -/
  | rel (d : Int)
  deriving DecidableEq, Repr

/-- The page-crossing penalty of an indexed 16-bit base: 1 if `hi8(ea) ≠ hi8(base)`, else 0 (R94). -/
def pagePenalty (base : Addr) (ea : Nat) : Nat := if pageOf ea = pageOf base.toNat then 0 else 1

/-- `base + index` as a natural number, not reduced, with its penalty (R88, R89, R91). -/
def indexed (base : Addr) (index : Byte) : Opd × Nat :=
  (.mem (base.toNat + index.toNat), pagePenalty base (base.toNat + index.toNat))

/-- The little-endian pair at a zero-page pointer, its successor wrapped modulo 256; low byte read first
(R90, R91, R58). -/
def zeroPagePair (s : State) (ptr : Byte) : Except Stop Addr := do
  let lo ← memRead s ptr.toNat
  let hi ← memRead s (ptr + 1#8).toNat
  return compose hi lo

/-- Where the Indirect mode reads the high byte of its target (R93): at `ptr + 1` as a natural number, or in the
pointer's own page when `JMP_INDIRECT_PAGE_WRAP` is set. -/
def indirectHighAddr (wrap : Bool) (ptr : Addr) : Nat :=
  if wrap then (compose (hi8 ptr) (lo8 ptr + 1#8)).toNat else ptr.toNat + 1

/-- The little-endian pair at the pointer of the Indirect mode (R93). -/
def indirectPair (s : State) (ptr : Addr) : Except Stop Addr := do
  let lo ← memRead s ptr.toNat
  let hi ← memRead s (indirectHighAddr s.cfg.jmpIndirectPageWrap ptr)
  return compose hi lo

/-- `Resolve` (R80): the operand descriptor and the mode's page-crossing penalty. The operand bytes are already in the
`Operand` and `PC` is already past them (`fetch`); `Resolve` reads `X`, `Y` and pointers and writes nothing. -/
def resolve (m : Operand) (s : State) : Except Stop (Opd × Nat) :=
  match m with
  | .implied => .ok (.none, 0)
  | .accumulator => .ok (.acc, 0)
  | .immediate v => .ok (.imm v, 0)
  | .zeroPage zp => .ok (.mem zp.toNat, 0)
  | .zeroPageX zp => .ok (.mem (zp + s.x).toNat, 0)
  | .zeroPageY zp => .ok (.mem (zp + s.y).toNat, 0)
  | .absolute addr => .ok (.mem addr.toNat, 0)
  | .absoluteX base => .ok (indexed base s.x)
  | .absoluteY base => .ok (indexed base s.y)
  | .indirectX zp => do
    let ea ← zeroPagePair s (zp + s.x)
    return (.mem ea.toNat, 0)
  | .indirectY zp => do
    let base ← zeroPagePair s zp
    return indexed base s.y
  | .relative disp => .ok (.rel (sext16 disp), 0)
  | .indirect ptr => do
    let ea ← indirectPair s ptr
    return (.mem ea.toNat, 0)

/-- `ReadOperand(opd)` (R95); a descriptor it is not defined for is refused (R98). -/
def readOperand (opd : Opd) (s : State) : Except Stop Byte :=
  match opd with
  | .acc => .ok s.a
  | .imm v => .ok v
  | .mem ea => memRead s ea
  | .none => .error (.refused .unusableDescriptor)
  | .rel _ => .error (.refused .unusableDescriptor)

/-- `WriteOperand(opd, v)` (R96); a descriptor it is not defined for is refused (R98). -/
def writeOperand (opd : Opd) (v : Byte) (s : State) : Except Stop State :=
  match opd with
  | .acc => .ok (s.withA v)
  | .mem ea => memWrite s ea v
  | .none => .error (.refused .unusableDescriptor)
  | .imm _ => .error (.refused .unusableDescriptor)
  | .rel _ => .error (.refused .unusableDescriptor)

/-- An operation of the table: from the descriptor and the state to the new state and its own cycle penalty
`pen_op` (R8, R111). -/
abbrev Execution := Opd → State → Except Stop (State × Nat)

/-- Run one table entry (R101 after the fetch): resolve the operand, execute the operation, and set
`CYC <- base_cycles + pen_a + pen_op − 1`. A (mode, operation) pair outside the table is refused (R98). -/
def runEntry (i : Instr) (execute : Execution) (s : State) : Host.Outcome State Fault Refusal :=
  match opcodeOf i with
  | none => .refused .noTableEntry
  | some b => finish do
    let (opd, penA) ← resolve i.operand s
    let (t, penOp) ← execute opd s
    return t.withCyc (s.baseCycles b + penA + penOp - 1)

/-! ### Shapes of operation shared by several instructions -/

/-- An operation on registers and flags alone: no operand is read or written, no penalty. -/
def registerOp (f : State → State) : Execution := fun _ s => .ok (f s, 0)

/-- Read the operand, then change registers and flags by its value. -/
def readOp (f : State → Byte → State) : Execution := fun opd s => do
  let v ← readOperand opd s
  return (f s v, 0)

/-- Store a register's value: one write of the operand, no read, no flag (R183 to R185). -/
def storeOp (value : State → Byte) : Execution := fun opd s => do
  let t ← writeOperand opd (value s) s
  return (t, 0)

/-- Read-modify-write through the carry (R130 to R133): read, set C, write back to the same place, set N and Z. -/
def shiftOp (f : Bool → Byte → Byte × Bool) : Execution := fun opd s => do
  let v ← readOperand opd s
  let r := f (s.flag .c) v
  let t ← writeOperand opd r.1 (s.setFlag .c r.2)
  return (t.setNZ r.1, 0)

/-- Read-modify-write that leaves C and V alone (R206, R207): read, write back, set N and Z. -/
def modifyOp (f : Byte → Byte) : Execution := fun opd s => do
  let v ← readOperand opd s
  let t ← writeOperand opd (f v) s
  return (t.setNZ (f v), 0)

/-- An operation of the Stack Unit or the trap path: no operand, no penalty, the steps of `f` in order. -/
def stackOp (f : State → Except Stop State) : Execution := fun _ s => do
  let t ← f s
  return (t, 0)

/-- A taken branch's target: `(old + d) mod 65536` (R145, R17). -/
def branchTarget (old : Addr) (d : Int) : Addr := BitVec.ofInt 16 ((old.toNat : Int) + d)

/-- A taken branch's own penalty: 1, and 1 more when the target's page is not that of the next instruction (R145). -/
def branchPenalty (old new : Addr) : Nat := 1 + (if hi8 new = hi8 old then 0 else 1)

/-- `Branch(f, want)` (R145). -/
def branchOp (f : Flag) (want : Bool) : Execution := fun opd s =>
  match opd with
  | .rel d =>
    if s.flag f = want then
      .ok (s.withPc (branchTarget s.pc d), branchPenalty s.pc (branchTarget s.pc d))
    else .ok (s, 0)
  | .none => .error (.refused .unusableDescriptor)
  | .acc => .error (.refused .unusableDescriptor)
  | .imm _ => .error (.refused .unusableDescriptor)
  | .mem _ => .error (.refused .unusableDescriptor)

/-- An operation that uses only the address of its memory operand (R98: `JMP`, `JSR`). -/
def addressOp (f : State → Addr → Except Stop State) : Execution := fun opd s =>
  match opd with
  | .mem ea => do
    let t ← f s (BitVec.ofNat 16 ea)
    return (t, 0)
  | .none => .error (.refused .unusableDescriptor)
  | .acc => .error (.refused .unusableDescriptor)
  | .imm _ => .error (.refused .unusableDescriptor)
  | .rel _ => .error (.refused .unusableDescriptor)

end Sys2Proof.Machine
end

