-- ==== Sys2Proof/Machine/Arithmetic.lean ====
section
/-! DEFINITION. Add, subtract, compare, increment and decrement (48_ext_arithmetic.md). -/

namespace Sys2Proof.Machine

/-- Read the operand, refuse in decimal mode (R202; after the read, R245, log entry 9), else write A and C, V, N, Z of
the binary operation (R200, R201). -/
def binaryOp (f : Byte → Byte → Bool → AddResult) : Execution := fun opd s => do
  let v ← readOperand opd s
  if s.flag .d then .error (.refused .decimalMode)
  else
    let r := f s.a v (s.flag .c)
    return ((((s.setFlag .c r.carry).setFlag .v r.overflow).withA r.result).setNZ r.result, 0)

/-- `ADC` (R200): read the operand, refuse when D = 1 (R202), else A, N, V, Z, C of the binary sum. -/
def executeAdc : Execution :=
  binaryOp addWithCarry

/-- ADC: its table entry, run with `executeAdc` (R101). -/
def execAdc (m : Operand) (s : State) : Host.Outcome State Fault Refusal :=
  runEntry (.adc m) executeAdc s

/-- `SBC` (R201): read the operand, refuse when D = 1 (R202), else A, N, V, Z, C of the binary difference. -/
def executeSbc : Execution :=
  binaryOp subWithBorrow

/-- SBC: its table entry, run with `executeSbc` (R101). -/
def execSbc (m : Operand) (s : State) : Host.Outcome State Fault Refusal :=
  runEntry (.sbc m) executeSbc s

/-- `CMP` (R203): flags of A − M; A and V are not written. -/
def executeCmp : Execution :=
  readOp fun s v => s.withP (compareFlags s.p s.a v)

/-- CMP: its table entry, run with `executeCmp` (R101). -/
def execCmp (m : Operand) (s : State) : Host.Outcome State Fault Refusal :=
  runEntry (.cmp m) executeCmp s

/-- `CPX` (R204): flags of X − M. -/
def executeCpx : Execution :=
  readOp fun s v => s.withP (compareFlags s.p s.x v)

/-- CPX: its table entry, run with `executeCpx` (R101). -/
def execCpx (m : Operand) (s : State) : Host.Outcome State Fault Refusal :=
  runEntry (.cpx m) executeCpx s

/-- `CPY` (R205): flags of Y − M. -/
def executeCpy : Execution :=
  readOp fun s v => s.withP (compareFlags s.p s.y v)

/-- CPY: its table entry, run with `executeCpy` (R101). -/
def execCpy (m : Operand) (s : State) : Host.Outcome State Fault Refusal :=
  runEntry (.cpy m) executeCpy s

/-- `INC` (R206): the cell plus 1, N and Z. -/
def executeInc : Execution :=
  modifyOp (· + 1#8)

/-- INC: its table entry, run with `executeInc` (R101). -/
def execInc (m : Operand) (s : State) : Host.Outcome State Fault Refusal :=
  runEntry (.inc m) executeInc s

/-- `DEC` (R207): the cell minus 1, N and Z. -/
def executeDec : Execution :=
  modifyOp (· - 1#8)

/-- DEC: its table entry, run with `executeDec` (R101). -/
def execDec (m : Operand) (s : State) : Host.Outcome State Fault Refusal :=
  runEntry (.dec m) executeDec s

/-- `INX` (R208): `X <- (X + 1) mod 256; SetNZ(X)`. -/
def executeInx : Execution :=
  registerOp fun s => (s.withX (s.x + 1#8)).setNZ (s.x + 1#8)

/-- INX: its table entry, run with `executeInx` (R101). -/
def execInx (s : State) : Host.Outcome State Fault Refusal :=
  runEntry .inx executeInx s

/-- `INY` (R209): `Y <- (Y + 1) mod 256; SetNZ(Y)`. -/
def executeIny : Execution :=
  registerOp fun s => (s.withY (s.y + 1#8)).setNZ (s.y + 1#8)

/-- INY: its table entry, run with `executeIny` (R101). -/
def execIny (s : State) : Host.Outcome State Fault Refusal :=
  runEntry .iny executeIny s

/-- `DEX` (R210): `X <- (X − 1) mod 256; SetNZ(X)`. -/
def executeDex : Execution :=
  registerOp fun s => (s.withX (s.x - 1#8)).setNZ (s.x - 1#8)

/-- DEX: its table entry, run with `executeDex` (R101). -/
def execDex (s : State) : Host.Outcome State Fault Refusal :=
  runEntry .dex executeDex s

/-- `DEY` (R211): `Y <- (Y − 1) mod 256; SetNZ(Y)`. -/
def executeDey : Execution :=
  registerOp fun s => (s.withY (s.y - 1#8)).setNZ (s.y - 1#8)

/-- DEY: its table entry, run with `executeDey` (R101). -/
def execDey (s : State) : Host.Outcome State Fault Refusal :=
  runEntry .dey executeDey s

end Sys2Proof.Machine
end

