-- ==== Sys2Proof/Machine/BitTest.lean ====
section
/-! DEFINITION. Bit test (44_bit_test.md). -/

namespace Sys2Proof.Machine

/-- `BIT` (R140): Z from `A & M`, N = M[7], V = M[6]; `A` is not written. -/
def executeBit : Execution :=
  readOp fun s v => s.withP (bitFlags s.p s.a v)

/-- BIT: its table entry, run with `executeBit` (R101). -/
def execBit (m : Operand) (s : State) : Host.Outcome State Fault Refusal :=
  runEntry (.bit m) executeBit s

end Sys2Proof.Machine
end

