-- ==== Sys2Proof/Machine/Branch.lean ====
section
/-! DEFINITION. The conditional branches (45_branches.md): one operation, eight flag and polarity pairs. -/

namespace Sys2Proof.Machine

/-- `BPL` (R146, R145): taken when N = 0. -/
def executeBpl : Execution :=
  branchOp .n false

/-- BPL: its table entry, run with `executeBpl` (R101). -/
def execBpl (m : Operand) (s : State) : Host.Outcome State Fault Refusal :=
  runEntry (.bpl m) executeBpl s

/-- `BMI` (R147, R145): taken when N = 1. -/
def executeBmi : Execution :=
  branchOp .n true

/-- BMI: its table entry, run with `executeBmi` (R101). -/
def execBmi (m : Operand) (s : State) : Host.Outcome State Fault Refusal :=
  runEntry (.bmi m) executeBmi s

/-- `BVC` (R148, R145): taken when V = 0. -/
def executeBvc : Execution :=
  branchOp .v false

/-- BVC: its table entry, run with `executeBvc` (R101). -/
def execBvc (m : Operand) (s : State) : Host.Outcome State Fault Refusal :=
  runEntry (.bvc m) executeBvc s

/-- `BVS` (R149, R145): taken when V = 1. -/
def executeBvs : Execution :=
  branchOp .v true

/-- BVS: its table entry, run with `executeBvs` (R101). -/
def execBvs (m : Operand) (s : State) : Host.Outcome State Fault Refusal :=
  runEntry (.bvs m) executeBvs s

/-- `BCC` (R150, R145): taken when C = 0. -/
def executeBcc : Execution :=
  branchOp .c false

/-- BCC: its table entry, run with `executeBcc` (R101). -/
def execBcc (m : Operand) (s : State) : Host.Outcome State Fault Refusal :=
  runEntry (.bcc m) executeBcc s

/-- `BCS` (R151, R145): taken when C = 1. -/
def executeBcs : Execution :=
  branchOp .c true

/-- BCS: its table entry, run with `executeBcs` (R101). -/
def execBcs (m : Operand) (s : State) : Host.Outcome State Fault Refusal :=
  runEntry (.bcs m) executeBcs s

/-- `BNE` (R152, R145): taken when Z = 0. -/
def executeBne : Execution :=
  branchOp .z false

/-- BNE: its table entry, run with `executeBne` (R101). -/
def execBne (m : Operand) (s : State) : Host.Outcome State Fault Refusal :=
  runEntry (.bne m) executeBne s

/-- `BEQ` (R153, R145): taken when Z = 1. -/
def executeBeq : Execution :=
  branchOp .z true

/-- BEQ: its table entry, run with `executeBeq` (R101). -/
def execBeq (m : Operand) (s : State) : Host.Outcome State Fault Refusal :=
  runEntry (.beq m) executeBeq s

end Sys2Proof.Machine
end

