-- ==== Sys2Proof/Machine/Control.lean ====
section
/-! DEFINITION. Jumps, subroutines, return from interrupt, flag operations, NOP (49_ext_control_flags.md), and the
Undefined operation (41_execution_engine.md R108). -/

namespace Sys2Proof.Machine

/-- `JMP` (R220, R221): `PC <- ea`, in Absolute and Indirect mode. -/
def executeJmp : Execution :=
  addressOp fun s ea => .ok (s.withPc ea)

/-- JMP: its table entry, run with `executeJmp` (R101). -/
def execJmp (m : Operand) (s : State) : Host.Outcome State Fault Refusal :=
  runEntry (.jmp m) executeJmp s

/-- `JSR` (R222): push the address of its own last byte, high byte first, then `PC <- ea`. -/
def executeJsr : Execution :=
  addressOp fun s ea => do
    let ret := s.pc - 1#16
    let t ← push s (hi8 ret)
    let t ← push t (lo8 ret)
    return t.withPc ea

/-- JSR: its table entry, run with `executeJsr` (R101). -/
def execJsr (m : Operand) (s : State) : Host.Outcome State Fault Refusal :=
  runEntry (.jsr m) executeJsr s

/-- `RTS` (R223): pull low, pull high, `PC <- Compose(hi, lo) + 1`. -/
def executeRts : Execution :=
  stackOp fun s => do
    let (lo, s) ← pull s
    let (hi, s) ← pull s
    return s.withPc (compose hi lo + 1#16)

/-- RTS: its table entry, run with `executeRts` (R101). -/
def execRts (s : State) : Host.Outcome State Fault Refusal :=
  runEntry .rts executeRts s

/-- `RTI` (R224): the trap return of R247. -/
def executeRti : Execution :=
  stackOp trapReturn

/-- RTI: its table entry, run with `executeRti` (R101). -/
def execRti (s : State) : Host.Outcome State Fault Refusal :=
  runEntry .rti executeRti s

/-- `CLC` (R225): `P.C <- 0`. -/
def executeClc : Execution :=
  registerOp fun s => s.setFlag .c false

/-- CLC: its table entry, run with `executeClc` (R101). -/
def execClc (s : State) : Host.Outcome State Fault Refusal :=
  runEntry .clc executeClc s

/-- `SEC` (R226): `P.C <- 1`. -/
def executeSec : Execution :=
  registerOp fun s => s.setFlag .c true

/-- SEC: its table entry, run with `executeSec` (R101). -/
def execSec (s : State) : Host.Outcome State Fault Refusal :=
  runEntry .sec executeSec s

/-- `CLI` (R227): `P.I <- 0`. -/
def executeCli : Execution :=
  registerOp fun s => s.setFlag .i false

/-- CLI: its table entry, run with `executeCli` (R101). -/
def execCli (s : State) : Host.Outcome State Fault Refusal :=
  runEntry .cli executeCli s

/-- `SEI` (R228): `P.I <- 1`. -/
def executeSei : Execution :=
  registerOp fun s => s.setFlag .i true

/-- SEI: its table entry, run with `executeSei` (R101). -/
def execSei (s : State) : Host.Outcome State Fault Refusal :=
  runEntry .sei executeSei s

/-- `CLV` (R229): `P.V <- 0`. -/
def executeClv : Execution :=
  registerOp fun s => s.setFlag .v false

/-- CLV: its table entry, run with `executeClv` (R101). -/
def execClv (s : State) : Host.Outcome State Fault Refusal :=
  runEntry .clv executeClv s

/-- `CLD` (R230): `P.D <- 0`. -/
def executeCld : Execution :=
  registerOp fun s => s.setFlag .d false

/-- CLD: its table entry, run with `executeCld` (R101). -/
def execCld (s : State) : Host.Outcome State Fault Refusal :=
  runEntry .cld executeCld s

/-- `SED` (R231): `P.D <- 1`. -/
def executeSed : Execution :=
  registerOp fun s => s.setFlag .d true

/-- SED: its table entry, run with `executeSed` (R101). -/
def execSed (s : State) : Host.Outcome State Fault Refusal :=
  runEntry .sed executeSed s

/-- `NOP` (R232): nothing but `PC` and `CYC`. -/
def executeNop : Execution :=
  registerOp fun s => s

/-- NOP: its table entry, run with `executeNop` (R101). -/
def execNop (s : State) : Host.Outcome State Fault Refusal :=
  runEntry .nop executeNop s

/-- The Undefined operation (R108): nothing is read or written; the base count is charged. -/
def executeUndefined : Execution :=
  registerOp fun s => s

/-- UNDEFINED: its table entry, run with `executeUndefined` (R101). -/
def execUndefined (opcode : Byte) (s : State) : Host.Outcome State Fault Refusal :=
  runEntry (.undefined opcode) executeUndefined s

end Sys2Proof.Machine
end

