-- ==== Sys2Proof/Machine/LoadStore.lean ====
section
/-! DEFINITION. Loads and stores (47_ext_load_store_transfer.md). -/

namespace Sys2Proof.Machine

/-- `LDA` (R180): `A <- M; SetNZ(A)`. -/
def executeLda : Execution :=
  readOp fun s v => (s.withA v).setNZ v

/-- LDA: its table entry, run with `executeLda` (R101). -/
def execLda (m : Operand) (s : State) : Host.Outcome State Fault Refusal :=
  runEntry (.lda m) executeLda s

/-- `LDX` (R181): `X <- M; SetNZ(X)`. -/
def executeLdx : Execution :=
  readOp fun s v => (s.withX v).setNZ v

/-- LDX: its table entry, run with `executeLdx` (R101). -/
def execLdx (m : Operand) (s : State) : Host.Outcome State Fault Refusal :=
  runEntry (.ldx m) executeLdx s

/-- `LDY` (R182): `Y <- M; SetNZ(Y)`. -/
def executeLdy : Execution :=
  readOp fun s v => (s.withY v).setNZ v

/-- LDY: its table entry, run with `executeLdy` (R101). -/
def execLdy (m : Operand) (s : State) : Host.Outcome State Fault Refusal :=
  runEntry (.ldy m) executeLdy s

/-- `STA` (R183): `MemWrite(ea, 1, A)`; no flag. -/
def executeSta : Execution :=
  storeOp fun s => s.a

/-- STA: its table entry, run with `executeSta` (R101). -/
def execSta (m : Operand) (s : State) : Host.Outcome State Fault Refusal :=
  runEntry (.sta m) executeSta s

/-- `STX` (R184): `MemWrite(ea, 1, X)`; no flag. -/
def executeStx : Execution :=
  storeOp fun s => s.x

/-- STX: its table entry, run with `executeStx` (R101). -/
def execStx (m : Operand) (s : State) : Host.Outcome State Fault Refusal :=
  runEntry (.stx m) executeStx s

/-- `STY` (R185): `MemWrite(ea, 1, Y)`; no flag. -/
def executeSty : Execution :=
  storeOp fun s => s.y

/-- STY: its table entry, run with `executeSty` (R101). -/
def execSty (m : Operand) (s : State) : Host.Outcome State Fault Refusal :=
  runEntry (.sty m) executeSty s

end Sys2Proof.Machine
end

