-- ==== Sys2Proof/Machine/Logical.lean ====
section
/-! DEFINITION. The logical family (42_logical.md): accumulator OP operand, N and Z from the result. -/

namespace Sys2Proof.Machine

/-- `ORA` (R120): `A <- A | M; SetNZ(A)`. -/
def executeOra : Execution :=
  readOp fun s v => (s.withA (s.a ||| v)).setNZ (s.a ||| v)

/-- ORA: its table entry, run with `executeOra` (R101). -/
def execOra (m : Operand) (s : State) : Host.Outcome State Fault Refusal :=
  runEntry (.ora m) executeOra s

/-- `AND` (R121): `A <- A & M; SetNZ(A)`. -/
def executeAnd : Execution :=
  readOp fun s v => (s.withA (s.a &&& v)).setNZ (s.a &&& v)

/-- AND: its table entry, run with `executeAnd` (R101). -/
def execAnd (m : Operand) (s : State) : Host.Outcome State Fault Refusal :=
  runEntry (.and m) executeAnd s

/-- `EOR` (R122): `A <- A ^ M; SetNZ(A)`. -/
def executeEor : Execution :=
  readOp fun s v => (s.withA (s.a ^^^ v)).setNZ (s.a ^^^ v)

/-- EOR: its table entry, run with `executeEor` (R101). -/
def execEor (m : Operand) (s : State) : Host.Outcome State Fault Refusal :=
  runEntry (.eor m) executeEor s

end Sys2Proof.Machine
end

