-- ==== Sys2Proof/Machine/Shift.lean ====
section
/-! DEFINITION. The shift and rotate family (43_shift_rotate.md): read-modify-write of the accumulator or a cell. -/

namespace Sys2Proof.Machine

/-- `ASL` (R130): C = v[7], r = (v << 1) & 0xFF, N and Z from r. -/
def executeAsl : Execution :=
  shiftOp aslByte

/-- ASL: its table entry, run with `executeAsl` (R101). -/
def execAsl (m : Operand) (s : State) : Host.Outcome State Fault Refusal :=
  runEntry (.asl m) executeAsl s

/-- `ROL` (R131): as ASL, with the previous carry in bit 0. -/
def executeRol : Execution :=
  shiftOp rolByte

/-- ROL: its table entry, run with `executeRol` (R101). -/
def execRol (m : Operand) (s : State) : Host.Outcome State Fault Refusal :=
  runEntry (.rol m) executeRol s

/-- `LSR` (R132): C = v[0], r = v >> 1, N and Z from r. -/
def executeLsr : Execution :=
  shiftOp lsrByte

/-- LSR: its table entry, run with `executeLsr` (R101). -/
def execLsr (m : Operand) (s : State) : Host.Outcome State Fault Refusal :=
  runEntry (.lsr m) executeLsr s

/-- `ROR` (R133): as LSR, with the previous carry in bit 7. -/
def executeRor : Execution :=
  shiftOp rorByte

/-- ROR: its table entry, run with `executeRor` (R101). -/
def execRor (m : Operand) (s : State) : Host.Outcome State Fault Refusal :=
  runEntry (.ror m) executeRor s

end Sys2Proof.Machine
end

