-- ==== Sys2Proof/Machine/Stack.lean ====
section
/-! DEFINITION. The stack family and the BRK trap (46_stack_and_brk.md). -/

namespace Sys2Proof.Machine

/-- `PHP` (R164): `Push(P)`, bit 4 as stored. -/
def executePhp : Execution :=
  stackOp fun s => push s s.p

/-- PHP: its table entry, run with `executePhp` (R101). -/
def execPhp (s : State) : Host.Outcome State Fault Refusal :=
  runEntry .php executePhp s

/-- `BRK` (R165): the trap entry of R246. -/
def executeBrk : Execution :=
  stackOp trapEntry

/-- BRK: its table entry, run with `executeBrk` (R101). -/
def execBrk (s : State) : Host.Outcome State Fault Refusal :=
  runEntry .brk executeBrk s

/-- `PHA` (R169): `Push(A)`. -/
def executePha : Execution :=
  stackOp fun s => push s s.a

/-- PHA: its table entry, run with `executePha` (R101). -/
def execPha (s : State) : Host.Outcome State Fault Refusal :=
  runEntry .pha executePha s

/-- `PLA` (R170): `A <- Pull(); SetNZ(A)`. -/
def executePla : Execution :=
  stackOp fun s => do
    let (v, s) ← pull s
    return (s.withA v).setNZ v

/-- PLA: its table entry, run with `executePla` (R101). -/
def execPla (s : State) : Host.Outcome State Fault Refusal :=
  runEntry .pla executePla s

/-- `PLP` (R171): `P <- Pull() | 0x20`. -/
def executePlp : Execution :=
  stackOp fun s => do
    let (v, s) ← pull s
    return s.loadP v

/-- PLP: its table entry, run with `executePlp` (R101). -/
def execPlp (s : State) : Host.Outcome State Fault Refusal :=
  runEntry .plp executePlp s

end Sys2Proof.Machine
end

