-- ==== Sys2Proof/Machine/Transfer.lean ====
section
/-! DEFINITION. Register transfers (47_ext_load_store_transfer.md, section 3). -/

namespace Sys2Proof.Machine

/-- `TAX` (R186): `X <- A; SetNZ(X)`. -/
def executeTax : Execution :=
  registerOp fun s => (s.withX s.a).setNZ s.a

/-- TAX: its table entry, run with `executeTax` (R101). -/
def execTax (s : State) : Host.Outcome State Fault Refusal :=
  runEntry .tax executeTax s

/-- `TAY` (R187): `Y <- A; SetNZ(Y)`. -/
def executeTay : Execution :=
  registerOp fun s => (s.withY s.a).setNZ s.a

/-- TAY: its table entry, run with `executeTay` (R101). -/
def execTay (s : State) : Host.Outcome State Fault Refusal :=
  runEntry .tay executeTay s

/-- `TXA` (R188): `A <- X; SetNZ(A)`. -/
def executeTxa : Execution :=
  registerOp fun s => (s.withA s.x).setNZ s.x

/-- TXA: its table entry, run with `executeTxa` (R101). -/
def execTxa (s : State) : Host.Outcome State Fault Refusal :=
  runEntry .txa executeTxa s

/-- `TYA` (R189): `A <- Y; SetNZ(A)`. -/
def executeTya : Execution :=
  registerOp fun s => (s.withA s.y).setNZ s.y

/-- TYA: its table entry, run with `executeTya` (R101). -/
def execTya (s : State) : Host.Outcome State Fault Refusal :=
  runEntry .tya executeTya s

/-- `TSX` (R190): `X <- SP; SetNZ(X)`. -/
def executeTsx : Execution :=
  registerOp fun s => (s.withX s.sp).setNZ s.sp

/-- TSX: its table entry, run with `executeTsx` (R101). -/
def execTsx (s : State) : Host.Outcome State Fault Refusal :=
  runEntry .tsx executeTsx s

/-- `TXS` (R191): `SP <- X`; the one transfer that writes no flag. -/
def executeTxs : Execution :=
  registerOp fun s => s.withSp s.x

/-- TXS: its table entry, run with `executeTxs` (R101). -/
def execTxs (s : State) : Host.Outcome State Fault Refusal :=
  runEntry .txs executeTxs s

end Sys2Proof.Machine
end

