-- ==== Sys2Proof/Machine/Engine.lean ====
section
/-! DEFINITION. The execution engine (41_execution_engine.md): the fetch tick, the countdown tick, the tick's result,
the reset event and placing an instruction where the next tick fetches it. -/

namespace Sys2Proof.Machine

/-- `FetchTick()` (R101): fetch, then run the instruction with `PC` past it; a fault of the fetch is the tick's. -/
def fetchTick (s : State) : Host.Outcome State Fault Refusal :=
  match fetch s with
  | .ok (i, t) => exec i t
  | .error (.fault f) => .fault f
  | .error (.refused r) => .refused r

/-- `CountdownTick()` (R102): `CYC <- CYC − 1` and nothing else. -/
def countdownTick (s : State) : State := s.withCyc (s.cyc - 1)

/-- `tick()` (R100): count down while `CYC > 0`, else fetch and run one whole instruction. -/
def tick (s : State) : Host.Outcome State Fault Refusal :=
  if s.cyc > 0 then .next (countdownTick s) else fetchTick s

/-- The two values of `tick()` (R30, R104). -/
inductive TickResult where
  /-- "instruction completed this tick": the tick that did the fetch-and-execute. -/
  | completed
  /-- "instruction in progress": a pure countdown tick. -/
  | inProgress
  deriving DecidableEq, Repr

/-- The result a tick from `s` returns when it reaches a next state (R104; log entry 5): `Completed` on the FIRST tick
of an instruction, `InProgress` on the rest. A faulting tick returns neither (R240, D33). -/
def tickResult (s : State) : TickResult := if s.cyc > 0 then .inProgress else .completed

/-- Does the next tick execute an undefined opcode? The flag a driver records in its trace (R70, R109). -/
def tickRunsUndefined (s : State) : Bool :=
  match decide (s.cyc = 0), memRead s s.pc.toNat with
  | true, .ok b => isUndefined b
  | _, _ => false

/-- `reset()` (R31, R260, R261): the seven registers take their reset values; memory is neither read nor written and
the parameters stay. It may be called at any tick boundary, also while `CYC > 0`. -/
def resetEvent (s : State) : State := { State.reset with mem := s.mem, cfg := s.cfg }

/-- Write a cell of the memory array; an address outside the array is left alone. -/
def poke (s : State) (addr : Nat) (v : Byte) : State :=
  if addr < s.cfg.memSize then s.withMem (s.mem.write addr v) else s

/-- Store a three-byte instruction word (first byte least significant) at `PC` and make the engine idle, so that the
next tick fetches it. -/
def placeInstruction (s : State) (v : Nat) : State :=
  let s := poke s s.pc.toNat (BitVec.ofNat 8 v)
  let s := poke s (s.pc + 1#16).toNat (BitVec.ofNat 8 (v / 256))
  let s := poke s (s.pc + 2#16).toNat (BitVec.ofNat 8 (v / 65536))
  s.withCyc 0

end Sys2Proof.Machine
end

