-- ==== Sys2Proof/Machine/Step.lean ====
section
/-! DEFINITION. The step of the machine is `tick()` (R100). -/

namespace Sys2Proof.Machine

/-- One step: one call of `tick()` (R4, R100). -/
def step (s : State) : Host.Outcome State Fault Refusal := tick s

/-- `s` with an instruction, numbered as spec/opcode_table.json numbers its bits, stored where the next step fetches:
at `PC`, with the engine idle (log entry 11). -/
def State.withFetchWord (s : State) (nbits w : Nat) : State := placeInstruction s (w % 2 ^ nbits)

end Sys2Proof.Machine
end

