-- ==== Sys2Proof/Machine/Footprint.lean ====
section
/-! DEFINITION. What an instruction may write, as the spec's own lists have it: the flags (R22), the registers
(R11 to R15, R154) and the memory cells (the "Memory written" lines). No meaning calls these; the statements compare them
with `exec`, and `Driver.lean` uses the cells for what a faulted tick may have written (R241). -/

namespace Sys2Proof.Machine

/-- The flags each operation writes (R22 and the "Flags written" lines of files 42 to 49; R9: every other keeps its
value). -/
def flagsWritten : Operation → List Flag
  | .ora | .and | .eor => [.n, .z]
  | .asl | .rol | .lsr | .ror => [.c, .n, .z]
  | .bit => [.z, .n, .v]
  | .bpl | .bmi | .bvc | .bvs | .bcc | .bcs | .bne | .beq => []
  | .php | .pha => []
  | .brk => [.b]
  | .pla => [.n, .z]
  | .plp | .rti => [.n, .v, .b, .d, .i, .z, .c]
  | .lda | .ldx | .ldy => [.n, .z]
  | .sta | .stx | .sty => []
  | .tax | .tay | .txa | .tya | .tsx => [.n, .z]
  | .txs => []
  | .adc | .sbc => [.c, .v, .n, .z]
  | .cmp | .cpx | .cpy => [.c, .n, .z]
  | .inc | .dec | .inx | .iny | .dex | .dey => [.n, .z]
  | .jmp | .jsr | .rts => []
  | .clc | .sec => [.c]
  | .cli | .sei => [.i]
  | .clv => [.v]
  | .cld | .sed => [.d]
  | .nop | .undefined => []

/-- Does the instruction write `A` (R11)? A shift or rotate does in Accumulator mode only. -/
def writesA (i : Instr) : Bool :=
  match i.operation with
  | .ora | .and | .eor | .adc | .sbc | .lda | .pla | .txa | .tya => true
  | .asl | .rol | .lsr | .ror => i.operand.mode == .accumulator
  | .bit | .bpl | .bmi | .bvc | .bvs | .bcc | .bcs | .bne | .beq | .php | .brk | .pha | .plp
  | .ldx | .ldy | .sta | .stx | .sty | .tax | .tay | .tsx | .txs | .cmp | .cpx | .cpy | .inc | .dec
  | .inx | .iny | .dex | .dey | .jmp | .jsr | .rts | .rti
  | .clc | .sec | .cli | .sei | .clv | .cld | .sed | .nop | .undefined => false

/-- Does the operation write `X` (R12)? -/
def writesX : Operation → Bool
  | .ldx | .tax | .tsx | .inx | .dex => true
  | .ora | .and | .eor | .asl | .rol | .lsr | .ror | .bit
  | .bpl | .bmi | .bvc | .bvs | .bcc | .bcs | .bne | .beq | .php | .brk | .pha | .pla | .plp
  | .lda | .ldy | .sta | .stx | .sty | .tay | .txa | .tya | .txs | .adc | .sbc | .cmp | .cpx | .cpy | .inc | .dec
  | .iny | .dey | .jmp | .jsr | .rts | .rti
  | .clc | .sec | .cli | .sei | .clv | .cld | .sed | .nop | .undefined => false

/-- Does the operation write `Y` (R13)? -/
def writesY : Operation → Bool
  | .ldy | .tay | .iny | .dey => true
  | .ora | .and | .eor | .asl | .rol | .lsr | .ror | .bit
  | .bpl | .bmi | .bvc | .bvs | .bcc | .bcs | .bne | .beq | .php | .brk | .pha | .pla | .plp
  | .lda | .ldx | .sta | .stx | .sty | .tax | .txa | .tya | .tsx | .txs | .adc | .sbc | .cmp | .cpx | .cpy | .inc
  | .dec | .inx | .dex | .jmp | .jsr | .rts | .rti
  | .clc | .sec | .cli | .sei | .clv | .cld | .sed | .nop | .undefined => false

/-- Bytes an operation pushes (R164, R165, R169, R222). -/
def pushCount : Operation → Nat
  | .php | .pha => 1
  | .jsr => 2
  | .brk => 3
  | .ora | .and | .eor | .asl | .rol | .lsr | .ror | .bit
  | .bpl | .bmi | .bvc | .bvs | .bcc | .bcs | .bne | .beq | .pla | .plp
  | .lda | .ldx | .ldy | .sta | .stx | .sty | .tax | .tay | .txa | .tya | .tsx | .txs
  | .adc | .sbc | .cmp | .cpx | .cpy | .inc | .dec | .inx | .iny | .dex | .dey | .jmp | .rts | .rti
  | .clc | .sec | .cli | .sei | .clv | .cld | .sed | .nop | .undefined => 0

/-- Bytes an operation pulls (R170, R171, R223, R224). -/
def pullCount : Operation → Nat
  | .pla | .plp => 1
  | .rts => 2
  | .rti => 3
  | .ora | .and | .eor | .asl | .rol | .lsr | .ror | .bit
  | .bpl | .bmi | .bvc | .bvs | .bcc | .bcs | .bne | .beq | .php | .brk | .pha
  | .lda | .ldx | .ldy | .sta | .stx | .sty | .tax | .tay | .txa | .tya | .tsx | .txs
  | .adc | .sbc | .cmp | .cpx | .cpy | .inc | .dec | .inx | .iny | .dex | .dey | .jmp | .jsr
  | .clc | .sec | .cli | .sei | .clv | .cld | .sed | .nop | .undefined => 0

/-- Does the operation write its operand back (R96: stores and read-modify-write)? -/
def writesOperand : Operation → Bool
  | .sta | .stx | .sty | .asl | .rol | .lsr | .ror | .inc | .dec => true
  | .ora | .and | .eor | .bit
  | .bpl | .bmi | .bvc | .bvs | .bcc | .bcs | .bne | .beq | .php | .brk | .pha | .pla | .plp
  | .lda | .ldx | .ldy | .tax | .tay | .txa | .tya | .tsx | .txs
  | .adc | .sbc | .cmp | .cpx | .cpy | .inx | .iny | .dex | .dey | .jmp | .jsr | .rts | .rti
  | .clc | .sec | .cli | .sei | .clv | .cld | .sed | .nop | .undefined => false

/-- Can the operation set `PC` to something other than the next instruction's address (R154)? -/
def transfersControl : Operation → Bool
  | .bpl | .bmi | .bvc | .bvs | .bcc | .bcs | .bne | .beq | .brk | .jmp | .jsr | .rts | .rti => true
  | .ora | .and | .eor | .asl | .rol | .lsr | .ror | .bit | .php | .pha | .pla | .plp
  | .lda | .ldx | .ldy | .sta | .stx | .sty | .tax | .tay | .txa | .tya | .tsx | .txs
  | .adc | .sbc | .cmp | .cpx | .cpy | .inc | .dec | .inx | .iny | .dex | .dey
  | .clc | .sec | .cli | .sei | .clv | .cld | .sed | .nop | .undefined => false

/-- The stack cells that `n` pushes from `sp` write: `0x0100 + ((sp − k) mod 256)` for `k < n` (R160, R165). -/
def pushedCells (sp : Byte) (n : Nat) : List Nat :=
  (List.range n).map fun k => stackAddr (sp - BitVec.ofNat 8 k)

/-- The operand's cell, if the operation writes its operand and the resolver gives a memory operand. -/
def operandCells (i : Instr) (s : State) : List Nat :=
  match writesOperand i.operation, resolve i.operand s with
  | true, .ok (.mem ea, _) => [ea]
  | true, .ok (.none, _) => []
  | true, .ok (.acc, _) => []
  | true, .ok (.imm _, _) => []
  | true, .ok (.rel _, _) => []
  | true, .error _ => []
  | false, _ => []

/-- The cells an instruction can write, from the state in which it executes (`PC` past it). -/
def writtenCells (i : Instr) (s : State) : List Nat :=
  operandCells i s ++ pushedCells s.sp (pushCount i.operation)

end Sys2Proof.Machine
end

