-- ==== Sys2Proof/Machine/Driver.lean ====
section
/-! DEFINITION. The host's view (R30 to R33, R254, R263): booting, and the events a driver performs between ticks on a
core that was never reset, is live, or has faulted. -/

namespace Sys2Proof.Machine

/-- Bytes written at ascending addresses from `base`, stopping at `size`. -/
def Memory.writeImage (m : Memory) (base size : Nat) : List Byte → Memory
  | [] => m
  | v :: rest => if base < size then Memory.writeImage (m.write base v) (base + 1) size rest else m

/-- The launch memory (R44): zero-filled, then a raw image loaded at address 0, truncated or padded to the size. -/
def imageMemory (size : Nat) (image : List Byte) : Memory := Memory.writeImage [] 0 size image

/-- Write bytes into a list of cells, pairwise, as far as both lists go. -/
def Memory.scatter (m : Memory) : List Nat → List Byte → Memory
  | a :: cells, v :: bytes => Memory.scatter (m.write a v) cells bytes
  | _, _ => m

/-- Where a core is in its life (R35, R241). -/
inductive Session where
  /-- The driver has set up memory and not yet called `reset()`; a tick has no meaning (R35). -/
  | neverReset (cfg : Config) (mem : Memory)
  /-- The core was reset and has not faulted since; `ticked` says whether the driver has made its first tick (R36). -/
  | live (ticked : Bool) (s : State)
  /-- A tick faulted: only `reset()` leaves this case, and the cells in `atRisk`, those the faulted instruction could
  write, then hold any value (R241). -/
  | faulted (cfg : Config) (mem : Memory) (atRisk : List Nat)
  deriving DecidableEq, Repr

/-- What a tick reports to the driver (R30): one of the two values, or the fault with its address (R240, D33). -/
inductive TickReport where
  | returned (r : TickResult)
  | addressingFault (addr : Nat)
  deriving DecidableEq, Repr

/-- The cells inside memory that the instruction of the tick from `s` could write (R241). -/
def cellsAtRisk (s : State) : List Nat :=
  match fetch s with
  | .ok (i, t) => (writtenCells i t).filter fun a => decide (a < s.cfg.memSize)
  | .error _ => []

/-- One tick of a session (R30, R35, R240, R241). -/
def Session.tick : Session → Except Refusal (TickReport × Session)
  | .neverReset _ _ => .error .tickBeforeReset
  | .faulted _ _ _ => .error .tickAfterFault
  | .live _ s =>
    match step s with
    | .next t => .ok (.returned (tickResult s), .live true t)
    | .fault (.addressingFault a) => .ok (.addressingFault a, .faulted s.cfg s.mem (cellsAtRisk s))
    | .refused r => .error r

/-- `reset()` at a tick boundary (R31, R260, R261). After a fault, `residue` gives the arbitrary contents of the cells
the faulted instruction could write (R241, U6; log entry 7); it is used nowhere else. -/
def Session.reset (residue : List Byte) : Session → Session
  | .neverReset cfg mem => .live false { State.reset with mem := mem, cfg := cfg }
  | .live ticked s => .live ticked (resetEvent s)
  | .faulted cfg mem atRisk => .live true { State.reset with mem := mem.scatter atRisk residue, cfg := cfg }

/-- The memory of a session after the driver writes one cell. -/
def Session.withCell (addr : Nat) (v : Byte) : Session → Session
  | .neverReset cfg mem => .neverReset cfg (mem.write addr v)
  | .live ticked s => .live ticked (s.withMem (s.mem.write addr v))
  | .faulted cfg mem atRisk => .faulted cfg (mem.write addr v) (atRisk.filter (· ≠ addr))

/-- The parameters of a session. -/
def Session.config : Session → Config
  | .neverReset cfg _ => cfg
  | .live _ s => s.cfg
  | .faulted cfg _ _ => cfg

/-- The driver has not made its first tick, whether or not it has called `reset()`; a core that faulted was ticked. -/
def Session.beforeFirstTick : Session → Bool
  | .neverReset _ _ => true
  | .live ticked _ => !ticked
  | .faulted _ _ _ => false

/-- The driver writes a cell outside a tick: freely before the first tick, later only with `HOST_WRITES_MEMORY`
(R36, R59, R254); only cells that exist (R40). -/
def Session.hostWrite (addr : Nat) (v : Byte) (ss : Session) : Except Refusal Session :=
  if ss.config.memSize ≤ addr then .error .hostWriteOutOfRange
  else if ss.beforeFirstTick || ss.config.hostWritesMemory then .ok (ss.withCell addr v)
  else .error .hostWriteDisabled

/-- What a driver can do between and with ticks (R254). Observing is reading State's fields (R32). -/
inductive DriverEvent where
  | tick
  | reset (residue : List Byte)
  | write (addr : Nat) (v : Byte)
  deriving DecidableEq, Repr

/-- One driver event: the report of a tick, if it was one, and the session after it. -/
def Session.event (e : DriverEvent) (ss : Session) : Except Refusal (Option TickReport × Session) :=
  match e with
  | .tick => do
    let (r, t) ← ss.tick
    return (some r, t)
  | .reset residue => .ok (none, ss.reset residue)
  | .write addr v => do
    let t ← ss.hostWrite addr v
    return (none, t)

/-- What the driver does before the first tick (R263): zero-fill, load the image at 0, call `reset()`. -/
def launch (cfg : Config) (image : List Byte) : State :=
  { State.reset with mem := imageMemory cfg.memSize image, cfg := cfg }

end Sys2Proof.Machine
end

