-- ==== Sys2Proof/Safety.lean ====
section
/-! DEFINITION. What a good state and a safe run are, in the terms the statements use. -/

namespace Sys2Proof.Machine

/-- The invariant of the machine: parameters in the ranges of R3, memory a canonical list inside the array (R40), and
the reserved bit of `P` set (R20). -/
structure State.Inv (s : State) : Prop where
  config : s.cfg.wf = true
  memory : s.mem.wf = true
  inside : s.mem.fits s.cfg.memSize = true
  reserved : s.p.getLsbD 5 = true

/-- The invariant of a session: a live state's, and the same of the memory a faulted or not yet reset core holds. -/
def Session.Inv : Session → Prop
  | .neverReset cfg mem => cfg.wf = true ∧ mem.wf = true ∧ mem.fits cfg.memSize = true
  | .live _ s => s.Inv
  | .faulted cfg mem atRisk =>
    cfg.wf = true ∧ mem.wf = true ∧ mem.fits cfg.memSize = true ∧ ∀ a ∈ atRisk, a < cfg.memSize

/-- What software sees of a state: everything but the cycle counter and the base cycle counts (R112). -/
def State.withoutTiming (s : State) : State :=
  { s with cyc := 0, cfg := { s.cfg with baseCycleChanges := [] } }

/-- An outcome with its next state, if it has one, seen without timing. -/
def outcomeWithoutTiming : Host.Outcome State Fault Refusal → Host.Outcome State Fault Refusal
  | .next t => .next t.withoutTiming
  | .fault f => .fault f
  | .refused r => .refused r

/-- A safe run: `n` ticks from `s`, none of which faults or is refused. -/
def RunsSafely (n : Nat) (s : State) : Prop := ∃ t, Host.Core.run Sys2Proof.core n s = .next t

end Sys2Proof.Machine
end

