-- ==== Sys2Proof/Certificates/Slice0/Obligations.lean ====
section
/-! DEFINITION. The statements about the machine, and the words they share.
A statement about an instruction speaks of `exec`, which runs with `PC` already past the instruction (R15);
`StepRunsDecodedInstruction` carries it to a run. A result that is read from an operand is stated for every operand that
resolves (`resolve`) and can be read (`readOperand`); `ResolverDirectModes` to `ResolverIndirectMode` and `OperandAccess`
say what those two do. Each docstring names the rule; "general knowledge" marks a rule the spec supplies from outside its
source and still numbers as a rule. -/

namespace Sys2Proof.Claims

open Sys2Proof.Machine

/-! ### The words the statements share -/

/-- `CYC` after the fetch tick of opcode `b` with penalties `pen`: base + penalties − 1 (R101). -/
def ticksLeft (s : State) (b : Byte) (pen : Nat) : Nat := s.baseCycles b + pen - 1

/-- Flags written one after the other with the Flag Bank's `set` (R21). -/
def withFlags (p : Byte) (fs : List (Flag × Bool)) : Byte := fs.foldl (fun q e => setFlag q e.1 e.2) p

/-- N and Z of a result (R23). -/
def nz (r : Byte) : List (Flag × Bool) := [(.n, decide (128 ≤ r.toNat)), (.z, decide (r.toNat = 0))]

/-- The opcode table's rows of an operation are exactly `rows`: (opcode byte, mode, base cycle count), none of them
marked undefined. -/
def HasRows (o : Operation) (rows : List (Byte × Mode × Nat)) : Prop :=
  (∀ r ∈ rows, optable r.1 = ⟨o, r.2.1, r.2.2, false⟩) ∧
    ∀ b : Byte, (optable b).operation = o → b ∈ rows.map Prod.fst

/-- The byte `k` places after `PC`, the address reduced modulo 65536. -/
def byteAt (s : State) (k : Nat) : Byte := s.mem.read (s.pc + BitVec.ofNat 16 k).toNat

/-- The `n` cells from `PC` on exist. -/
def BytesExist (s : State) (n : Nat) : Prop := ∀ k < n, (s.pc + BitVec.ofNat 16 k).toNat < s.cfg.memSize

/-- An instruction of mode `m` is `length` bytes long: its fetch moves `PC` past it and changes nothing else, and its
operand then resolves to `result`. -/
def Resolves (m : Mode) (length : Nat) (result : State → Except Stop (Opd × Nat)) : Prop :=
  ∀ s : State, (optable (byteAt s 0)).mode = m → BytesExist s length →
    ∃ i, fetch s = .ok (i, { s with pc := s.pc + BitVec.ofNat 16 length }) ∧
      resolve i.operand { s with pc := s.pc + BitVec.ofNat 16 length } = result s

/-- The penalty of adding an index to a 16-bit base (R94). -/
def crossing (base ea : Nat) : Nat := if ea / 256 % 256 = base / 256 % 256 then 0 else 1

/-- The instruction reads its operand and changes the state by the value, or faults where the operand's read faults. -/
def ReadsAndUpdates (mk : Operand → Instr) (update : State → Byte → State) : Prop :=
  ∀ (m : Operand) (s : State) (b : Byte) (opd : Opd) (pen : Nat),
    opcodeOf (mk m) = some b → resolve m s = .ok (opd, pen) →
      (∀ v, readOperand opd s = .ok v → exec (mk m) s = .next { update s v with cyc := ticksLeft s b pen }) ∧
      ∀ f, readOperand opd s = .error (.fault f) → exec (mk m) s = .fault f

/-- The instruction ends in the fault of the resolver's pointer reads, where one of them faults. -/
def FaultsWithResolver (mk : Operand → Instr) : Prop :=
  ∀ (m : Operand) (s : State) (b : Byte) (f : Fault),
    opcodeOf (mk m) = some b → resolve m s = .error (.fault f) → exec (mk m) s = .fault f

/-- The instruction writes the value of a register to its operand's cell and nothing else, or faults at that cell. -/
def StoresValue (mk : Operand → Instr) (value : State → Byte) : Prop :=
  ∀ (m : Operand) (s : State) (b : Byte) (ea pen : Nat),
    opcodeOf (mk m) = some b → resolve m s = .ok (.mem ea, pen) →
      (ea < s.cfg.memSize →
        exec (mk m) s = .next { s with mem := s.mem.write ea (value s), cyc := ticksLeft s b pen }) ∧
      (s.cfg.memSize ≤ ea → exec (mk m) s = .fault (.addressingFault ea))

/-- The instruction replaces its operand's cell by `result` of the old byte and writes the flags `flags`, or faults at
that cell. -/
def ModifiesCell (mk : Operand → Instr) (result : State → Byte → Byte) (flags : State → Byte → List (Flag × Bool)) :
    Prop :=
  ∀ (m : Operand) (s : State) (b : Byte) (ea pen : Nat),
    opcodeOf (mk m) = some b → resolve m s = .ok (.mem ea, pen) →
      (ea < s.cfg.memSize →
        exec (mk m) s = .next
          { s with mem := s.mem.write ea (result s (s.mem.read ea))
                   p := withFlags s.p (flags s (s.mem.read ea))
                   cyc := ticksLeft s b pen }) ∧
      (s.cfg.memSize ≤ ea → exec (mk m) s = .fault (.addressingFault ea))

/-- The Accumulator form of the same, with opcode `b`. -/
def ModifiesAccumulator (mk : Operand → Instr) (b : Byte) (result : State → Byte → Byte)
    (flags : State → Byte → List (Flag × Bool)) : Prop :=
  ∀ s : State, exec (mk .accumulator) s = .next
    { s with a := result s s.a, p := withFlags s.p (flags s s.a), cyc := ticksLeft s b 0 }

/-- A conditional branch with opcode `b`, taken when flag `f` is `want`: the target is the next instruction's address
plus the signed displacement, modulo 65536; one more tick when taken, and one more when the page changes. -/
def BranchesOn (mk : Operand → Instr) (b : Byte) (f : Flag) (want : Bool) : Prop :=
  ∀ (disp : Byte) (s : State),
    (getFlag s.p f = want → ∀ target : Addr,
      (target.toNat : Int) = ((s.pc.toNat : Int) + disp.toInt) % 65536 →
      exec (mk (.relative disp)) s = .next
        { s with pc := target, cyc := ticksLeft s b (1 + crossing s.pc.toNat target.toNat) }) ∧
    (getFlag s.p f ≠ want → exec (mk (.relative disp)) s = .next { s with cyc := ticksLeft s b 0 })

/-- A one-byte instruction with opcode `b` that changes registers and flags alone. -/
def UpdatesRegisters (i : Instr) (b : Byte) (update : State → State) : Prop :=
  ∀ s : State, exec i s = .next { update s with cyc := ticksLeft s b 0 }

/-- The address past the top of a 65536-cell memory that an instruction reaches, if it does (R107): an indexed effective
address of 0x10000 or more, or the second pointer byte of the Indirect mode. -/
def addressPastTop (m : Operand) (s : State) : Option Nat :=
  let past := fun n : Nat => if 0x10000 ≤ n then some n else none
  match m with
  | .absoluteX base => past (base.toNat + s.x.toNat)
  | .absoluteY base => past (base.toNat + s.y.toNat)
  | .indirectY zp =>
    past ((s.mem.read zp.toNat).toNat + 256 * (s.mem.read ((zp.toNat + 1) % 256)).toNat + s.y.toNat)
  | .indirect ptr => if s.cfg.jmpIndirectPageWrap then none else past (ptr.toNat + 1)
  | .implied | .accumulator | .immediate _ | .zeroPage _ | .zeroPageX _ | .zeroPageY _ | .absolute _
  | .indirectX _ | .relative _ => none

/-- The instruction is an `ADC` or `SBC` met in decimal mode (R202). -/
def Decimal (i : Instr) (s : State) : Prop :=
  (i.operation = .adc ∨ i.operation = .sbc) ∧ getFlag s.p .d = true

/-- `n` pushes in order (R160). -/
def pushAll : List Byte → State → Except Stop State
  | [], s => .ok s
  | v :: vs, s =>
    match push s v with
    | .ok t => pushAll vs t
    | .error e => .error e

/-- Writes in order. -/
def writeAll (m : Memory) (ws : List (Nat × Byte)) : Memory := ws.foldl (fun n w => n.write w.1 w.2) m

/-- Every register the statement does not speak of is unchanged: `A`, `X`, `Y` and the parameters. -/
def SameIndexes (s t : State) : Prop := t.a = s.a ∧ t.x = s.x ∧ t.y = s.y ∧ t.cfg = s.cfg

/-- The stack address of `SP` moved down `k` places: `0x0100 + ((SP − k) mod 256)` (R160, R165). -/
def pushed (s : State) (k : Nat) : Nat := 0x100 + (s.sp.toNat + 256 - k) % 256

/-- The stack address of `SP` moved up `k` places: `0x0100 + ((SP + k) mod 256)` (R161). -/
def pulled (s : State) (k : Nat) : Nat := 0x100 + (s.sp.toNat + k) % 256

/-- The first address of a list of accesses, in the order they are made, whose cell does not exist: the one whose fault
is reported (R245). -/
def firstMissing (s : State) (addrs : List Nat) : Option Nat := addrs.find? fun a => decide (s.cfg.memSize ≤ a)

/-- The cells BRK accesses in memory, in order (R165): three pushes, then the vector pair, low byte first. -/
def brkAccesses (s : State) : List Nat :=
  [pushed s 0, pushed s 1, pushed s 2, s.cfg.brkVector, s.cfg.brkVector + 1]

end Sys2Proof.Claims

open Sys2Proof
open Sys2Proof.Machine
open Sys2Proof.Claims

/-! ### Reset, boot and memory -/

/-- R31, R34, R260. The reset event gives the seven registers their values from every state, also while busy, touches
neither memory nor parameters, and the next tick is a fetch tick at address 0; `State.reset` has the same registers. -/
def Obligations.ResetRegisters : Prop :=
  (∀ s : State, resetEvent s =
    { a := 0#8, x := 0#8, y := 0#8, sp := 0xFF#8, p := 0x20#8, pc := 0#16, cyc := 0, mem := s.mem, cfg := s.cfg }) ∧
  (∀ s : State, step (resetEvent s) = fetchTick (resetEvent s)) ∧
  State.reset = resetEvent State.reset ∧
  (∀ f : Flag, getFlag State.reset.p f = false) ∧ State.reset.p.getLsbD 5 = true

/-- The invariant holds after reset (the reset value of `P` is R34's; the memory form is the model's, log entry 2). -/
def Obligations.InvAtReset : Prop := State.reset.Inv

/-- The launch memory of 20_memory.md section 1 ("cell i holds image byte i … and 0x00 elsewhere") and
70_reset_and_hazards.md section 2: a raw image at address 0, truncated or padded; the launched machine meets the
invariant and has the reset registers. The host column of 10_state.md section 9: the driver may write any existing cell
before its first tick, whether `reset()` was called or not, and later only with `HOST_WRITES_MEMORY`; a write outside the
array is refused (the model's, log entry 14). -/
def Obligations.LaunchMemory : Prop :=
  (∀ (cfg : Config) (image : List Byte), cfg.wf = true →
    (launch cfg image).Inv ∧ resetEvent (launch cfg image) = launch cfg image ∧
    ∀ addr, (launch cfg image).mem.read addr = if addr < cfg.memSize then image.getD addr 0#8 else 0#8) ∧
  (∀ (cfg : Config) (mem : Memory) (addr : Nat) (v : Byte), addr < cfg.memSize →
    ∃ ss, Session.hostWrite addr v (.neverReset cfg mem) = .ok ss ∧
      ∀ residue, ss.reset residue = .live false { State.reset with cfg := cfg, mem := mem.write addr v }) ∧
  (∀ (s : State) (addr : Nat) (v : Byte), addr < s.cfg.memSize →
    Session.hostWrite addr v (.live false s) = .ok (.live false { s with mem := s.mem.write addr v })) ∧
  (∀ (ss tt : Session) (r : TickReport) (addr : Nat) (v : Byte), ss.tick = .ok (r, tt) →
    tt.config.hostWritesMemory = false → ∃ refusal, Session.hostWrite addr v tt = .error refusal) ∧
  (∀ (s : State) (addr : Nat) (v : Byte), addr < s.cfg.memSize → s.cfg.hostWritesMemory = true →
    Session.hostWrite addr v (.live true s) = .ok (.live true { s with mem := s.mem.write addr v }))

/-- R42. A write inside memory changes exactly the one cell; outside it faults with the address. The premise is the
form in which this model lists memory (log entry 2), which `MemoryCanonical` and `StepKeepsInv` say is kept. -/
def Obligations.MemoryWritePort : Prop :=
  ∀ (s : State) (addr : Nat) (v : Byte), s.mem.wf = true →
    (addr < s.cfg.memSize → ∃ m, memWrite s addr v = .ok { s with mem := m } ∧ m.read addr = v ∧
      ∀ other, other ≠ addr → m.read other = s.mem.read other) ∧
    (s.cfg.memSize ≤ addr → memWrite s addr v = .error (.fault (.addressingFault addr)))

/-- 20_memory.md section 1, the memory port and its contract. `MemRead` answers the cell inside memory and faults outside
it (R41, the spec's decision D2); a read returns the last write to its cell, or the cell's initial value, whatever is
written elsewhere (R43). -/
def Obligations.MemoryRoundTrip : Prop :=
  (∀ (s : State) (addr : Nat), memRead s addr =
    if s.cfg.memSize ≤ addr then .error (.fault (.addressingFault addr)) else .ok (s.mem.read addr)) ∧
  ∀ (m : Memory) (addr : Nat) (before after : List (Nat × Byte)), m.wf = true → (∀ w ∈ after, w.1 ≠ addr) →
    (∀ v, (writeAll m (before ++ (addr, v) :: after)).read addr = v) ∧
    (writeAll m after).read addr = m.read addr

/-- The model's memory form (log entry 2, its own choice): two canonical memories that read alike everywhere are the
same list, so equality of states is equality of what software reads; and every write that `MemWrite` makes keeps the
form. -/
def Obligations.MemoryCanonical : Prop :=
  (∀ m n : Memory, m.wf = true → n.wf = true → (∀ addr, m.read addr = n.read addr) → m = n) ∧
  (∀ (s t : State) (addr : Nat) (v : Byte), s.mem.wf = true → memWrite s addr v = .ok t → t.mem.wf = true)

/-! ### The flag bank and the stack unit -/

/-- R21, with the bit positions of R18. `set` writes exactly the named bit, `get` reads exactly that bit. -/
def Obligations.FlagBankContract : Prop :=
  (Flag.n.bit = 7 ∧ Flag.v.bit = 6 ∧ Flag.b.bit = 4 ∧ Flag.d.bit = 3 ∧ Flag.i.bit = 2 ∧ Flag.z.bit = 1 ∧
    Flag.c.bit = 0) ∧
  (∀ (p : Byte) (f : Flag), getFlag p f = p.getLsbD f.bit) ∧
  (∀ (p : Byte) (f : Flag) (v : Bool) (k : Nat), k < 8 →
    (setFlag p f v).getLsbD k = if k = f.bit then v else p.getLsbD k) ∧
  (∀ (p : Byte) (f g : Flag) (v : Bool), getFlag (setFlag p f v) f = v ∧
    (g ≠ f → getFlag (setFlag p f v) g = getFlag p g))

/-- R23. `SetNZ(v)`: N is bit 7 of the result, Z says it is 0, no other bit of `P` changes. -/
def Obligations.SetNZFlags : Prop :=
  ∀ p v : Byte, getFlag (setNZ p v) .n = v.getLsbD 7 ∧ getFlag (setNZ p v) .z = decide (v = 0#8) ∧
    (∀ k < 8, k ≠ 7 → k ≠ 1 → (setNZ p v).getLsbD k = p.getLsbD k) ∧ setNZ p v = withFlags p (nz v)

/-- R160, R161. `Push` writes at `0x0100 + SP` and decrements `SP`; `Pull` increments `SP` and reads there; both modulo
256, both faulting with the cell's address where it does not exist. -/
def Obligations.PushAndPull : Prop :=
  (∀ (s : State) (v : Byte), pushed s 0 < s.cfg.memSize →
    ∃ sp, push s v = .ok { s with mem := s.mem.write (0x100 + s.sp.toNat) v, sp := sp } ∧
      sp.toNat = (s.sp.toNat + 255) % 256) ∧
  (∀ (s : State) (v : Byte), s.cfg.memSize ≤ pushed s 0 →
    push s v = .error (.fault (.addressingFault (0x100 + s.sp.toNat)))) ∧
  (∀ s : State, pulled s 1 < s.cfg.memSize →
    ∃ sp, pull s = .ok (s.mem.read (0x100 + sp.toNat), { s with sp := sp }) ∧
      sp.toNat = (s.sp.toNat + 1) % 256) ∧
  (∀ s : State, s.cfg.memSize ≤ pulled s 1 → pull s = .error (.fault (.addressingFault (pulled s 1))))

/-- The spec's inference of 46_stack_and_brk.md section 1 ("256 pushes in a row from any `SP` return `SP` to its starting
value and overwrite every cell of the stack page once"), and that a pull undoes a push. -/
def Obligations.StackRoundTrip : Prop :=
  (∀ (s : State) (v : Byte), s.mem.wf = true → pushed s 0 < s.cfg.memSize →
    ∃ t, push s v = .ok t ∧ pull t = .ok (v, { s with mem := t.mem })) ∧
  (∀ (s : State) (vs : List Byte), s.mem.wf = true → 0x200 ≤ s.cfg.memSize → vs.length = 256 →
    ∃ m, pushAll vs s = .ok { s with mem := m } ∧
      (∀ k < 256, m.read (pushed s k) = vs.getD k 0#8) ∧
      ∀ addr, addr < 0x100 ∨ 0x200 ≤ addr → m.read addr = s.mem.read addr)

/-! ### Encoding -/

/-- Words written out bit by bit from the spec's encodings decode to what they stand for: ORA Immediate is `0x09` (R67),
the rest from 30_encoding.md section 3; the low byte of a 16-bit operand comes first. -/
def Obligations.SampleDecodings : Prop :=
  decode [0b00001001#8, 0b00000000#8] = .ok (.ora (.immediate 0x00#8), []) ∧
  decode [0b00000010#8] = .ok (.undefined 0x02#8, []) ∧
  decode [0b00001101#8, 0b00110100#8, 0b00010010#8] = .ok (.ora (.absolute 0x1234#16), []) ∧
  decode [0b00001010#8, 0b11101010#8] = .ok (.asl .accumulator, [0xEA#8]) ∧
  decode [0b00010000#8, 0b11111110#8] = .ok (.bpl (.relative 0xFE#8), []) ∧
  decode [0b10010001#8, 0b00100000#8] = .ok (.sta (.indirectY 0x20#8), []) ∧
  decode [0b01101100#8, 0b11111111#8, 0b00010010#8] = .ok (.jmp (.indirect 0x12FF#16), []) ∧
  decode [0b01000000#8] = .ok (.rti, []) ∧
  decode [0b00100000#8, 0b00010000#8] = .error .operandMissing ∧ decode [] = .error .noOpcode

/-- 30_encoding.md sections 3 and 4: every byte has an entry and decodes, given the operand bytes its mode takes (R66);
`IsUndefined` is true for exactly the listed bytes, 105 in number, and false for NOP (R70); the listed bytes (R69, the
spec's decision D8) have the entry of the Undefined operation (the spec's decision D7). -/
def Obligations.OpcodeTableTotal : Prop :=
  (∀ b first second : Byte, ∃ i rest, decode [b, first, second] = .ok (i, rest) ∧ i.wf = true ∧
    rest.length + 1 + (optable b).mode.operandBytes = 3) ∧
  (∀ b : Byte, isUndefined b = true ↔ b ∈ undefinedOpcodes) ∧
  (∀ b : Byte, isUndefined b = true → optable b = ⟨.undefined, .implied, 2, true⟩) ∧
  (∀ b : Byte, isUndefined b = false → (optable b).operation ≠ .undefined) ∧
  (undefinedOpcodes.Nodup ∧ undefinedOpcodes.length = 105) ∧ isUndefined 0xEA#8 = false

/-- Decode and encode agree: every well-formed instruction, with every operand its encoding admits, comes back from its
bytes, whatever follows them, and is as long as its mode says. -/
def Obligations.DecodeEncode : Prop :=
  ∀ (i : Instr) (rest : List Byte), i.wf = true →
    decode (encode i ++ rest) = .ok (i, rest) ∧ (encode i).length = 1 + i.operand.mode.operandBytes

/-- The other direction: whatever decodes is well formed and its encoding is the bytes it was read from, so every word
has one meaning. -/
def Obligations.EncodeDecode : Prop :=
  ∀ (bytes rest : List Byte) (i : Instr), decode bytes = .ok (i, rest) → i.wf = true ∧ encode i ++ rest = bytes

/-! ### The resolver and operand access -/

/-- R81 to R87, R92. The modes that read no pointer and add no index to a 16-bit base: their length, the operand they
resolve to, and no penalty. Zero-page indexing wraps modulo 256. -/
def Obligations.ResolverDirectModes : Prop :=
  Resolves .implied 1 (fun _ => .ok (.none, 0)) ∧
  Resolves .accumulator 1 (fun _ => .ok (.acc, 0)) ∧
  Resolves .immediate 2 (fun s => .ok (.imm (byteAt s 1), 0)) ∧
  Resolves .zeroPage 2 (fun s => .ok (.mem (byteAt s 1).toNat, 0)) ∧
  Resolves .zeroPageX 2 (fun s => .ok (.mem (((byteAt s 1).toNat + s.x.toNat) % 256), 0)) ∧
  Resolves .zeroPageY 2 (fun s => .ok (.mem (((byteAt s 1).toNat + s.y.toNat) % 256), 0)) ∧
  Resolves .absolute 3 (fun s => .ok (.mem (256 * (byteAt s 2).toNat + (byteAt s 1).toNat), 0)) ∧
  Resolves .relative 2 (fun s => .ok (.rel (byteAt s 1).toInt, 0))

/-- R88, R89. AbsoluteX and AbsoluteY: base plus index, not reduced, with the page-crossing penalty. -/
def Obligations.ResolverIndexedModes : Prop :=
  Resolves .absoluteX 3 (fun s =>
    let base := 256 * (byteAt s 2).toNat + (byteAt s 1).toNat
    .ok (.mem (base + s.x.toNat), crossing base (base + s.x.toNat))) ∧
  Resolves .absoluteY 3 (fun s =>
    let base := 256 * (byteAt s 2).toNat + (byteAt s 1).toNat
    .ok (.mem (base + s.y.toNat), crossing base (base + s.y.toNat)))

/-- R90, R91. IndirectX and IndirectY: the little-endian pair at a zero-page pointer whose successor wraps modulo 256;
IndirectX adds X to the pointer, IndirectY adds Y to the pair, not reduced, with the page-crossing penalty. A pointer
read outside memory faults, the low byte's first. -/
def Obligations.ResolverPointerModes : Prop :=
  Resolves .indirectX 2 (fun s =>
    let ptr := ((byteAt s 1).toNat + s.x.toNat) % 256
    if s.cfg.memSize ≤ ptr then .error (.fault (.addressingFault ptr))
    else if s.cfg.memSize ≤ (ptr + 1) % 256 then .error (.fault (.addressingFault ((ptr + 1) % 256)))
    else .ok (.mem (256 * (s.mem.read ((ptr + 1) % 256)).toNat + (s.mem.read ptr).toNat), 0)) ∧
  Resolves .indirectY 2 (fun s =>
    let ptr := (byteAt s 1).toNat
    if s.cfg.memSize ≤ ptr then .error (.fault (.addressingFault ptr))
    else if s.cfg.memSize ≤ (ptr + 1) % 256 then .error (.fault (.addressingFault ((ptr + 1) % 256)))
    else
      let base := 256 * (s.mem.read ((ptr + 1) % 256)).toNat + (s.mem.read ptr).toNat
      .ok (.mem (base + s.y.toNat), crossing base (base + s.y.toNat)))

/-- The Indirect mode of 40_addressing_modes.md section 2, "Indirect", which the spec supplies from general knowledge
and decides in D5 and D6: the pair at a 16-bit pointer; where the pointer's low byte is 0xFF, the parameter
`JMP_INDIRECT_PAGE_WRAP` says where the high byte is read. -/
def Obligations.ResolverIndirectMode : Prop :=
  Resolves .indirect 3 (fun s =>
    let lo := (byteAt s 1).toNat
    let hi := (byteAt s 2).toNat
    let high := if s.cfg.jmpIndirectPageWrap then 256 * hi + (lo + 1) % 256 else 256 * hi + lo + 1
    if s.cfg.memSize ≤ 256 * hi + lo then .error (.fault (.addressingFault (256 * hi + lo)))
    else if s.cfg.memSize ≤ high then .error (.fault (.addressingFault high))
    else .ok (.mem (256 * (s.mem.read high).toNat + (s.mem.read (256 * hi + lo)).toNat), 0))

/-- 40_addressing_modes.md section 3, the spec's decision D10: "A crossing is exactly the condition
`lo8(base) + index ≥ 256`", also where the sum passes 0xFFFF. -/
def Obligations.PageCrossing : Prop :=
  ∀ (base : Addr) (index : Byte), (indexed base index).1 = .mem (base.toNat + index.toNat) ∧
    (indexed base index).2 = (if 256 ≤ base.toNat % 256 + index.toNat then 1 else 0)

/-- R95, R96. `ReadOperand` and `WriteOperand` on the descriptors they are defined for. -/
def Obligations.OperandAccess : Prop :=
  ∀ (s : State) (v : Byte) (ea : Nat),
    readOperand .acc s = .ok s.a ∧ readOperand (.imm v) s = .ok v ∧
    readOperand (.mem ea) s =
      (if s.cfg.memSize ≤ ea then .error (.fault (.addressingFault ea)) else .ok (s.mem.read ea)) ∧
    writeOperand .acc v s = .ok { s with a := v } ∧
    writeOperand (.mem ea) v s =
      (if s.cfg.memSize ≤ ea then .error (.fault (.addressingFault ea))
       else .ok { s with mem := s.mem.write ea v })

/-! ### The engine -/

/-- The step is `tick()` (41_execution_engine.md section 1). While `CYC` is above 0 it counts down; otherwise, when the
bytes at `PC` decode to an instruction and its cells exist, the step is that instruction's `exec` with `PC` past it,
modulo 65536. -/
def Obligations.StepRunsDecodedInstruction : Prop :=
  (∀ s : State, 0 < s.cyc → step s = .next { s with cyc := s.cyc - 1 }) ∧
  (∀ (s : State) (i : Instr) (rest : List Byte), s.cyc = 0 →
    decode [byteAt s 0, byteAt s 1, byteAt s 2] = .ok (i, rest) → BytesExist s (3 - rest.length) →
    step s = exec i { s with pc := s.pc + BitVec.ofNat 16 (3 - rest.length) })

/-- 20_memory.md section 6 and 60_exceptions.md section 1: the instruction's bytes are read at ascending addresses and
the first that does not exist is the fault reported. -/
def Obligations.FetchFaults : Prop :=
  ∀ s : State, s.cyc = 0 →
    (¬ BytesExist s 1 → step s = .fault (.addressingFault s.pc.toNat)) ∧
    (BytesExist s 1 → 1 ≤ (optable (byteAt s 0)).mode.operandBytes → ¬ BytesExist s 2 →
      step s = .fault (.addressingFault (s.pc + 1#16).toNat)) ∧
    (BytesExist s 2 → (optable (byteAt s 0)).mode.operandBytes = 2 → ¬ BytesExist s 3 →
      step s = .fault (.addressingFault (s.pc + 2#16).toNat))

/-- R102, R104. An instruction of n ticks gives `Completed` on its fetch tick, then n − 1 times `InProgress` with
nothing but `CYC` changing, and `Completed` again on the next fetch. -/
def Obligations.TickResultSequence : Prop :=
  ∀ s t : State, s.cyc = 0 → step s = .next t →
    tickResult s = .completed ∧
    (∀ k ≤ t.cyc, Host.Core.run Sys2Proof.core k t = .next { t with cyc := t.cyc - k }) ∧
    (∀ k < t.cyc, tickResult { t with cyc := t.cyc - k } = .inProgress) ∧
    tickResult { t with cyc := 0 } = .completed

/-- 10_state.md section 5 and 41_execution_engine.md section 1, with the table's own base cycle counts (general
knowledge): every fetch tick leaves the engine busy, and `CYC` never exceeds 7. -/
def Obligations.CycleBound : Prop :=
  ∀ s t : State, s.cfg.baseCycleChanges = [] → step s = .next t →
    (s.cyc = 0 → 1 ≤ t.cyc ∧ t.cyc ≤ 7) ∧ (s.cyc ≤ 7 → t.cyc ≤ 7)

/-! ### Results of the instructions -/

/-- R120 to R122. ORA, AND, EOR: the accumulator becomes accumulator OP operand, N and Z from the result. -/
def Obligations.LogicalOperations : Prop :=
  HasRows .ora [(0x09, .immediate, 2), (0x05, .zeroPage, 3), (0x15, .zeroPageX, 4), (0x0D, .absolute, 4),
    (0x1D, .absoluteX, 4), (0x19, .absoluteY, 4), (0x01, .indirectX, 6), (0x11, .indirectY, 5)] ∧
  HasRows .and [(0x29, .immediate, 2), (0x25, .zeroPage, 3), (0x35, .zeroPageX, 4), (0x2D, .absolute, 4),
    (0x3D, .absoluteX, 4), (0x39, .absoluteY, 4), (0x21, .indirectX, 6), (0x31, .indirectY, 5)] ∧
  HasRows .eor [(0x49, .immediate, 2), (0x45, .zeroPage, 3), (0x55, .zeroPageX, 4), (0x4D, .absolute, 4),
    (0x5D, .absoluteX, 4), (0x59, .absoluteY, 4), (0x41, .indirectX, 6), (0x51, .indirectY, 5)] ∧
  ReadsAndUpdates .ora (fun s v => { s with a := s.a ||| v, p := withFlags s.p (nz (s.a ||| v)) }) ∧
  ReadsAndUpdates .and (fun s v => { s with a := s.a &&& v, p := withFlags s.p (nz (s.a &&& v)) }) ∧
  ReadsAndUpdates .eor (fun s v => { s with a := s.a ^^^ v, p := withFlags s.p (nz (s.a ^^^ v)) }) ∧
  FaultsWithResolver .ora ∧ FaultsWithResolver .and ∧ FaultsWithResolver .eor

/-- R130 to R133. ASL, ROL, LSR, ROR on the accumulator or a memory cell, in numbers: the carry is the bit shifted out,
the rotates take the previous carry in; N and Z from the result. In memory form `A` is not changed. -/
def Obligations.ShiftsAndRotates : Prop :=
  let carryLeft := fun v : Byte => (Flag.c, decide (128 ≤ v.toNat))
  let carryRight := fun v : Byte => (Flag.c, decide (v.toNat % 2 = 1))
  let asl := fun (_ : State) (v : Byte) => BitVec.ofNat 8 (2 * v.toNat)
  let rol := fun (s : State) (v : Byte) => BitVec.ofNat 8 (2 * v.toNat + (getFlag s.p .c).toNat)
  let lsr := fun (_ : State) (v : Byte) => BitVec.ofNat 8 (v.toNat / 2)
  let ror := fun (s : State) (v : Byte) => BitVec.ofNat 8 (v.toNat / 2 + 128 * (getFlag s.p .c).toNat)
  HasRows .asl [(0x0A, .accumulator, 2), (0x06, .zeroPage, 5), (0x16, .zeroPageX, 6), (0x0E, .absolute, 6),
    (0x1E, .absoluteX, 7)] ∧
  HasRows .rol [(0x2A, .accumulator, 2), (0x26, .zeroPage, 5), (0x36, .zeroPageX, 6), (0x2E, .absolute, 6),
    (0x3E, .absoluteX, 7)] ∧
  HasRows .lsr [(0x4A, .accumulator, 2), (0x46, .zeroPage, 5), (0x56, .zeroPageX, 6), (0x4E, .absolute, 6),
    (0x5E, .absoluteX, 7)] ∧
  HasRows .ror [(0x6A, .accumulator, 2), (0x66, .zeroPage, 5), (0x76, .zeroPageX, 6), (0x6E, .absolute, 6),
    (0x7E, .absoluteX, 7)] ∧
  ModifiesAccumulator .asl 0x0A#8 asl (fun s v => carryLeft v :: nz (asl s v)) ∧
  ModifiesAccumulator .rol 0x2A#8 rol (fun s v => carryLeft v :: nz (rol s v)) ∧
  ModifiesAccumulator .lsr 0x4A#8 lsr (fun s v => carryRight v :: nz (lsr s v)) ∧
  ModifiesAccumulator .ror 0x6A#8 ror (fun s v => carryRight v :: nz (ror s v)) ∧
  ModifiesCell .asl asl (fun s v => carryLeft v :: nz (asl s v)) ∧
  ModifiesCell .rol rol (fun s v => carryLeft v :: nz (rol s v)) ∧
  ModifiesCell .lsr lsr (fun s v => carryRight v :: nz (lsr s v)) ∧
  ModifiesCell .ror ror (fun s v => carryRight v :: nz (ror s v))

/-- R140. BIT: Z from accumulator AND operand, N and V are bits 7 and 6 of the operand; no register is written. -/
def Obligations.BitTest : Prop :=
  HasRows .bit [(0x24, .zeroPage, 3), (0x2C, .absolute, 4)] ∧
  ReadsAndUpdates .bit (fun s v =>
    let flags := [(Flag.z, decide ((s.a &&& v).toNat = 0)), (Flag.n, decide (128 ≤ v.toNat)),
      (Flag.v, decide (64 ≤ v.toNat % 128))]
    { s with p := withFlags s.p flags })

/-- 45_branches.md, the branch operation and the eight conditions. The mechanism is the document's; the flag and
polarity of each branch, the costs and the wrap of the target are the spec's decisions D3, D11, D32. -/
def Obligations.ConditionalBranches : Prop :=
  (HasRows .bpl [(0x10, .relative, 2)] ∧ BranchesOn .bpl 0x10#8 .n false) ∧
  (HasRows .bmi [(0x30, .relative, 2)] ∧ BranchesOn .bmi 0x30#8 .n true) ∧
  (HasRows .bvc [(0x50, .relative, 2)] ∧ BranchesOn .bvc 0x50#8 .v false) ∧
  (HasRows .bvs [(0x70, .relative, 2)] ∧ BranchesOn .bvs 0x70#8 .v true) ∧
  (HasRows .bcc [(0x90, .relative, 2)] ∧ BranchesOn .bcc 0x90#8 .c false) ∧
  (HasRows .bcs [(0xB0, .relative, 2)] ∧ BranchesOn .bcs 0xB0#8 .c true) ∧
  (HasRows .bne [(0xD0, .relative, 2)] ∧ BranchesOn .bne 0xD0#8 .z false) ∧
  (HasRows .beq [(0xF0, .relative, 2)] ∧ BranchesOn .beq 0xF0#8 .z true)

/-- R169, R170 (general knowledge). PHA pushes A; PLA pulls A and sets N and Z; a stack cell that does not exist faults. -/
def Obligations.PushAndPullAccumulator : Prop :=
  HasRows .pha [(0x48, .implied, 3)] ∧ HasRows .pla [(0x68, .implied, 4)] ∧
  (∀ s : State, exec .pha s =
    if s.cfg.memSize ≤ pushed s 0 then .fault (.addressingFault (pushed s 0))
    else .next { s with mem := s.mem.write (pushed s 0) s.a, sp := s.sp - 1#8, cyc := ticksLeft s 0x48#8 0 }) ∧
  (∀ s : State, exec .pla s =
    if s.cfg.memSize ≤ pulled s 1 then .fault (.addressingFault (pulled s 1))
    else .next { s with a := s.mem.read (pulled s 1), sp := s.sp + 1#8
                        p := withFlags s.p (nz (s.mem.read (pulled s 1))), cyc := ticksLeft s 0x68#8 0 })

/-- 46_stack_and_brk.md sections 2 and 3 with the spec's decisions D15 and D16: PHP pushes `P` as it stands, bit 4 the
stored B; PLP loads the pulled byte with bit 5 forced to 1, B among the loaded flags. -/
def Obligations.PushAndPullStatus : Prop :=
  HasRows .php [(0x08, .implied, 3)] ∧ HasRows .plp [(0x28, .implied, 4)] ∧
  (∀ s : State, exec .php s =
    if s.cfg.memSize ≤ pushed s 0 then .fault (.addressingFault (pushed s 0))
    else .next { s with mem := s.mem.write (pushed s 0) s.p, sp := s.sp - 1#8, cyc := ticksLeft s 0x08#8 0 }) ∧
  (∀ s : State, s.cfg.memSize ≤ pulled s 1 → exec .plp s = .fault (.addressingFault (pulled s 1))) ∧
  (∀ s : State, pulled s 1 < s.cfg.memSize → ∃ p, exec .plp s =
      .next { s with p := p, sp := s.sp + 1#8, cyc := ticksLeft s 0x28#8 0 } ∧ p.getLsbD 5 = true ∧
      ∀ f, getFlag p f = (s.mem.read (pulled s 1)).getLsbD f.bit)

/-- 46_stack_and_brk.md, BRK, with the spec's decisions D12 to D15: B is set, `PC` high, `PC` low and the status with B
are pushed to descending stack cells, `SP` decreases by 3, `PC` is the little-endian pair at the vector; nothing else
changes, I included. "The accesses are made in the order written; the first that faults ends the tick": where one of the
five cells does not exist, the first of them is the fault. -/
def Obligations.BrkEntry : Prop :=
  HasRows .brk [(0x00, .implied, 7)] ∧
  (∀ s : State, s.mem.wf = true → (∀ k < 3, pushed s k < s.cfg.memSize) → s.cfg.brkVector + 1 < s.cfg.memSize →
    ∃ t, exec .brk s = .next t ∧
      t.mem.read (pushed s 0) = hi8 s.pc ∧ t.mem.read (pushed s 1) = lo8 s.pc ∧
      t.mem.read (pushed s 2) = setFlag s.p .b true ∧
      (∀ addr, (∀ k < 3, addr ≠ pushed s k) → t.mem.read addr = s.mem.read addr) ∧
      t.sp.toNat = (s.sp.toNat + 253) % 256 ∧ t.p = setFlag s.p .b true ∧
      t.pc.toNat = 256 * (t.mem.read (s.cfg.brkVector + 1)).toNat + (t.mem.read s.cfg.brkVector).toNat ∧
      SameIndexes s t ∧ t.cyc = ticksLeft s 0x00#8 0) ∧
  ∀ (s : State) (addr : Nat), firstMissing s (brkAccesses s) = some addr → exec .brk s = .fault (.addressingFault addr)

/-- 60_exceptions.md sections 2 and 3. Trap entry as a step: the fetch tick of a BRK byte does the whole entry with the
address of the byte after the opcode as the saved `PC`, and 6 countdown ticks follow under the table's counts (R246);
"`BRK` that faults on a push or on the vector read has the fault outcome" (R245, the spec's decision D19), the first
missing cell's. -/
def Obligations.BrkTrapStep : Prop :=
  (∀ s : State, s.mem.wf = true → s.cyc = 0 → s.pc.toNat < s.cfg.memSize → byteAt s 0 = 0x00#8 →
    (∀ k < 3, pushed s k < s.cfg.memSize) → s.cfg.brkVector + 1 < s.cfg.memSize →
    ∃ t, step s = .next t ∧
      256 * (t.mem.read (pushed s 0)).toNat + (t.mem.read (pushed s 1)).toNat = (s.pc.toNat + 1) % 65536 ∧
      t.mem.read (pushed s 2) = t.p ∧ getFlag t.p .b = true ∧ (∀ f, f ≠ .b → getFlag t.p f = getFlag s.p f) ∧
      (∀ addr, (∀ k < 3, addr ≠ pushed s k) → t.mem.read addr = s.mem.read addr) ∧
      t.sp.toNat = (s.sp.toNat + 253) % 256 ∧
      t.pc.toNat = 256 * (t.mem.read (s.cfg.brkVector + 1)).toNat + (t.mem.read s.cfg.brkVector).toNat ∧
      SameIndexes s t ∧ (s.cfg.baseCycleChanges = [] → t.cyc = 6)) ∧
  ∀ (s : State) (addr : Nat), s.cyc = 0 → s.pc.toNat < s.cfg.memSize → byteAt s 0 = 0x00#8 →
    firstMissing s (brkAccesses s) = some addr → step s = .fault (.addressingFault addr)

/-- R180 to R182 (general knowledge). LDA, LDX, LDY: the register becomes the operand, N and Z from it. -/
def Obligations.Loads : Prop :=
  HasRows .lda [(0xA9, .immediate, 2), (0xA5, .zeroPage, 3), (0xB5, .zeroPageX, 4), (0xAD, .absolute, 4),
    (0xBD, .absoluteX, 4), (0xB9, .absoluteY, 4), (0xA1, .indirectX, 6), (0xB1, .indirectY, 5)] ∧
  HasRows .ldx [(0xA2, .immediate, 2), (0xA6, .zeroPage, 3), (0xB6, .zeroPageY, 4), (0xAE, .absolute, 4),
    (0xBE, .absoluteY, 4)] ∧
  HasRows .ldy [(0xA0, .immediate, 2), (0xA4, .zeroPage, 3), (0xB4, .zeroPageX, 4), (0xAC, .absolute, 4),
    (0xBC, .absoluteX, 4)] ∧
  ReadsAndUpdates .lda (fun s v => { s with a := v, p := withFlags s.p (nz v) }) ∧
  ReadsAndUpdates .ldx (fun s v => { s with x := v, p := withFlags s.p (nz v) }) ∧
  ReadsAndUpdates .ldy (fun s v => { s with y := v, p := withFlags s.p (nz v) }) ∧
  FaultsWithResolver .lda

/-- R183 to R185 (general knowledge). STA, STX, STY: the operand's cell becomes the register; no flag, no register. -/
def Obligations.Stores : Prop :=
  HasRows .sta [(0x85, .zeroPage, 3), (0x95, .zeroPageX, 4), (0x8D, .absolute, 4), (0x9D, .absoluteX, 5),
    (0x99, .absoluteY, 5), (0x81, .indirectX, 6), (0x91, .indirectY, 6)] ∧
  HasRows .stx [(0x86, .zeroPage, 3), (0x96, .zeroPageY, 4), (0x8E, .absolute, 4)] ∧
  HasRows .sty [(0x84, .zeroPage, 3), (0x94, .zeroPageX, 4), (0x8C, .absolute, 4)] ∧
  StoresValue .sta State.a ∧ StoresValue .stx State.x ∧ StoresValue .sty State.y ∧ FaultsWithResolver .sta

/-- The spec's inference of 20_memory.md section 5 ("a store is seen by every later instruction fetch with no fence or
cache operation"): a byte stored by STA, STX or STY is the byte a fetch at that address reads next. -/
def Obligations.StoreSeenByFetch : Prop :=
  ∀ (i : Instr) (m : Operand) (s t : State) (ea pen : Nat), s.mem.wf = true →
    i = .sta m ∨ i = .stx m ∨ i = .sty m → resolve m s = .ok (.mem ea, pen) → exec i s = .next t →
    ∀ pc : Addr, pc.toNat = ea →
      fetch8 { t with pc := pc } =
        .ok (if i = .sta m then s.a else if i = .stx m then s.x else s.y, { t with pc := pc + 1#16 })

/-- R186 to R191 (general knowledge). The six transfers; TXS alone writes no flag. -/
def Obligations.Transfers : Prop :=
  (HasRows .tax [(0xAA, .implied, 2)] ∧ HasRows .tay [(0xA8, .implied, 2)] ∧ HasRows .txa [(0x8A, .implied, 2)] ∧
    HasRows .tya [(0x98, .implied, 2)] ∧ HasRows .tsx [(0xBA, .implied, 2)] ∧ HasRows .txs [(0x9A, .implied, 2)]) ∧
  UpdatesRegisters .tax 0xAA#8 (fun s => { s with x := s.a, p := withFlags s.p (nz s.a) }) ∧
  UpdatesRegisters .tay 0xA8#8 (fun s => { s with y := s.a, p := withFlags s.p (nz s.a) }) ∧
  UpdatesRegisters .txa 0x8A#8 (fun s => { s with a := s.x, p := withFlags s.p (nz s.x) }) ∧
  UpdatesRegisters .tya 0x98#8 (fun s => { s with a := s.y, p := withFlags s.p (nz s.y) }) ∧
  UpdatesRegisters .tsx 0xBA#8 (fun s => { s with x := s.sp, p := withFlags s.p (nz s.sp) }) ∧
  UpdatesRegisters .txs 0x9A#8 (fun s => { s with sp := s.x })

/-- 48_ext_arithmetic.md section 1, ADC (R200, general knowledge): with D = 0 the natural sum of A, operand and carry; C
its carry out, V by the rule's formula, N and Z from the result. With D = 1 it is refused (the spec's decision D18), after
the operand's read: that a fault of that read goes before the refusal is the model's (log entry 9, DEDUCED). -/
def Obligations.AddWithCarry : Prop :=
  HasRows .adc [(0x69, .immediate, 2), (0x65, .zeroPage, 3), (0x75, .zeroPageX, 4), (0x6D, .absolute, 4),
    (0x7D, .absoluteX, 4), (0x79, .absoluteY, 4), (0x61, .indirectX, 6), (0x71, .indirectY, 5)] ∧
  (∀ (m : Operand) (s : State) (b : Byte) (opd : Opd) (pen : Nat) (v : Byte),
    opcodeOf (.adc m) = some b → resolve m s = .ok (opd, pen) → readOperand opd s = .ok v → getFlag s.p .d = false →
      let sum := s.a.toNat + v.toNat + (getFlag s.p .c).toNat
      let r : Byte := BitVec.ofNat 8 (sum % 256)
      exec (.adc m) s = .next
        { s with a := r
                 p := withFlags s.p ((.c, decide (255 < sum)) ::
                   (.v, decide ((s.a ^^^ r) &&& (v ^^^ r) &&& 0x80#8 ≠ 0#8)) :: nz r)
                 cyc := ticksLeft s b pen }) ∧
  (∀ (m : Operand) (s : State) (b : Byte) (opd : Opd) (pen : Nat) (v : Byte),
    opcodeOf (.adc m) = some b → resolve m s = .ok (opd, pen) → readOperand opd s = .ok v → getFlag s.p .d = true →
      exec (.adc m) s = .refused .decimalMode) ∧
  (∀ (m : Operand) (s : State) (b : Byte) (opd : Opd) (pen : Nat) (f : Fault),
    opcodeOf (.adc m) = some b → resolve m s = .ok (opd, pen) → readOperand opd s = .error (.fault f) →
      exec (.adc m) s = .fault f) ∧
  FaultsWithResolver .adc

/-- 48_ext_arithmetic.md section 1, SBC (R201, general knowledge): with D = 0 the natural sum of A, the operand's
complement and the carry; C = 1 means no borrow. With D = 1 it is refused (the spec's decision D18), after the operand's
read: that a fault of that read goes before the refusal is the model's (log entry 9, DEDUCED). -/
def Obligations.SubtractWithBorrow : Prop :=
  HasRows .sbc [(0xE9, .immediate, 2), (0xE5, .zeroPage, 3), (0xF5, .zeroPageX, 4), (0xED, .absolute, 4),
    (0xFD, .absoluteX, 4), (0xF9, .absoluteY, 4), (0xE1, .indirectX, 6), (0xF1, .indirectY, 5)] ∧
  (∀ (m : Operand) (s : State) (b : Byte) (opd : Opd) (pen : Nat) (v : Byte),
    opcodeOf (.sbc m) = some b → resolve m s = .ok (opd, pen) → readOperand opd s = .ok v → getFlag s.p .d = false →
      let sum := s.a.toNat + (255 - v.toNat) + (getFlag s.p .c).toNat
      let r : Byte := BitVec.ofNat 8 (sum % 256)
      exec (.sbc m) s = .next
        { s with a := r
                 p := withFlags s.p ((.c, decide (255 < sum)) ::
                   (.v, decide ((s.a ^^^ r) &&& (v ^^^ 0xFF#8 ^^^ r) &&& 0x80#8 ≠ 0#8)) :: nz r)
                 cyc := ticksLeft s b pen }) ∧
  (∀ (m : Operand) (s : State) (b : Byte) (opd : Opd) (pen : Nat) (v : Byte),
    opcodeOf (.sbc m) = some b → resolve m s = .ok (opd, pen) → readOperand opd s = .ok v → getFlag s.p .d = true →
      exec (.sbc m) s = .refused .decimalMode) ∧
  (∀ (m : Operand) (s : State) (b : Byte) (opd : Opd) (pen : Nat) (f : Fault),
    opcodeOf (.sbc m) = some b → resolve m s = .ok (opd, pen) → readOperand opd s = .error (.fault f) →
      exec (.sbc m) s = .fault f) ∧
  FaultsWithResolver .sbc

/-- The spec's inference of 48_ext_arithmetic.md section 4 ("For `ADC`: `A + M + C_in = 256·C_out + r` exactly. For
`SBC`: `A − M − (1 − C_in) = r − 256·(1 − C_out)` exactly", "V reports the two's-complement signed overflow"). -/
def Obligations.ExactArithmetic : Prop :=
  ∀ (a m : Byte) (c : Bool),
    (a.toNat + m.toNat + c.toNat =
      256 * (addWithCarry a m c).carry.toNat + (addWithCarry a m c).result.toNat) ∧
    ((a.toNat : Int) - m.toNat - (1 - c.toNat) =
      (subWithBorrow a m c).result.toNat - 256 * (1 - (subWithBorrow a m c).carry.toNat)) ∧
    ((addWithCarry a m c).overflow = true ↔
      a.toInt + m.toInt + c.toNat < -128 ∨ 127 < a.toInt + m.toInt + c.toNat) ∧
    ((subWithBorrow a m c).overflow = true ↔
      a.toInt - m.toInt - (1 - c.toNat) < -128 ∨ 127 < a.toInt - m.toInt - (1 - c.toNat))

/-- R203 to R205 (general knowledge). CMP, CPX, CPY: C says register ≥ operand (unsigned), Z that they are equal, N is
bit 7 of the difference modulo 256; no register is written and D is not read. -/
def Obligations.Compares : Prop :=
  let flags := fun r m : Byte => [(Flag.c, decide (m.toNat ≤ r.toNat)),
    (Flag.n, decide (128 ≤ (r.toNat + 256 - m.toNat) % 256)), (Flag.z, decide (r.toNat = m.toNat))]
  HasRows .cmp [(0xC9, .immediate, 2), (0xC5, .zeroPage, 3), (0xD5, .zeroPageX, 4), (0xCD, .absolute, 4),
    (0xDD, .absoluteX, 4), (0xD9, .absoluteY, 4), (0xC1, .indirectX, 6), (0xD1, .indirectY, 5)] ∧
  HasRows .cpx [(0xE0, .immediate, 2), (0xE4, .zeroPage, 3), (0xEC, .absolute, 4)] ∧
  HasRows .cpy [(0xC0, .immediate, 2), (0xC4, .zeroPage, 3), (0xCC, .absolute, 4)] ∧
  ReadsAndUpdates .cmp (fun s v => { s with p := withFlags s.p (flags s.a v) }) ∧
  ReadsAndUpdates .cpx (fun s v => { s with p := withFlags s.p (flags s.x v) }) ∧
  ReadsAndUpdates .cpy (fun s v => { s with p := withFlags s.p (flags s.y v) }) ∧
  FaultsWithResolver .cmp

/-- R206, R207 (general knowledge). INC and DEC of a memory cell, modulo 256, N and Z from the result, no carry. -/
def Obligations.MemoryIncrement : Prop :=
  let up := fun v : Byte => BitVec.ofNat 8 ((v.toNat + 1) % 256)
  let down := fun v : Byte => BitVec.ofNat 8 ((v.toNat + 255) % 256)
  HasRows .inc [(0xE6, .zeroPage, 5), (0xF6, .zeroPageX, 6), (0xEE, .absolute, 6), (0xFE, .absoluteX, 7)] ∧
  HasRows .dec [(0xC6, .zeroPage, 5), (0xD6, .zeroPageX, 6), (0xCE, .absolute, 6), (0xDE, .absoluteX, 7)] ∧
  ModifiesCell .inc (fun _ v => up v) (fun _ v => nz (up v)) ∧
  ModifiesCell .dec (fun _ v => down v) (fun _ v => nz (down v))

/-- R208 to R211 (general knowledge). INX, INY, DEX, DEY: modulo 256, N and Z from the result, C and V kept. -/
def Obligations.IndexIncrement : Prop :=
  let up := fun v : Byte => BitVec.ofNat 8 ((v.toNat + 1) % 256)
  let down := fun v : Byte => BitVec.ofNat 8 ((v.toNat + 255) % 256)
  (HasRows .inx [(0xE8, .implied, 2)] ∧ HasRows .iny [(0xC8, .implied, 2)] ∧ HasRows .dex [(0xCA, .implied, 2)] ∧
    HasRows .dey [(0x88, .implied, 2)]) ∧
  UpdatesRegisters .inx 0xE8#8 (fun s => { s with x := up s.x, p := withFlags s.p (nz (up s.x)) }) ∧
  UpdatesRegisters .iny 0xC8#8 (fun s => { s with y := up s.y, p := withFlags s.p (nz (up s.y)) }) ∧
  UpdatesRegisters .dex 0xCA#8 (fun s => { s with x := down s.x, p := withFlags s.p (nz (down s.x)) }) ∧
  UpdatesRegisters .dey 0x88#8 (fun s => { s with y := down s.y, p := withFlags s.p (nz (down s.y)) })

/-- R220 (general knowledge). JMP Absolute: `PC` becomes the operand address; nothing is read there. -/
def Obligations.JumpAbsolute : Prop :=
  optable 0x4C#8 = ⟨.jmp, .absolute, 3, false⟩ ∧
  ∀ (s : State) (ea : Addr), exec (.jmp (.absolute ea)) s = .next { s with pc := ea, cyc := ticksLeft s 0x4C#8 0 }

/-- 49_ext_control_flags.md section 1, JMP Indirect, with the spec's decision D6: `PC` becomes the address the resolver
gives; a pointer read that faults is the instruction's fault. -/
def Obligations.JumpIndirect : Prop :=
  HasRows .jmp [(0x4C, .absolute, 3), (0x6C, .indirect, 5)] ∧
  (∀ (s : State) (ptr target : Addr), resolve (.indirect ptr) s = .ok (.mem target.toNat, 0) →
    exec (.jmp (.indirect ptr)) s = .next { s with pc := target, cyc := ticksLeft s 0x6C#8 0 }) ∧
  (∀ (s : State) (ptr : Addr) (f : Fault), resolve (.indirect ptr) s = .error (.fault f) →
    exec (.jmp (.indirect ptr)) s = .fault f)

/-- 49_ext_control_flags.md section 1, JSR, with the spec's decision D30: the address of the instruction's last byte is
pushed, high byte first, and `PC` becomes the operand address; a stack cell that does not exist is the fault, the first
pushed one first. -/
def Obligations.JumpToSubroutine : Prop :=
  HasRows .jsr [(0x20, .absolute, 6)] ∧
  (∀ (s : State) (ea : Addr), s.mem.wf = true → (∀ k < 2, pushed s k < s.cfg.memSize) →
    ∃ t, exec (.jsr (.absolute ea)) s = .next t ∧
      256 * (t.mem.read (pushed s 0)).toNat + (t.mem.read (pushed s 1)).toNat = (s.pc.toNat + 65535) % 65536 ∧
      (∀ addr, (∀ k < 2, addr ≠ pushed s k) → t.mem.read addr = s.mem.read addr) ∧
      t.sp.toNat = (s.sp.toNat + 254) % 256 ∧ t.p = s.p ∧ t.pc = ea ∧ SameIndexes s t ∧
      t.cyc = ticksLeft s 0x20#8 0) ∧
  ∀ (s : State) (ea : Addr) (addr : Nat), firstMissing s [pushed s 0, pushed s 1] = some addr →
    exec (.jsr (.absolute ea)) s = .fault (.addressingFault addr)

/-- 49_ext_control_flags.md section 1, RTS and RTI, with the spec's decisions D15, D16, D30: RTS pulls low, then high, and
adds 1; RTI pulls `P` (bit 5 forced, B loaded), then low, then high, and adds nothing; a stack cell that does not exist is
the fault, the first pulled one first. -/
def Obligations.Returns : Prop :=
  HasRows .rts [(0x60, .implied, 6)] ∧ HasRows .rti [(0x40, .implied, 6)] ∧
  (∀ s : State, (∀ k, 1 ≤ k → k ≤ 2 → pulled s k < s.cfg.memSize) →
    ∃ t, exec .rts s = .next t ∧
      t.pc.toNat = (256 * (s.mem.read (pulled s 2)).toNat + (s.mem.read (pulled s 1)).toNat + 1) % 65536 ∧
      t = { s with pc := t.pc, sp := s.sp + 2#8, cyc := ticksLeft s 0x60#8 0 }) ∧
  (∀ s : State, (∀ k, 1 ≤ k → k ≤ 3 → pulled s k < s.cfg.memSize) →
    ∃ t, exec .rti s = .next t ∧
      t.pc.toNat = 256 * (s.mem.read (pulled s 3)).toNat + (s.mem.read (pulled s 2)).toNat ∧
      t.p.getLsbD 5 = true ∧ (∀ f, getFlag t.p f = (s.mem.read (pulled s 1)).getLsbD f.bit) ∧
      t = { s with p := t.p, pc := t.pc, sp := s.sp + 3#8, cyc := ticksLeft s 0x40#8 0 }) ∧
  (∀ (s : State) (addr : Nat), firstMissing s [pulled s 1, pulled s 2] = some addr →
    exec .rts s = .fault (.addressingFault addr)) ∧
  (∀ (s : State) (addr : Nat), firstMissing s [pulled s 1, pulled s 2, pulled s 3] = some addr →
    exec .rti s = .fault (.addressingFault addr))

/-- R225 to R231 (general knowledge). Each flag instruction writes exactly one flag. -/
def Obligations.FlagInstructions : Prop :=
  (HasRows .clc [(0x18, .implied, 2)] ∧ HasRows .sec [(0x38, .implied, 2)] ∧ HasRows .cli [(0x58, .implied, 2)] ∧
    HasRows .sei [(0x78, .implied, 2)] ∧ HasRows .clv [(0xB8, .implied, 2)] ∧ HasRows .cld [(0xD8, .implied, 2)] ∧
    HasRows .sed [(0xF8, .implied, 2)]) ∧
  UpdatesRegisters .clc 0x18#8 (fun s => { s with p := setFlag s.p .c false }) ∧
  UpdatesRegisters .sec 0x38#8 (fun s => { s with p := setFlag s.p .c true }) ∧
  UpdatesRegisters .cli 0x58#8 (fun s => { s with p := setFlag s.p .i false }) ∧
  UpdatesRegisters .sei 0x78#8 (fun s => { s with p := setFlag s.p .i true }) ∧
  UpdatesRegisters .clv 0xB8#8 (fun s => { s with p := setFlag s.p .v false }) ∧
  UpdatesRegisters .cld 0xD8#8 (fun s => { s with p := setFlag s.p .d false }) ∧
  UpdatesRegisters .sed 0xF8#8 (fun s => { s with p := setFlag s.p .d true })

/-- R109, R232. NOP and the Undefined operation change only `PC` and `CYC` and take 2 ticks: an undefined opcode under every
parameter set, NOP (whose count is one of the OPEN `BASE_CYCLES`) under the table's counts; the entry's undefined flag
alone tells them apart, and the fetch tick's trace shows it. -/
def Obligations.NopAndUndefined : Prop :=
  HasRows .nop [(0xEA, .implied, 2)] ∧
  UpdatesRegisters .nop 0xEA#8 (fun s => s) ∧
  (∀ b ∈ undefinedOpcodes, ∀ s : State, exec (.undefined b) s = .next { s with cyc := 1 }) ∧
  (∀ s : State, s.cfg.baseCycleChanges = [] → ticksLeft s 0xEA#8 0 = 1) ∧
  (∀ s : State, s.cyc = 0 → s.pc.toNat < s.cfg.memSize →
    (tickRunsUndefined s = true ↔ byteAt s 0 ∈ undefinedOpcodes)) ∧
  (∀ s : State, 0 < s.cyc → tickRunsUndefined s = false)

/-! ### Frames -/

/-- 00_scope.md section 6 (the spec's decision D29) with the flag lists of 10_state.md section 4: a flag an operation's
rule does not list (`flagsWritten`) keeps its value, and bit 5 of `P` stays set. -/
def Obligations.FlagFrame : Prop :=
  ∀ (i : Instr) (s t : State), exec i s = .next t →
    (∀ f, f ∉ flagsWritten i.operation → getFlag t.p f = getFlag s.p f) ∧
    (s.p.getLsbD 5 = true → t.p.getLsbD 5 = true)

/-- 10_state.md sections 2 and 9: A, X and Y change only by the instructions the spec names as their writers; `SP` moves
by the bytes pushed and pulled, and is X after TXS; `PC` stays at the next instruction unless the instruction is a
control transfer; no instruction writes a parameter. -/
def Obligations.RegisterFrame : Prop :=
  ∀ (i : Instr) (s t : State), exec i s = .next t →
    (writesA i = false → t.a = s.a) ∧ (writesX i.operation = false → t.x = s.x) ∧
    (writesY i.operation = false → t.y = s.y) ∧
    (i ≠ .txs → t.sp.toNat = (s.sp.toNat + 256 + pullCount i.operation - pushCount i.operation) % 256) ∧
    (i = .txs → t.sp = s.x) ∧ (transfersControl i.operation = false → t.pc = s.pc) ∧ t.cfg = s.cfg

/-- The "Memory written" lines of 42_logical.md to 49_ext_control_flags.md: every cell reads as before except the
operand's cell of a store or read-modify-write (the address the resolver gives) and the stack cells of the bytes pushed
from `SP` down. A form that stores nothing changes no cell. -/
def Obligations.MemoryFrame : Prop :=
  ∀ (i : Instr) (s t : State), exec i s = .next t →
    ∀ addr,
      (writesOperand i.operation = true → ∀ ea pen, resolve i.operand s = .ok (.mem ea, pen) → addr ≠ ea) →
      (∀ k < pushCount i.operation, addr ≠ pushed s k) →
      t.mem.read addr = s.mem.read addr

/-! ### Faults and refusals -/

/-- 40_addressing_modes.md section 3 and 60_exceptions.md sections 1 and 2: an instruction that uses the cell of a memory
operand faults at its address where it does not exist (JMP and JSR use only the address), a fault of the resolver is
the instruction's, and every fault carries an address outside memory. For ADC and SBC in decimal mode the order of
fault and refusal is the model's (log entry 9). -/
def Obligations.OperandFaults : Prop :=
  (∀ (i : Instr) (s : State) (ea pen : Nat), i.wf = true → i.operation ≠ .jmp → i.operation ≠ .jsr →
    resolve i.operand s = .ok (.mem ea, pen) → s.cfg.memSize ≤ ea → exec i s = .fault (.addressingFault ea)) ∧
  (∀ (i : Instr) (s : State) (f : Fault), i.wf = true → resolve i.operand s = .error (.fault f) →
    exec i s = .fault f) ∧
  (∀ (s : State) (addr : Nat), step s = .fault (.addressingFault addr) → s.cfg.memSize ≤ addr ∧ s.cyc = 0)

/-- 48_ext_arithmetic.md section 1 (decimal mode, the spec's decision D18) and 40_addressing_modes.md section 3: ADC and
SBC with D = 1 are refused, an instruction outside the opcode table is refused, and nothing else is. R98 asks for the
refusal of a pair whose descriptor the operation cannot use; that every pair outside the table is refused, usable or not,
is the model's choice (log entry 10). -/
def Obligations.Refusals : Prop :=
  (∀ (i : Instr) (s : State) (opd : Opd) (pen : Nat) (v : Byte), i.wf = true → Decimal i s →
    resolve i.operand s = .ok (opd, pen) → readOperand opd s = .ok v → exec i s = .refused .decimalMode) ∧
  (∀ (i : Instr) (s : State), i.wf = false → exec i s = .refused .noTableEntry) ∧
  (∀ (i : Instr) (s : State) (r : Refusal), i.wf = true → exec i s = .refused r → r = .decimalMode ∧ Decimal i s) ∧
  (∀ (s : State) (r : Refusal), step s = .refused r → r = .decimalMode ∧ getFlag s.p .d = true)

/-- R107. With the whole 65536-cell memory, every fetch tick completes but for an indexed effective address or an
Indirect pointer past the top, which faults, and ADC or SBC in decimal mode, which is refused. -/
def Obligations.FullMemoryOutcomes : Prop :=
  ∀ s : State, s.cfg.wf = true → s.cfg.memSize = 65536 → s.cyc = 0 →
    ∃ i t, fetch s = .ok (i, t) ∧ i.wf = true ∧
      (addressPastTop i.operand t = none → ¬ Decimal i t → ∃ u, step s = .next u) ∧
      (∀ addr, addressPastTop i.operand t = some addr → ¬ Decimal i t → step s = .fault (.addressingFault addr)) ∧
      (Decimal i t → addressPastTop i.operand t = none → step s = .refused .decimalMode)

/-! ### Whole-machine statements -/

/-- Every step keeps the invariant: parameters in range, memory canonical and inside the array, and bit 5 of `P` set
(10_state.md section 4, the spec's decision D16). -/
def Obligations.StepKeepsInv : Prop := ∀ s t : State, s.Inv → step s = .next t → t.Inv

/-- Every driver event keeps the session's invariant: ticks, resets after any fault, and host writes. -/
def Obligations.SessionEventsKeepInv : Prop :=
  ∀ (e : DriverEvent) (ss tt : Session) (r : Option TickReport), ss.Inv → Session.event e ss = .ok (r, tt) → tt.Inv

/-- The spec's inference of 41_execution_engine.md section 3 ("no register, flag or memory value ever depends on
`CYC`"): two machines that differ only in `CYC` and in base cycle counts do the same with every instruction and every
fetch tick, and never learn the difference. -/
def Obligations.TimingIndependence : Prop :=
  ∀ s t : State, s.withoutTiming = t.withoutTiming →
    (∀ i, outcomeWithoutTiming (exec i s) = outcomeWithoutTiming (exec i t)) ∧
    (s.cyc = 0 → t.cyc = 0 → outcomeWithoutTiming (step s) = outcomeWithoutTiming (step t))

/-- 60_exceptions.md section 3 and 49_ext_control_flags.md section 1: RTI undoes BRK's entry but for B, which stays set
("`SP`, `PC` (opcode address + 1) and every flag are as they were after the `BRK` set B"), and RTS returns to the
instruction after its JSR. -/
def Obligations.ReturnsUndoEntries : Prop :=
  (∀ s : State, s.mem.wf = true → s.p.getLsbD 5 = true → 0x200 ≤ s.cfg.memSize →
    s.cfg.brkVector + 1 < s.cfg.memSize →
    ∃ t u, exec .brk s = .next t ∧ exec .rti t = .next u ∧
      u = { s with p := setFlag s.p .b true, mem := t.mem, cyc := ticksLeft s 0x40#8 0 }) ∧
  (∀ (s : State) (ea : Addr), s.mem.wf = true → 0x200 ≤ s.cfg.memSize →
    ∃ t u, exec (.jsr (.absolute ea)) s = .next t ∧ exec .rts t = .next u ∧
      u = { s with mem := t.mem, cyc := ticksLeft s 0x60#8 0 })

/-- 10_state.md section 4 and 48_ext_arithmetic.md section 1: D becomes 1 only by SED, PLP or RTI; B is cleared only by
PLP or RTI and set only by BRK, PLP or RTI; I changes only by CLI, SEI, PLP or RTI. -/
def Obligations.FlagSources : Prop :=
  ∀ (i : Instr) (s t : State), exec i s = .next t →
    (getFlag s.p .d = false → getFlag t.p .d = true → i = .sed ∨ i = .plp ∨ i = .rti) ∧
    (getFlag s.p .b = true → getFlag t.p .b = false → i = .plp ∨ i = .rti) ∧
    (getFlag s.p .b = false → getFlag t.p .b = true → i = .brk ∨ i = .plp ∨ i = .rti) ∧
    (getFlag s.p .i ≠ getFlag t.p .i → i = .cli ∨ i = .sei ∨ i = .plp ∨ i = .rti)

/-- 60_exceptions.md section 1 with the spec's decisions D20, D21: a faulted core and one never reset refuse every tick;
reset puts the registers in the reset state and keeps every cell the faulted instruction could not write, for every
content of those it could (log entry 7). -/
def Obligations.FaultIsTerminal : Prop :=
  (∀ (cfg : Config) (mem : Memory), Session.tick (.neverReset cfg mem) = .error .tickBeforeReset) ∧
  (∀ (ticked : Bool) (s : State) (addr : Nat) (ss : Session),
    Session.tick (.live ticked s) = .ok (.addressingFault addr, ss) →
    Session.tick ss = .error .tickAfterFault ∧
    ∀ residue : List Byte, ∃ u, Session.reset residue ss = .live true u ∧ resetEvent u = u ∧ u.cfg = s.cfg ∧
      ∀ cell, cell ∉ cellsAtRisk s → u.mem.read cell = s.mem.read cell)
end

