-- ==== Sys2Proof/Laws/Decode.lean ====
section
/-! SUPPORT. The two transcriptions of the encoding agree: the map of R68 with the instruction rules' opcode lists, and
the empty cells of the map with the list of R69. -/

namespace Sys2Proof

/-- Every opcode the instruction rules name is that operation and mode in the map of R68, with the undefined flag
clear. -/
theorem opcodesOf_in_table : ∀ o : Operation, ∀ e ∈ opcodesOf o,
    (optable e.2).operation = o ∧ (optable e.2).mode = e.1 ∧ (optable e.2).undefined = false := by
  intro o; cases o <;> decide

/-- Every byte of R69 is an undefined entry of the map. -/
theorem undefinedOpcodes_in_table : ∀ b ∈ undefinedOpcodes, optable b = OpcodeMap.u := by decide

/-- The modes of an operation are those its opcode list gives (R98). -/
theorem modes_of_opcodes : ∀ o : Operation, o ≠ .undefined → o.modes = (opcodesOf o).map Prod.fst := by
  intro o; cases o <;> decide

/-- Composing the two bytes of an address gives it back (R5). -/
@[simp] theorem compose_hi8_lo8 (w : Addr) : Machine.compose (Machine.hi8 w) (Machine.lo8 w) = w := by
  simp only [Machine.compose, Machine.hi8, Machine.lo8]
  ext i hi
  by_cases h8 : i < 8
  · simp [h8, BitVec.getLsbD_eq_getElem hi]
  · simp [h8, BitVec.getLsbD_eq_getElem hi, Nat.add_sub_cancel' (Nat.le_of_not_lt h8), show i - 8 < 8 by omega]

@[simp] theorem hi8_compose (hi lo : Byte) : Machine.hi8 (Machine.compose hi lo) = hi := by
  simp only [Machine.compose, Machine.hi8]
  ext i h
  simp [h, show 8 + i < 16 by omega, show i < 16 by omega]

@[simp] theorem lo8_compose (hi lo : Byte) : Machine.lo8 (Machine.compose hi lo) = lo := by
  simp only [Machine.compose, Machine.lo8]
  ext i h
  simp

/-- `Compose` as a number (R5). -/
theorem compose_toNat (hi lo : Byte) : (Machine.compose hi lo).toNat = hi.toNat * 256 + lo.toNat := by
  have h : lo.toNat < 2 ^ 8 := lo.isLt
  have hh : hi.toNat < 2 ^ 8 := hi.isLt
  simp only [Machine.compose, BitVec.toNat_or, BitVec.toNat_shiftLeft, BitVec.toNat_setWidth]
  rw [Nat.mod_eq_of_lt (show hi.toNat < 2 ^ 16 by omega), Nat.mod_eq_of_lt (show lo.toNat < 2 ^ 16 by omega),
    Nat.mod_eq_of_lt (show hi.toNat <<< 8 < 2 ^ 16 by rw [Nat.shiftLeft_eq]; omega),
    ← Nat.shiftLeft_add_eq_or_of_lt h, Nat.shiftLeft_eq]

/-! ### The instruction of a table entry -/

/-- The operand a mode makes is of that mode (R63). -/
@[simp] theorem operandOf_mode (m : Mode) (x y : Byte) : (operandOf m x y).mode = m := by cases m <;> rfl

/-- The instruction built from a table entry has the entry's operation. -/
theorem instrOf_operation (o : Operation) (b : Byte) (m : Operand) : (instrOf o b m).operation = o := by
  cases o <;> rfl

/-- The instruction built from a table entry has the operand it is given, in a mode of the operation. -/
theorem instrOf_operand (o : Operation) (b : Byte) (m : Operand) (h : m.mode ∈ o.modes) :
    (instrOf o b m).operand = m := by
  have implied : m.mode ∈ [Mode.implied] → Operand.implied = m := by cases m <;> simp [Operand.mode]
  cases o <;> first | rfl | exact implied h

/-- A defined instruction's opcode, by its operation and mode. -/
theorem opcodeOf_eq (i : Instr) (h : i.operation ≠ .undefined) :
    opcodeOf i = (opcodesOf i.operation).lookup i.operand.mode := by
  cases i <;> first | rfl | exact absurd rfl h

/-- A defined instruction is well formed when its operation has its operand's mode (R98). -/
theorem wf_eq (i : Instr) (h : i.operation ≠ .undefined) :
    i.wf = i.operation.modes.contains i.operand.mode := by
  cases i <;> first | rfl | exact absurd rfl h

/-- Every opcode byte's own entry: its mode is one its operation has, and the opcode lists give the byte back. -/
theorem optable_entry : ∀ b : Byte, (optable b).mode ∈ (optable b).operation.modes ∧
    ((optable b).operation = .undefined → b ∈ undefinedOpcodes) ∧
    ((optable b).operation ≠ .undefined → (opcodesOf (optable b).operation).lookup (optable b).mode = some b) := by
  decide

/-! ### What the decoder builds from an opcode byte -/

theorem instrAt_operand (b x y : Byte) : (instrAt b x y).operand = operandOf (optable b).mode x y :=
  instrOf_operand _ _ _ (by rw [operandOf_mode]; exact (optable_entry b).1)

theorem instrAt_operation (b x y : Byte) : (instrAt b x y).operation = (optable b).operation :=
  instrOf_operation _ _ _

/-- The decoded instruction's opcode is the byte it was read from. -/
theorem opcodeOf_instrAt (b x y : Byte) : opcodeOf (instrAt b x y) = some b := by
  by_cases h : (optable b).operation = .undefined
  · have hb := (optable_entry b).2.1 h
    simp [instrAt, h, instrOf, opcodeOf, hb]
  · rw [opcodeOf_eq _ (by rwa [instrAt_operation]), instrAt_operation, instrAt_operand, operandOf_mode]
    exact (optable_entry b).2.2 h

/-- The decoder builds well-formed instructions only. -/
theorem instrAt_wf (b x y : Byte) : (instrAt b x y).wf = true := by
  by_cases h : (optable b).operation = .undefined
  · have hb := (optable_entry b).2.1 h
    simp [instrAt, h, instrOf, Instr.wf, hb]
  · rw [wf_eq _ (by rwa [instrAt_operation]), instrAt_operation, instrAt_operand, operandOf_mode]
    simpa using (optable_entry b).1

end Sys2Proof
end

