-- ==== Sys2Proof/Laws/Flags.lean ====
section
/-! SUPPORT. The Flag Bank contract (R21), and what the flag computations write. -/

namespace Sys2Proof.Machine

theorem Flag.bit_lt (f : Flag) : f.bit < 8 := by cases f <;> decide

theorem Flag.bit_ne_five (f : Flag) : f.bit ≠ 5 := by cases f <;> decide

theorem Flag.bit_inj {f g : Flag} : f.bit = g.bit ↔ f = g := by cases f <;> cases g <;> decide

/-- Every bit of `P` after `set`: the named bit is the new value, every other bit is as before (R21). -/
theorem getLsbD_setFlag (p : Byte) (f : Flag) (b : Bool) (k : Nat) :
    (setFlag p f b).getLsbD k = if k = f.bit then b else p.getLsbD k := by
  by_cases hk8 : k < 8
  · have hk : k = 0 ∨ k = 1 ∨ k = 2 ∨ k = 3 ∨ k = 4 ∨ k = 5 ∨ k = 6 ∨ k = 7 := by omega
    rcases hk with rfl | rfl | rfl | rfl | rfl | rfl | rfl | rfl <;>
      cases f <;> cases b <;> simp [setFlag, Flag.bit]
  · have hf := f.bit_lt
    have hne : k ≠ f.bit := by omega
    rw [BitVec.getLsbD_of_ge _ _ (by omega), BitVec.getLsbD_of_ge _ _ (by omega), if_neg hne]

/-- "reading back a flag immediately after setting it with value v yields v" (R21). -/
@[simp] theorem getFlag_setFlag_same (p : Byte) (f : Flag) (b : Bool) : getFlag (setFlag p f b) f = b := by
  simp [getFlag, getLsbD_setFlag]

/-- "setting a flag never perturbs unrelated bits" (R21). -/
theorem getFlag_setFlag_other {f g : Flag} (p : Byte) (b : Bool) (h : g ≠ f) :
    getFlag (setFlag p f b) g = getFlag p g := by
  have : g.bit ≠ f.bit := fun e => h (Flag.bit_inj.mp e)
  simp [getFlag, getLsbD_setFlag, this]

/-- The Flag Bank cannot touch the reserved bit (R20). -/
theorem reserved_setFlag (p : Byte) (f : Flag) (b : Bool) :
    (setFlag p f b).getLsbD 5 = p.getLsbD 5 := by
  rw [getLsbD_setFlag, if_neg f.bit_ne_five.symm]

/-- The same in the form simp brings a bit to. -/
@[simp] theorem setFlag_bit_five (p : Byte) (f : Flag) (b : Bool) : (setFlag p f b)[5] = p[5] := by
  simpa using reserved_setFlag p f b

@[simp] theorem reserved_setNZ (p v : Byte) : (setNZ p v)[5] = p[5] := by simp [setNZ]

/-- A whole-byte write forces the reserved bit (R20). -/
@[simp] theorem reserved_load (v : Byte) : (v ||| 0x20#8)[5] = true := by simp

@[simp] theorem reserved_compareFlags (p r m : Byte) : (compareFlags p r m)[5] = p[5] := by
  simp [compareFlags]

@[simp] theorem reserved_bitFlags (p a m : Byte) : (bitFlags p a m)[5] = p[5] := by simp [bitFlags]

/-- `SetNZ` in terms of the flags (R23). -/
theorem getFlag_setNZ (p v : Byte) (f : Flag) :
    getFlag (setNZ p v) f = if f = .n then v.getLsbD 7 else if f = .z then v == 0#8 else getFlag p f := by
  cases f <;> simp [setNZ, getFlag_setFlag_other]

end Sys2Proof.Machine
end

