-- ==== Sys2Proof/Laws/Memory.lean ====
section
/-! SUPPORT. The memory laws: read after write (R43), and that a write keeps the canonical form. -/

namespace Sys2Proof.Machine

@[simp] theorem Memory.read_nil (a : Nat) : Memory.read [] a = 0 := rfl

/-- `write(a,v)` then `read(a)` yields v (R43). -/
theorem Memory.read_write_same {lo : Nat} (m : Memory) (a : Nat) (v : Byte) (h : m.wfFrom lo = true) :
    (m.write a v).read a = v := by
  induction m generalizing lo with
  | nil => by_cases hv : v = 0#8 <;> simp [Memory.write, Memory.read, hv]
  | cons c rest ih =>
    obtain ⟨b, w⟩ := c
    simp only [Memory.wfFrom, Bool.and_eq_true, decide_eq_true_eq, bne_iff_ne] at h
    have absent : ∀ (r : Memory) (k : Nat), r.wfFrom k = true → a < k → r.read a = 0 := by
      intro r
      induction r with
      | nil => intros; rfl
      | cons d r ihr =>
        intro k hk hlt
        obtain ⟨e, u⟩ := d
        simp only [Memory.wfFrom, Bool.and_eq_true, decide_eq_true_eq, bne_iff_ne] at hk
        have hne : a ≠ e := by omega
        simpa [Memory.read, hne] using ihr (e + 1) hk.2 (by omega)
    unfold Memory.write
    split
    · next hab =>
      by_cases hv : v = 0#8
      · have hne : a ≠ b := by omega
        simp [Memory.read, hv, hne, absent rest (b + 1) h.2 (by omega)]
      · simp [Memory.read, hv]
    · split
      · next heq =>
        subst heq
        by_cases hv : v = 0#8
        · simp [hv, absent rest (a + 1) h.2 (by omega)]
        · simp [Memory.read, hv]
      · next hne => simpa [Memory.read, hne] using ih h.2

/-- A write leaves every other address alone (R42: "a write changes exactly the one cell"). -/
theorem Memory.read_write_other (m : Memory) (a b : Nat) (v : Byte) (h : b ≠ a) :
    (m.write a v).read b = m.read b := by
  induction m with
  | nil => by_cases hv : v = 0#8 <;> simp [Memory.write, Memory.read, hv, h]
  | cons c rest ih =>
    obtain ⟨e, w⟩ := c
    unfold Memory.write
    split
    · by_cases hv : v = 0#8 <;> simp [Memory.read, hv, h]
    · split
      · next heq => subst heq; by_cases hv : v = 0#8 <;> simp [Memory.read, hv, h]
      · simp [Memory.read, ih]

theorem Memory.wfFrom_mono {m : Memory} {lo lo' : Nat} (h : m.wfFrom lo = true) (hl : lo' ≤ lo) :
    m.wfFrom lo' = true := by
  cases m with
  | nil => rfl
  | cons c rest =>
    simp only [Memory.wfFrom, Bool.and_eq_true, decide_eq_true_eq] at h ⊢
    exact ⟨⟨by omega, h.1.2⟩, h.2⟩

theorem Memory.wfFrom_write {m : Memory} {lo a : Nat} {v : Byte} (h : m.wfFrom lo = true) (ha : lo ≤ a) :
    (m.write a v).wfFrom lo = true := by
  induction m generalizing lo with
  | nil => by_cases hv : v = 0#8 <;> simp [Memory.write, Memory.wfFrom, hv, ha]
  | cons c rest ih =>
    obtain ⟨b, w⟩ := c
    have hc := h
    simp only [Memory.wfFrom, Bool.and_eq_true, decide_eq_true_eq, bne_iff_ne] at hc
    unfold Memory.write
    split
    · next hab =>
      by_cases hv : v = 0#8
      · simpa [hv] using h
      · simpa [hv, Memory.wfFrom, ha, hc] using hab
    · split
      · next heq =>
        subst heq
        by_cases hv : v = 0#8
        · simpa [hv] using Memory.wfFrom_mono hc.2 (by omega)
        · simp [hv, Memory.wfFrom, ha, hc]
      · next h1 h2 => simp [Memory.wfFrom, hc, ih hc.2 (by omega)]

/-- Every write keeps the canonical form. -/
theorem Memory.wf_write {m : Memory} (a : Nat) (v : Byte) (h : m.wf = true) : (m.write a v).wf = true :=
  Memory.wfFrom_write h (Nat.zero_le a)

/-- A write inside the array keeps the memory inside the array. -/
theorem Memory.fits_write {m : Memory} {a size : Nat} (v : Byte) (h : m.fits size = true) (ha : a < size) :
    (m.write a v).fits size = true := by
  induction m with
  | nil => by_cases hv : v = 0#8 <;> simp [Memory.write, Memory.fits, hv, ha]
  | cons c rest ih =>
    obtain ⟨b, w⟩ := c
    have hc := h
    simp only [Memory.fits, List.all_cons, Bool.and_eq_true, decide_eq_true_eq] at hc
    unfold Memory.write
    split
    · by_cases hv : v = 0#8
      · simpa [hv] using h
      · simpa [hv, Memory.fits, ha] using hc
    · split
      · by_cases hv : v = 0#8
        · simpa [hv, Memory.fits] using hc.2
        · simpa [hv, Memory.fits, ha] using hc.2
      · simpa [Memory.fits, hc.1] using ih hc.2

/-- Two writes to different cells read back alike in either order. -/
theorem Memory.read_write_comm (m : Memory) (a b c : Nat) (v w : Byte) (h : m.wf = true) (hab : a ≠ b) :
    ((m.write a v).write b w).read c = ((m.write b w).write a v).read c := by
  by_cases hc : c = b
  · subst hc
    rw [Memory.read_write_same _ _ _ (Memory.wf_write a v h), Memory.read_write_other _ _ _ _ hab.symm,
      Memory.read_write_same _ _ _ h]
  · rw [Memory.read_write_other _ _ _ _ hc]
    by_cases hca : c = a
    · subst hca
      rw [Memory.read_write_same _ _ _ h, Memory.read_write_same _ _ _ (Memory.wf_write b w h)]
    · rw [Memory.read_write_other _ _ _ _ hca, Memory.read_write_other _ _ _ _ hca, Memory.read_write_other _ _ _ _ hc]

end Sys2Proof.Machine
end

