-- ==== Sys2Proof/Laws/State.lean ====
section
/-! SUPPORT. One lemma per field per register update of State, each true by `rfl`. -/

namespace Sys2Proof.Machine

variable (s : State)

@[simp] theorem State.withA_a (v : Byte) : (s.withA v).a = v := rfl
@[simp] theorem State.withA_x (v : Byte) : (s.withA v).x = s.x := rfl
@[simp] theorem State.withA_y (v : Byte) : (s.withA v).y = s.y := rfl
@[simp] theorem State.withA_sp (v : Byte) : (s.withA v).sp = s.sp := rfl
@[simp] theorem State.withA_p (v : Byte) : (s.withA v).p = s.p := rfl
@[simp] theorem State.withA_pc (v : Byte) : (s.withA v).pc = s.pc := rfl
@[simp] theorem State.withA_cyc (v : Byte) : (s.withA v).cyc = s.cyc := rfl
@[simp] theorem State.withA_mem (v : Byte) : (s.withA v).mem = s.mem := rfl
@[simp] theorem State.withA_cfg (v : Byte) : (s.withA v).cfg = s.cfg := rfl

@[simp] theorem State.withX_a (v : Byte) : (s.withX v).a = s.a := rfl
@[simp] theorem State.withX_x (v : Byte) : (s.withX v).x = v := rfl
@[simp] theorem State.withX_y (v : Byte) : (s.withX v).y = s.y := rfl
@[simp] theorem State.withX_sp (v : Byte) : (s.withX v).sp = s.sp := rfl
@[simp] theorem State.withX_p (v : Byte) : (s.withX v).p = s.p := rfl
@[simp] theorem State.withX_pc (v : Byte) : (s.withX v).pc = s.pc := rfl
@[simp] theorem State.withX_cyc (v : Byte) : (s.withX v).cyc = s.cyc := rfl
@[simp] theorem State.withX_mem (v : Byte) : (s.withX v).mem = s.mem := rfl
@[simp] theorem State.withX_cfg (v : Byte) : (s.withX v).cfg = s.cfg := rfl

@[simp] theorem State.withY_a (v : Byte) : (s.withY v).a = s.a := rfl
@[simp] theorem State.withY_x (v : Byte) : (s.withY v).x = s.x := rfl
@[simp] theorem State.withY_y (v : Byte) : (s.withY v).y = v := rfl
@[simp] theorem State.withY_sp (v : Byte) : (s.withY v).sp = s.sp := rfl
@[simp] theorem State.withY_p (v : Byte) : (s.withY v).p = s.p := rfl
@[simp] theorem State.withY_pc (v : Byte) : (s.withY v).pc = s.pc := rfl
@[simp] theorem State.withY_cyc (v : Byte) : (s.withY v).cyc = s.cyc := rfl
@[simp] theorem State.withY_mem (v : Byte) : (s.withY v).mem = s.mem := rfl
@[simp] theorem State.withY_cfg (v : Byte) : (s.withY v).cfg = s.cfg := rfl

@[simp] theorem State.withSp_a (v : Byte) : (s.withSp v).a = s.a := rfl
@[simp] theorem State.withSp_x (v : Byte) : (s.withSp v).x = s.x := rfl
@[simp] theorem State.withSp_y (v : Byte) : (s.withSp v).y = s.y := rfl
@[simp] theorem State.withSp_sp (v : Byte) : (s.withSp v).sp = v := rfl
@[simp] theorem State.withSp_p (v : Byte) : (s.withSp v).p = s.p := rfl
@[simp] theorem State.withSp_pc (v : Byte) : (s.withSp v).pc = s.pc := rfl
@[simp] theorem State.withSp_cyc (v : Byte) : (s.withSp v).cyc = s.cyc := rfl
@[simp] theorem State.withSp_mem (v : Byte) : (s.withSp v).mem = s.mem := rfl
@[simp] theorem State.withSp_cfg (v : Byte) : (s.withSp v).cfg = s.cfg := rfl

@[simp] theorem State.withP_a (v : Byte) : (s.withP v).a = s.a := rfl
@[simp] theorem State.withP_x (v : Byte) : (s.withP v).x = s.x := rfl
@[simp] theorem State.withP_y (v : Byte) : (s.withP v).y = s.y := rfl
@[simp] theorem State.withP_sp (v : Byte) : (s.withP v).sp = s.sp := rfl
@[simp] theorem State.withP_p (v : Byte) : (s.withP v).p = v := rfl
@[simp] theorem State.withP_pc (v : Byte) : (s.withP v).pc = s.pc := rfl
@[simp] theorem State.withP_cyc (v : Byte) : (s.withP v).cyc = s.cyc := rfl
@[simp] theorem State.withP_mem (v : Byte) : (s.withP v).mem = s.mem := rfl
@[simp] theorem State.withP_cfg (v : Byte) : (s.withP v).cfg = s.cfg := rfl

@[simp] theorem State.withPc_a (v : Addr) : (s.withPc v).a = s.a := rfl
@[simp] theorem State.withPc_x (v : Addr) : (s.withPc v).x = s.x := rfl
@[simp] theorem State.withPc_y (v : Addr) : (s.withPc v).y = s.y := rfl
@[simp] theorem State.withPc_sp (v : Addr) : (s.withPc v).sp = s.sp := rfl
@[simp] theorem State.withPc_p (v : Addr) : (s.withPc v).p = s.p := rfl
@[simp] theorem State.withPc_pc (v : Addr) : (s.withPc v).pc = v := rfl
@[simp] theorem State.withPc_cyc (v : Addr) : (s.withPc v).cyc = s.cyc := rfl
@[simp] theorem State.withPc_mem (v : Addr) : (s.withPc v).mem = s.mem := rfl
@[simp] theorem State.withPc_cfg (v : Addr) : (s.withPc v).cfg = s.cfg := rfl

@[simp] theorem State.withCyc_a (n : Nat) : (s.withCyc n).a = s.a := rfl
@[simp] theorem State.withCyc_x (n : Nat) : (s.withCyc n).x = s.x := rfl
@[simp] theorem State.withCyc_y (n : Nat) : (s.withCyc n).y = s.y := rfl
@[simp] theorem State.withCyc_sp (n : Nat) : (s.withCyc n).sp = s.sp := rfl
@[simp] theorem State.withCyc_p (n : Nat) : (s.withCyc n).p = s.p := rfl
@[simp] theorem State.withCyc_pc (n : Nat) : (s.withCyc n).pc = s.pc := rfl
@[simp] theorem State.withCyc_cyc (n : Nat) : (s.withCyc n).cyc = n := rfl
@[simp] theorem State.withCyc_mem (n : Nat) : (s.withCyc n).mem = s.mem := rfl
@[simp] theorem State.withCyc_cfg (n : Nat) : (s.withCyc n).cfg = s.cfg := rfl

@[simp] theorem State.withMem_a (m : Memory) : (s.withMem m).a = s.a := rfl
@[simp] theorem State.withMem_x (m : Memory) : (s.withMem m).x = s.x := rfl
@[simp] theorem State.withMem_y (m : Memory) : (s.withMem m).y = s.y := rfl
@[simp] theorem State.withMem_sp (m : Memory) : (s.withMem m).sp = s.sp := rfl
@[simp] theorem State.withMem_p (m : Memory) : (s.withMem m).p = s.p := rfl
@[simp] theorem State.withMem_pc (m : Memory) : (s.withMem m).pc = s.pc := rfl
@[simp] theorem State.withMem_cyc (m : Memory) : (s.withMem m).cyc = s.cyc := rfl
@[simp] theorem State.withMem_mem (m : Memory) : (s.withMem m).mem = m := rfl
@[simp] theorem State.withMem_cfg (m : Memory) : (s.withMem m).cfg = s.cfg := rfl

@[simp] theorem State.setFlag_a (f : Flag) (b : Bool) : (s.setFlag f b).a = s.a := rfl
@[simp] theorem State.setFlag_x (f : Flag) (b : Bool) : (s.setFlag f b).x = s.x := rfl
@[simp] theorem State.setFlag_y (f : Flag) (b : Bool) : (s.setFlag f b).y = s.y := rfl
@[simp] theorem State.setFlag_sp (f : Flag) (b : Bool) : (s.setFlag f b).sp = s.sp := rfl
@[simp] theorem State.setFlag_p (f : Flag) (b : Bool) : (s.setFlag f b).p = Machine.setFlag s.p f b := rfl
@[simp] theorem State.setFlag_pc (f : Flag) (b : Bool) : (s.setFlag f b).pc = s.pc := rfl
@[simp] theorem State.setFlag_cyc (f : Flag) (b : Bool) : (s.setFlag f b).cyc = s.cyc := rfl
@[simp] theorem State.setFlag_mem (f : Flag) (b : Bool) : (s.setFlag f b).mem = s.mem := rfl
@[simp] theorem State.setFlag_cfg (f : Flag) (b : Bool) : (s.setFlag f b).cfg = s.cfg := rfl

@[simp] theorem State.setNZ_a (v : Byte) : (s.setNZ v).a = s.a := rfl
@[simp] theorem State.setNZ_x (v : Byte) : (s.setNZ v).x = s.x := rfl
@[simp] theorem State.setNZ_y (v : Byte) : (s.setNZ v).y = s.y := rfl
@[simp] theorem State.setNZ_sp (v : Byte) : (s.setNZ v).sp = s.sp := rfl
@[simp] theorem State.setNZ_p (v : Byte) : (s.setNZ v).p = Machine.setNZ s.p v := rfl
@[simp] theorem State.setNZ_pc (v : Byte) : (s.setNZ v).pc = s.pc := rfl
@[simp] theorem State.setNZ_cyc (v : Byte) : (s.setNZ v).cyc = s.cyc := rfl
@[simp] theorem State.setNZ_mem (v : Byte) : (s.setNZ v).mem = s.mem := rfl
@[simp] theorem State.setNZ_cfg (v : Byte) : (s.setNZ v).cfg = s.cfg := rfl

@[simp] theorem State.loadP_a (v : Byte) : (s.loadP v).a = s.a := rfl
@[simp] theorem State.loadP_x (v : Byte) : (s.loadP v).x = s.x := rfl
@[simp] theorem State.loadP_y (v : Byte) : (s.loadP v).y = s.y := rfl
@[simp] theorem State.loadP_sp (v : Byte) : (s.loadP v).sp = s.sp := rfl
@[simp] theorem State.loadP_p (v : Byte) : (s.loadP v).p = v ||| 0x20#8 := rfl
@[simp] theorem State.loadP_pc (v : Byte) : (s.loadP v).pc = s.pc := rfl
@[simp] theorem State.loadP_cyc (v : Byte) : (s.loadP v).cyc = s.cyc := rfl
@[simp] theorem State.loadP_mem (v : Byte) : (s.loadP v).mem = s.mem := rfl
@[simp] theorem State.loadP_cfg (v : Byte) : (s.loadP v).cfg = s.cfg := rfl

@[simp] theorem State.flag_eq (f : Flag) : s.flag f = getFlag s.p f := rfl

end Sys2Proof.Machine
end

