-- ==== Sys2Proof/Laws/Ops.lean ====
section
/-! SUPPORT. One lemma per shared operation that says once everything it can do, and that the operations keep the
machine's invariant. -/

namespace Sys2Proof.Machine

/-- A sequence of two computations ends well exactly when both do. -/
theorem bind_ok_iff {ε α β : Type} {x : Except ε α} {f : α → Except ε β} {r : β} :
    (x >>= f) = .ok r ↔ ∃ a, x = .ok a ∧ f a = .ok r := by
  cases x <;> simp [bind, Except.bind]

theorem finish_next {r : Except Stop State} {t : State} : finish r = .next t ↔ r = .ok t := by
  cases r with
  | ok s => simp [finish]
  | error e => cases e <;> simp [finish]

/-- `MemRead` answers exactly inside the array (R41). -/
theorem memRead_ok {s : State} {a : Nat} {v : Byte} :
    memRead s a = .ok v ↔ a < s.cfg.memSize ∧ v = s.mem.read a := by
  unfold memRead
  split <;> simp_all [eq_comm]

theorem memRead_inside {s : State} {a : Nat} (h : a < s.cfg.memSize) : memRead s a = .ok (s.mem.read a) :=
  memRead_ok.mpr ⟨h, rfl⟩

/-- `MemWrite` answers exactly inside the array, and changes the memory field only (R42). -/
theorem memWrite_ok {s t : State} {a : Nat} {v : Byte} :
    memWrite s a v = .ok t ↔ a < s.cfg.memSize ∧ t = s.withMem (s.mem.write a v) := by
  unfold memWrite
  split <;> simp_all [eq_comm]

theorem memWrite_inside {s : State} {a : Nat} {v : Byte} (h : a < s.cfg.memSize) :
    memWrite s a v = .ok (s.withMem (s.mem.write a v)) := memWrite_ok.mpr ⟨h, rfl⟩

/-- Outside the array `MemRead` faults with the address (R41). -/
theorem memRead_outside {s : State} {a : Nat} (h : s.cfg.memSize ≤ a) :
    memRead s a = .error (.fault (.addressingFault a)) := if_neg (Nat.not_lt.mpr h)

/-- Outside the array `MemWrite` faults with the address (R42). -/
theorem memWrite_outside {s : State} {a : Nat} {v : Byte} (h : s.cfg.memSize ≤ a) :
    memWrite s a v = .error (.fault (.addressingFault a)) := if_neg (Nat.not_lt.mpr h)

/-- `Fetch8` reads at `PC` and advances it (R16). -/
theorem fetch8_ok {s t : State} {v : Byte} :
    fetch8 s = .ok (v, t) ↔
      s.pc.toNat < s.cfg.memSize ∧ v = s.mem.read s.pc.toNat ∧ t = s.withPc (s.pc + 1#16) := by
  unfold fetch8
  simp only [bind_ok_iff, memRead_ok, pure, Except.pure, Except.ok.injEq, Prod.mk.injEq]
  constructor
  · rintro ⟨w, ⟨h, rfl⟩, rfl, rfl⟩; exact ⟨h, rfl, rfl⟩
  · rintro ⟨h, rfl, rfl⟩; exact ⟨_, ⟨h, rfl⟩, rfl, rfl⟩

/-- `Push` writes one stack cell and decrements `SP` (R160). -/
theorem push_ok {s t : State} {v : Byte} :
    push s v = .ok t ↔
      stackAddr s.sp < s.cfg.memSize ∧ t = (s.withMem (s.mem.write (stackAddr s.sp) v)).withSp (s.sp - 1#8) := by
  unfold push
  simp only [bind_ok_iff, memWrite_ok, pure, Except.pure, Except.ok.injEq]
  constructor
  · rintro ⟨u, ⟨h, rfl⟩, rfl⟩; exact ⟨h, rfl⟩
  · rintro ⟨h, rfl⟩; exact ⟨_, ⟨h, rfl⟩, rfl⟩

/-- `Pull` increments `SP` and reads the cell there (R161). -/
theorem pull_ok {s t : State} {v : Byte} :
    pull s = .ok (v, t) ↔
      stackAddr (s.sp + 1#8) < s.cfg.memSize ∧ v = s.mem.read (stackAddr (s.sp + 1#8)) ∧ t = s.withSp (s.sp + 1#8) := by
  unfold pull
  simp only [bind_ok_iff, memRead_ok, pure, Except.pure, Except.ok.injEq, Prod.mk.injEq]
  constructor
  · rintro ⟨w, ⟨h, rfl⟩, rfl, rfl⟩; exact ⟨h, rfl, rfl⟩
  · rintro ⟨h, rfl, rfl⟩; exact ⟨_, ⟨h, rfl⟩, rfl, rfl⟩

/-- A push to a stack cell that does not exist faults with its address (R160). -/
theorem push_outside {s : State} {v : Byte} (h : s.cfg.memSize ≤ stackAddr s.sp) :
    push s v = .error (.fault (.addressingFault (stackAddr s.sp))) := by
  rw [push, memWrite_outside h]; rfl

/-- A pull from a stack cell that does not exist faults with its address (R161). -/
theorem pull_outside {s : State} (h : s.cfg.memSize ≤ stackAddr (s.sp + 1#8)) :
    pull s = .error (.fault (.addressingFault (stackAddr (s.sp + 1#8)))) := by
  simp only [pull, State.withSp_sp, memRead_outside (s := s.withSp (s.sp + 1#8)) h]; rfl

/-! ### Base cycle counts -/

/-- An undefined opcode's count is `UNDEF_CYCLES` = 2 under every parameter set (R3, R108). -/
@[simp] theorem State.baseCycles_undefined {s : State} {b : Byte} (h : b ∈ undefinedOpcodes) : s.baseCycles b = 2 := by
  have hb : optable b = OpcodeMap.u := undefinedOpcodes_in_table b h
  simp [State.baseCycles, isUndefined, hb, OpcodeMap.u]

/-- Without changes every count is the table's (R68). -/
theorem State.baseCycles_table {s : State} (h : s.cfg.baseCycleChanges = []) (b : Byte) :
    s.baseCycles b = (optable b).baseCycles := by simp [State.baseCycles, h]

/-! ### The invariant -/

/-- A state with the same parameters and memory, and the reserved bit set, keeps the invariant. -/
theorem State.Inv.of_eq {s t : State} (h : s.Inv) (hc : t.cfg = s.cfg) (hm : t.mem = s.mem)
    (hp : t.p.getLsbD 5 = true) : t.Inv :=
  ⟨by rw [hc]; exact h.config, by rw [hm]; exact h.memory, by rw [hm, hc]; exact h.inside, hp⟩

theorem State.Inv.memWrite {s t : State} {a : Nat} {v : Byte} (h : s.Inv) (hw : memWrite s a v = .ok t) : t.Inv := by
  obtain ⟨ha, rfl⟩ := memWrite_ok.mp hw
  exact ⟨h.config, Memory.wf_write a v h.memory, Memory.fits_write v h.inside ha, h.reserved⟩

theorem State.Inv.push {s t : State} {v : Byte} (h : s.Inv) (hp : push s v = .ok t) : t.Inv := by
  obtain ⟨ha, rfl⟩ := push_ok.mp hp
  exact (h.memWrite (memWrite_inside ha)).of_eq rfl rfl h.reserved

theorem State.Inv.pull {s t : State} {v : Byte} (h : s.Inv) (hp : pull s = .ok (v, t)) : t.Inv := by
  obtain ⟨-, -, rfl⟩ := pull_ok.mp hp
  exact h.of_eq rfl rfl h.reserved

theorem State.Inv.fetch8 {s t : State} {v : Byte} (h : s.Inv) (hf : fetch8 s = .ok (v, t)) : t.Inv := by
  obtain ⟨-, -, rfl⟩ := fetch8_ok.mp hf
  exact h.of_eq rfl rfl h.reserved

theorem State.Inv.setFlag {s : State} (h : s.Inv) (f : Flag) (b : Bool) : (s.setFlag f b).Inv :=
  h.of_eq rfl rfl (by simpa using h.reserved)

theorem State.Inv.loadP {s : State} (h : s.Inv) (v : Byte) : (s.loadP v).Inv :=
  h.of_eq rfl rfl (by simp [State.loadP, State.withP])

/-- Everything the trap entry does (R246): B set, three pushes, the vector read, and nothing else. -/
theorem trapEntry_ok {s t : State} : trapEntry s = .ok t ↔
    ∃ s₁ s₂ s₃, push (s.setFlag .b true) (hi8 s.pc) = .ok s₁ ∧ push s₁ (lo8 s₁.pc) = .ok s₂ ∧
      push s₂ s₂.p = .ok s₃ ∧ s₃.cfg.brkVector < s₃.cfg.memSize ∧ s₃.cfg.brkVector + 1 < s₃.cfg.memSize ∧
      t = s₃.withPc (compose (s₃.mem.read (s₃.cfg.brkVector + 1)) (s₃.mem.read s₃.cfg.brkVector)) := by
  unfold trapEntry
  simp only [bind_ok_iff, memRead_ok, pure, Except.pure, Except.ok.injEq, State.setFlag_pc]
  constructor
  · rintro ⟨s₁, h₁, s₂, h₂, s₃, h₃, lo, ⟨hl, rfl⟩, hi, ⟨hh, rfl⟩, rfl⟩
    exact ⟨s₁, s₂, s₃, h₁, h₂, h₃, hl, hh, rfl⟩
  · rintro ⟨s₁, s₂, s₃, h₁, h₂, h₃, hl, hh, rfl⟩
    exact ⟨s₁, h₁, s₂, h₂, s₃, h₃, _, ⟨hl, rfl⟩, _, ⟨hh, rfl⟩, rfl⟩

theorem State.Inv.trapEntry {s t : State} (h : s.Inv) (ht : trapEntry s = .ok t) : t.Inv := by
  obtain ⟨s₁, s₂, s₃, h₁, h₂, h₃, -, -, rfl⟩ := trapEntry_ok.mp ht
  have hi := (((h.setFlag .b true).push h₁).push h₂).push h₃
  exact hi.of_eq rfl rfl hi.reserved

/-- Everything the trap return does (R247): three pulls, `P` loaded with bit 5 forced, `PC` loaded. -/
theorem trapReturn_ok {s t : State} : trapReturn s = .ok t ↔
    ∃ v s₁ lo s₂ hi s₃, pull s = .ok (v, s₁) ∧ pull (s₁.loadP v) = .ok (lo, s₂) ∧ pull s₂ = .ok (hi, s₃) ∧
      t = s₃.withPc (compose hi lo) := by
  unfold trapReturn
  simp only [bind_ok_iff, pure, Except.pure, Except.ok.injEq, Prod.exists]
  constructor
  · rintro ⟨v, s₁, h₁, lo, s₂, h₂, hi, s₃, h₃, rfl⟩; exact ⟨v, s₁, lo, s₂, hi, s₃, h₁, h₂, h₃, rfl⟩
  · rintro ⟨v, s₁, lo, s₂, hi, s₃, h₁, h₂, h₃, rfl⟩; exact ⟨v, s₁, h₁, lo, s₂, h₂, hi, s₃, h₃, rfl⟩

theorem State.Inv.trapReturn {s t : State} (h : s.Inv) (ht : trapReturn s = .ok t) : t.Inv := by
  obtain ⟨v, s₁, lo, s₂, hi, s₃, h₁, h₂, h₃, rfl⟩ := trapReturn_ok.mp ht
  have hi' := ((((h.pull h₁).loadP v).pull h₂).pull h₃)
  exact hi'.of_eq rfl rfl hi'.reserved

end Sys2Proof.Machine
end

