-- ==== Sys2Proof/Laws/Driver.lean ====
section
/-! SUPPORT. One lemma per driver event that says once everything it can do, and that a host write keeps the session's
invariant. -/

namespace Sys2Proof.Machine

/-- The driver's write lands exactly in an existing cell, before the first tick or with `HOST_WRITES_MEMORY`
(R36, R59). -/
theorem Session.hostWrite_ok {addr : Nat} {v : Byte} {ss tt : Session} :
    Session.hostWrite addr v ss = .ok tt ↔ addr < ss.config.memSize ∧
      (ss.beforeFirstTick = true ∨ ss.config.hostWritesMemory = true) ∧ tt = ss.withCell addr v := by
  unfold Session.hostWrite
  by_cases h : ss.config.memSize ≤ addr
  · simp [h, Nat.not_lt.mpr h]
  · by_cases hw : (ss.beforeFirstTick || ss.config.hostWritesMemory) = true
    · simp [h, hw, Nat.lt_of_not_le h, ← Bool.or_eq_true, eq_comm (a := tt)]
    · simp [h, hw, ← Bool.or_eq_true]

/-- A tick answers exactly on a live core whose step is a next state or a fault, and the first tick is then past. -/
theorem Session.tick_ok {ss tt : Session} {r : TickReport} : ss.tick = .ok (r, tt) ↔
    ∃ ticked s, ss = .live ticked s ∧
      ((∃ t, step s = .next t ∧ r = .returned (tickResult s) ∧ tt = .live true t) ∨
        ∃ a, step s = .fault (.addressingFault a) ∧ r = .addressingFault a ∧
          tt = .faulted s.cfg s.mem (cellsAtRisk s)) := by
  cases ss with
  | neverReset => simp [Session.tick]
  | faulted => simp [Session.tick]
  | live ticked s =>
    simp only [Session.tick, Session.live.injEq, existsAndEq, true_and, and_assoc]
    cases step s with
    | next t => simp [eq_comm]
    | fault f => cases f; simp [eq_comm]
    | refused r => simp

theorem Session.Inv.withCell {ss : Session} {addr : Nat} {v : Byte} (h : ss.Inv) (ha : addr < ss.config.memSize) :
    (ss.withCell addr v).Inv := by
  cases ss with
  | neverReset cfg mem => exact ⟨h.1, Memory.wf_write _ _ h.2.1, Memory.fits_write _ h.2.2 ha⟩
  | live ticked s =>
    exact ⟨h.config, Memory.wf_write _ _ h.memory, Memory.fits_write _ h.inside ha, h.reserved⟩
  | faulted cfg mem atRisk =>
    exact ⟨h.1, Memory.wf_write _ _ h.2.1, Memory.fits_write _ h.2.2.1 ha,
      fun x hx => h.2.2.2 x (List.mem_of_mem_filter hx)⟩

end Sys2Proof.Machine
end

