-- ==== Sys2Proof/Laws/Operands.lean ====
section
/-! SUPPORT. One lemma per shared operation of the resolver, of operand access and of running a table entry, that says
once everything it can do. -/

namespace Sys2Proof.Machine

/-- The zero-page pointer pair is read exactly when both of its cells exist (R90, R91). -/
theorem zeroPagePair_ok {s : State} {ptr : Byte} {w : Addr} : zeroPagePair s ptr = .ok w ↔
    ptr.toNat < s.cfg.memSize ∧ (ptr + 1#8).toNat < s.cfg.memSize ∧
      w = compose (s.mem.read (ptr + 1#8).toNat) (s.mem.read ptr.toNat) := by
  unfold zeroPagePair
  simp only [bind_ok_iff, memRead_ok, pure, Except.pure, Except.ok.injEq]
  constructor
  · rintro ⟨lo, ⟨hl, rfl⟩, hi, ⟨hh, rfl⟩, rfl⟩; exact ⟨hl, hh, rfl⟩
  · rintro ⟨hl, hh, rfl⟩; exact ⟨_, ⟨hl, rfl⟩, _, ⟨hh, rfl⟩, rfl⟩

/-- The pointer pair of the Indirect mode is read exactly when both of its cells exist (R93). -/
theorem indirectPair_ok {s : State} {ptr w : Addr} : indirectPair s ptr = .ok w ↔
    ptr.toNat < s.cfg.memSize ∧ indirectHighAddr s.cfg.jmpIndirectPageWrap ptr < s.cfg.memSize ∧
      w = compose (s.mem.read (indirectHighAddr s.cfg.jmpIndirectPageWrap ptr)) (s.mem.read ptr.toNat) := by
  unfold indirectPair
  simp only [bind_ok_iff, memRead_ok, pure, Except.pure, Except.ok.injEq]
  constructor
  · rintro ⟨lo, ⟨hl, rfl⟩, hi, ⟨hh, rfl⟩, rfl⟩; exact ⟨hl, hh, rfl⟩
  · rintro ⟨hl, hh, rfl⟩; exact ⟨_, ⟨hl, rfl⟩, _, ⟨hh, rfl⟩, rfl⟩

/-- What `ReadOperand` answers (R95). -/
theorem readOperand_ok {opd : Opd} {s : State} {v : Byte} : readOperand opd s = .ok v ↔
    (opd = .acc ∧ v = s.a) ∨ opd = .imm v ∨ ∃ ea, opd = .mem ea ∧ ea < s.cfg.memSize ∧ v = s.mem.read ea := by
  cases opd <;> simp [readOperand, memRead_ok, eq_comm (b := v)]

/-- What `WriteOperand` changes (R96): the accumulator, or one cell. -/
theorem writeOperand_ok {opd : Opd} {v : Byte} {s t : State} : writeOperand opd v s = .ok t ↔
    (opd = .acc ∧ t = s.withA v) ∨
      ∃ ea, opd = .mem ea ∧ ea < s.cfg.memSize ∧ t = s.withMem (s.mem.write ea v) := by
  cases opd <;> simp [writeOperand, memWrite_ok, @eq_comm _ t]

theorem State.Inv.writeOperand {s t : State} {opd : Opd} {v : Byte} (h : s.Inv)
    (hw : writeOperand opd v s = .ok t) : t.Inv := by
  rcases writeOperand_ok.mp hw with ⟨-, rfl⟩ | ⟨ea, -, ha, rfl⟩
  · exact h.of_eq rfl rfl h.reserved
  · exact h.memWrite (memWrite_inside ha)

/-- Everything running a table entry can do (R101): the operand resolves, the operation runs, `CYC` is set. -/
theorem runEntry_next {i : Instr} {ex : Execution} {s t : State} : runEntry i ex s = .next t ↔
    ∃ b opd penA u penOp, opcodeOf i = some b ∧ resolve i.operand s = .ok (opd, penA) ∧ ex opd s = .ok (u, penOp) ∧
      t = u.withCyc (s.baseCycles b + penA + penOp - 1) := by
  unfold runEntry
  cases hb : opcodeOf i with
  | none => simp
  | some b =>
    simp only [finish_next, bind_ok_iff, pure, Except.pure, Except.ok.injEq, Prod.exists, Option.some.injEq]
    constructor
    · rintro ⟨opd, penA, hr, u, penOp, he, rfl⟩; exact ⟨b, opd, penA, u, penOp, rfl, hr, he, rfl⟩
    · rintro ⟨b', opd, penA, u, penOp, rfl, hr, he, rfl⟩; exact ⟨opd, penA, hr, u, penOp, he, rfl⟩

/-- A pair outside the opcode table is refused (R98). -/
theorem runEntry_noEntry {i : Instr} {ex : Execution} {s : State} (h : opcodeOf i = none) :
    runEntry i ex s = .refused .noTableEntry := by simp [runEntry, h]

/-! ### The shapes of operation -/

@[simp] theorem registerOp_ok {f : State → State} {opd : Opd} {s u : State} {n : Nat} :
    registerOp f opd s = .ok (u, n) ↔ u = f s ∧ n = 0 := by
  simp [registerOp, eq_comm]

theorem readOp_ok {f : State → Byte → State} {opd : Opd} {s u : State} {n : Nat} :
    readOp f opd s = .ok (u, n) ↔ ∃ v, readOperand opd s = .ok v ∧ u = f s v ∧ n = 0 := by
  simp [readOp, bind_ok_iff, pure, Except.pure, @eq_comm _ u, @eq_comm _ n]

theorem storeOp_ok {value : State → Byte} {opd : Opd} {s u : State} {n : Nat} :
    storeOp value opd s = .ok (u, n) ↔ writeOperand opd (value s) s = .ok u ∧ n = 0 := by
  simp [storeOp, bind_ok_iff, pure, Except.pure, @eq_comm _ n]

theorem shiftOp_ok {f : Bool → Byte → Byte × Bool} {opd : Opd} {s u : State} {n : Nat} :
    shiftOp f opd s = .ok (u, n) ↔ ∃ v t, readOperand opd s = .ok v ∧
      writeOperand opd (f (s.flag .c) v).1 (s.setFlag .c (f (s.flag .c) v).2) = .ok t ∧
      u = t.setNZ (f (s.flag .c) v).1 ∧ n = 0 := by
  simp [shiftOp, bind_ok_iff, pure, Except.pure, @eq_comm _ u, @eq_comm _ n]

theorem modifyOp_ok {f : Byte → Byte} {opd : Opd} {s u : State} {n : Nat} :
    modifyOp f opd s = .ok (u, n) ↔ ∃ v t, readOperand opd s = .ok v ∧ writeOperand opd (f v) s = .ok t ∧
      u = t.setNZ (f v) ∧ n = 0 := by
  simp [modifyOp, bind_ok_iff, pure, Except.pure, @eq_comm _ u, @eq_comm _ n]

theorem stackOp_ok {f : State → Except Stop State} {opd : Opd} {s u : State} {n : Nat} :
    stackOp f opd s = .ok (u, n) ↔ f s = .ok u ∧ n = 0 := by
  simp [stackOp, bind_ok_iff, pure, Except.pure, @eq_comm _ n]

/-- A branch changes `PC` and nothing else, and only when taken (R145). -/
theorem branchOp_ok {f : Flag} {want : Bool} {opd : Opd} {s u : State} {n : Nat} :
    branchOp f want opd s = .ok (u, n) ↔ ∃ d, opd = .rel d ∧
      ((getFlag s.p f = want ∧ u = s.withPc (branchTarget s.pc d) ∧ n = branchPenalty s.pc (branchTarget s.pc d)) ∨
        (getFlag s.p f ≠ want ∧ u = s ∧ n = 0)) := by
  cases opd <;> simp only [branchOp, State.flag_eq, reduceCtorEq, false_and, exists_false, Opd.rel.injEq,
    exists_eq_left']
  by_cases h : getFlag s.p f = want <;> simp [h, @eq_comm _ u, @eq_comm _ n]

theorem addressOp_ok {f : State → Addr → Except Stop State} {opd : Opd} {s u : State} {n : Nat} :
    addressOp f opd s = .ok (u, n) ↔ ∃ ea, opd = .mem ea ∧ f s (BitVec.ofNat 16 ea) = .ok u ∧ n = 0 := by
  cases opd <;> simp [addressOp, bind_ok_iff, pure, Except.pure, @eq_comm _ n]

/-- `ADC` and `SBC` run exactly when the operand is readable and D is 0 (R200 to R202). -/
theorem binaryOp_ok {f : Byte → Byte → Bool → AddResult} {opd : Opd} {s u : State} {n : Nat} :
    binaryOp f opd s = .ok (u, n) ↔ ∃ v, readOperand opd s = .ok v ∧ getFlag s.p .d = false ∧ n = 0 ∧
      u = (((s.setFlag .c (f s.a v (getFlag s.p .c)).carry).setFlag .v
        (f s.a v (getFlag s.p .c)).overflow).withA (f s.a v (getFlag s.p .c)).result).setNZ
          (f s.a v (getFlag s.p .c)).result := by
  simp only [binaryOp, bind_ok_iff, State.flag_eq, pure, Except.pure]
  constructor
  · rintro ⟨v, hv, h⟩
    cases hd : getFlag s.p .d with
    | true => simp [hd] at h
    | false =>
      simp only [hd, Bool.false_eq_true, if_false, Except.ok.injEq, Prod.mk.injEq] at h
      exact ⟨v, hv, rfl, h.2.symm, h.1.symm⟩
  · rintro ⟨v, hv, hd, rfl, rfl⟩
    exact ⟨v, hv, by simp [hd]⟩

end Sys2Proof.Machine
end

