-- ==== Sys2Proof/Laws/Exec.lean ====
section
/-! SUPPORT. Every instruction is one table entry run with one operation: the form proofs over all instructions use. -/

namespace Sys2Proof.Machine

/-- The operation each instruction runs with its operand descriptor. -/
def executionOf : Instr → Execution
  | .ora _ => executeOra
  | .and _ => executeAnd
  | .eor _ => executeEor
  | .asl _ => executeAsl
  | .rol _ => executeRol
  | .lsr _ => executeLsr
  | .ror _ => executeRor
  | .bit _ => executeBit
  | .bpl _ => executeBpl
  | .bmi _ => executeBmi
  | .bvc _ => executeBvc
  | .bvs _ => executeBvs
  | .bcc _ => executeBcc
  | .bcs _ => executeBcs
  | .bne _ => executeBne
  | .beq _ => executeBeq
  | .php => executePhp
  | .brk => executeBrk
  | .pha => executePha
  | .pla => executePla
  | .plp => executePlp
  | .lda _ => executeLda
  | .ldx _ => executeLdx
  | .ldy _ => executeLdy
  | .sta _ => executeSta
  | .stx _ => executeStx
  | .sty _ => executeSty
  | .tax => executeTax
  | .tay => executeTay
  | .txa => executeTxa
  | .tya => executeTya
  | .tsx => executeTsx
  | .txs => executeTxs
  | .adc _ => executeAdc
  | .sbc _ => executeSbc
  | .cmp _ => executeCmp
  | .cpx _ => executeCpx
  | .cpy _ => executeCpy
  | .inc _ => executeInc
  | .dec _ => executeDec
  | .inx => executeInx
  | .iny => executeIny
  | .dex => executeDex
  | .dey => executeDey
  | .jmp _ => executeJmp
  | .jsr _ => executeJsr
  | .rts => executeRts
  | .rti => executeRti
  | .clc => executeClc
  | .sec => executeSec
  | .cli => executeCli
  | .sei => executeSei
  | .clv => executeClv
  | .cld => executeCld
  | .sed => executeSed
  | .nop => executeNop
  | .undefined _ => executeUndefined

/-- `exec` runs the instruction's table entry (R74). -/
theorem exec_eq_runEntry (i : Instr) (s : State) : exec i s = runEntry i (executionOf i) s := by
  cases i <;> rfl

/-- Everything executing an instruction can do when it answers a next state. -/
theorem exec_next {i : Instr} {s t : State} : exec i s = .next t ↔
    ∃ b opd penA u penOp, opcodeOf i = some b ∧ resolve i.operand s = .ok (opd, penA) ∧
      executionOf i opd s = .ok (u, penOp) ∧ t = u.withCyc (s.baseCycles b + penA + penOp - 1) := by
  rw [exec_eq_runEntry, runEntry_next]

/-- A well-formed instruction has an opcode byte (R98). -/
theorem opcodeOf_of_wf {i : Instr} (h : i.wf = true) : ∃ b, opcodeOf i = some b := by
  cases i
  case undefined b => exact ⟨b, by simpa [Instr.wf, opcodeOf] using h⟩
  all_goals
    first
    | exact ⟨_, rfl⟩
    | next m => cases m <;> first | exact ⟨_, rfl⟩ | exact absurd h (by simp [Instr.wf, Instr.operation,
        Instr.operand, Operand.mode, Operation.modes, readModes, shiftModes])

end Sys2Proof.Machine
end

