-- ==== Sys2Proof/Laws/PerInstr.lean ====
section
/-! SUPPORT. For every instruction: a well-formed instruction's opcode, as the instruction rules give it, is an entry
of the map of R68 with the instruction's own operation and mode. -/

namespace Sys2Proof

/-- Every mode of an operation has an opcode, and that opcode's entry is the operation in that mode. -/
theorem lookup_in_table : ∀ o : Operation, o ≠ .undefined → ∀ m ∈ o.modes, ∃ b, (opcodesOf o).lookup m = some b ∧
    (optable b).operation = o ∧ (optable b).mode = m := by
  have key : ∀ o : Operation, o ≠ .undefined → ∀ m ∈ o.modes, ((opcodesOf o).lookup m).any
      (fun b => decide ((optable b).operation = o) && decide ((optable b).mode = m)) = true := by
    intro o ho
    cases o
    case undefined => exact absurd rfl ho
    all_goals decide
  intro o ho m hm
  have h := key o ho m hm
  cases hb : (opcodesOf o).lookup m with
  | none => simp [hb] at h
  | some b => exact ⟨b, rfl, by simpa [hb] using h⟩

end Sys2Proof

namespace Sys2Proof.Laws.TableAgrees

/-- A well-formed instruction has an opcode byte, whose entry is its operation in its mode (R68, R73, R98). -/
def Statement (i : Instr) : Prop :=
  i.wf = true → ∃ b, opcodeOf i = some b ∧ (optable b).operation = i.operation ∧ (optable b).mode = i.operand.mode

theorem of_modes {o : Operation} {m : Mode} (ho : o ≠ .undefined) (h : o.modes.contains m = true) :
    ∃ b, (opcodesOf o).lookup m = some b ∧ (optable b).operation = o ∧ (optable b).mode = m :=
  lookup_in_table o ho m (by simpa using h)

theorem ora (m : Operand) : Statement (.ora m) := of_modes (o := .ora) (by decide)
theorem and (m : Operand) : Statement (.and m) := of_modes (o := .and) (by decide)
theorem eor (m : Operand) : Statement (.eor m) := of_modes (o := .eor) (by decide)
theorem asl (m : Operand) : Statement (.asl m) := of_modes (o := .asl) (by decide)
theorem rol (m : Operand) : Statement (.rol m) := of_modes (o := .rol) (by decide)
theorem lsr (m : Operand) : Statement (.lsr m) := of_modes (o := .lsr) (by decide)
theorem ror (m : Operand) : Statement (.ror m) := of_modes (o := .ror) (by decide)
theorem bit (m : Operand) : Statement (.bit m) := of_modes (o := .bit) (by decide)
theorem bpl (m : Operand) : Statement (.bpl m) := of_modes (o := .bpl) (by decide)
theorem bmi (m : Operand) : Statement (.bmi m) := of_modes (o := .bmi) (by decide)
theorem bvc (m : Operand) : Statement (.bvc m) := of_modes (o := .bvc) (by decide)
theorem bvs (m : Operand) : Statement (.bvs m) := of_modes (o := .bvs) (by decide)
theorem bcc (m : Operand) : Statement (.bcc m) := of_modes (o := .bcc) (by decide)
theorem bcs (m : Operand) : Statement (.bcs m) := of_modes (o := .bcs) (by decide)
theorem bne (m : Operand) : Statement (.bne m) := of_modes (o := .bne) (by decide)
theorem beq (m : Operand) : Statement (.beq m) := of_modes (o := .beq) (by decide)
theorem php : Statement .php := of_modes (o := .php) (m := .implied) (by decide)
theorem brk : Statement .brk := of_modes (o := .brk) (m := .implied) (by decide)
theorem pha : Statement .pha := of_modes (o := .pha) (m := .implied) (by decide)
theorem pla : Statement .pla := of_modes (o := .pla) (m := .implied) (by decide)
theorem plp : Statement .plp := of_modes (o := .plp) (m := .implied) (by decide)
theorem lda (m : Operand) : Statement (.lda m) := of_modes (o := .lda) (by decide)
theorem ldx (m : Operand) : Statement (.ldx m) := of_modes (o := .ldx) (by decide)
theorem ldy (m : Operand) : Statement (.ldy m) := of_modes (o := .ldy) (by decide)
theorem sta (m : Operand) : Statement (.sta m) := of_modes (o := .sta) (by decide)
theorem stx (m : Operand) : Statement (.stx m) := of_modes (o := .stx) (by decide)
theorem sty (m : Operand) : Statement (.sty m) := of_modes (o := .sty) (by decide)
theorem tax : Statement .tax := of_modes (o := .tax) (m := .implied) (by decide)
theorem tay : Statement .tay := of_modes (o := .tay) (m := .implied) (by decide)
theorem txa : Statement .txa := of_modes (o := .txa) (m := .implied) (by decide)
theorem tya : Statement .tya := of_modes (o := .tya) (m := .implied) (by decide)
theorem tsx : Statement .tsx := of_modes (o := .tsx) (m := .implied) (by decide)
theorem txs : Statement .txs := of_modes (o := .txs) (m := .implied) (by decide)
theorem adc (m : Operand) : Statement (.adc m) := of_modes (o := .adc) (by decide)
theorem sbc (m : Operand) : Statement (.sbc m) := of_modes (o := .sbc) (by decide)
theorem cmp (m : Operand) : Statement (.cmp m) := of_modes (o := .cmp) (by decide)
theorem cpx (m : Operand) : Statement (.cpx m) := of_modes (o := .cpx) (by decide)
theorem cpy (m : Operand) : Statement (.cpy m) := of_modes (o := .cpy) (by decide)
theorem inc (m : Operand) : Statement (.inc m) := of_modes (o := .inc) (by decide)
theorem dec (m : Operand) : Statement (.dec m) := of_modes (o := .dec) (by decide)
theorem inx : Statement .inx := of_modes (o := .inx) (m := .implied) (by decide)
theorem iny : Statement .iny := of_modes (o := .iny) (m := .implied) (by decide)
theorem dex : Statement .dex := of_modes (o := .dex) (m := .implied) (by decide)
theorem dey : Statement .dey := of_modes (o := .dey) (m := .implied) (by decide)
theorem jmp (m : Operand) : Statement (.jmp m) := of_modes (o := .jmp) (by decide)
theorem jsr (m : Operand) : Statement (.jsr m) := of_modes (o := .jsr) (by decide)
theorem rts : Statement .rts := of_modes (o := .rts) (m := .implied) (by decide)
theorem rti : Statement .rti := of_modes (o := .rti) (m := .implied) (by decide)
theorem clc : Statement .clc := of_modes (o := .clc) (m := .implied) (by decide)
theorem sec : Statement .sec := of_modes (o := .sec) (m := .implied) (by decide)
theorem cli : Statement .cli := of_modes (o := .cli) (m := .implied) (by decide)
theorem sei : Statement .sei := of_modes (o := .sei) (m := .implied) (by decide)
theorem clv : Statement .clv := of_modes (o := .clv) (m := .implied) (by decide)
theorem cld : Statement .cld := of_modes (o := .cld) (m := .implied) (by decide)
theorem sed : Statement .sed := of_modes (o := .sed) (m := .implied) (by decide)
theorem nop : Statement .nop := of_modes (o := .nop) (m := .implied) (by decide)
theorem undefined (opcode : Byte) : Statement (.undefined opcode) := by
  intro h
  have hb : opcode ∈ undefinedOpcodes := by simpa [Instr.wf] using h
  exact ⟨opcode, by simpa [opcodeOf] using hb, by rw [undefinedOpcodes_in_table opcode hb]; rfl,
    by rw [undefinedOpcodes_in_table opcode hb]; rfl⟩

end Sys2Proof.Laws.TableAgrees
end

