-- ==== Sys2Proof/Tests/Slice0.lean ====
section
/-! SUPPORT. Tests of the model: ill-formed instructions are refused, words written out from the spec's opcode lists
decode to what they stand for, single steps give what 95_test_vectors.md gives (the vector's name stands above each), and
a concrete state meets the hypotheses of every statement that has some (`witness_…`). -/

namespace Sys2Proof.Tests

open Sys2Proof.Machine
open Sys2Proof.Claims

/-! ### Helpers -/

/-- The reset state with instruction bytes from `pc` on, `PC` there, and some other cells. -/
def startAt (pc : Addr) (bytes : List Byte) (cells : List (Nat × Byte)) : State :=
  { State.reset with pc := pc, mem := Memory.writeImage (writeAll [] cells) pc.toNat 65536 bytes }

/-- The reset state of a core with `size` cells of memory. -/
def sized (size : Nat) : State := { State.reset with cfg := { Config.default with memSize := size } }

/-- The state after one step, if it is a next state. -/
def ran (s : State) : Option State :=
  match step s with
  | .next t => some t
  | .fault _ => none
  | .refused _ => none

/-- The address of the fault a step ends in, if it does. -/
def faultAt (s : State) : Option Nat :=
  match step s with
  | .next _ => none
  | .fault (.addressingFault a) => some a
  | .refused _ => none

/-- Does the step end in the refusal of decimal mode? -/
def refusesDecimal (s : State) : Bool :=
  match step s with
  | .next _ => false
  | .fault _ => false
  | .refused r => r == .decimalMode

/-- Is the instruction refused because the opcode table has no such entry? -/
def refusedAsNoEntry (i : Instr) : Bool :=
  match exec i State.reset with
  | .next _ => false
  | .fault _ => false
  | .refused r => r == .noTableEntry

/-! ### Ill-formed instructions -/

/-- R98: an operation in a mode its rule does not give it is not well formed, encodes to no byte and is refused. -/
theorem test_wf_refuses_mode : (∀ i ∈ [Instr.sta (.immediate 0x01), .ora .implied, .asl (.immediate 0x01), .bit (.zeroPageX 0x10),
      .bpl (.immediate 0x02), .ldx (.zeroPageX 0x10), .stx (.zeroPageX 0x10), .cpx (.absoluteX 0x1000), .inc .accumulator,
      .jmp (.absoluteX 0x1000), .jsr (.indirect 0x1000), .sty (.zeroPageY 0x10)],
    i.wf = false ∧ encode i = [] ∧ refusedAsNoEntry i = true) := by decide

/-- R69: an undefined-opcode instruction whose byte is a defined opcode is not well formed and is refused. -/
theorem test_wf_refuses_defined_byte :
    (Instr.undefined 0xEA).wf = false ∧ (Instr.undefined 0x00).wf = false ∧ refusedAsNoEntry (.undefined 0xEA) = true := by
  decide

/-- R3: a parameter outside its range is not well formed, nor is a count for an undefined opcode (U22: defined entries). -/
theorem test_config_wf_refuses : ({ Config.default with memSize := 0 }).wf = false ∧
    ({ Config.default with memSize := 65537 }).wf = false ∧ ({ Config.default with brkVector := 0xFFFF }).wf = false ∧
    ({ Config.default with baseCycleChanges := [(0xEA, 0)] }).wf = false ∧
    ({ Config.default with baseCycleChanges := [(0x02, 5)] }).wf = false ∧
    ({ Config.default with baseCycleChanges := [(0xEA, 5)] }).wf = true ∧ Config.default.wf = true := by decide

/-- The memory form (log entry 2) refuses a listed zero, a repeated address and a falling address. -/
theorem test_memory_wf_refuses : Memory.wf [(0, 0x00)] = false ∧ Memory.wf [(1, 0x01), (1, 0x02)] = false ∧
    Memory.wf [(2, 0x01), (1, 0x02)] = false ∧ Memory.wf [(1, 0x01), (2, 0x02)] = true := by decide

/-! ### Decoding: words written out bit by bit -/

/-- The opcode lists of 42_logical.md and 44_bit_test.md. -/
theorem test_decode_logical :
    decode [0b00001001#8, 0b11111111#8] = .ok (.ora (.immediate 0xFF), []) ∧
    decode [0b00110001#8, 0b00100000#8] = .ok (.and (.indirectY 0x20), []) ∧
    decode [0b01000001#8, 0b00100000#8] = .ok (.eor (.indirectX 0x20), []) ∧
    decode [0b00101100#8, 0b00000000#8, 0b00000011#8] = .ok (.bit (.absolute 0x0300), []) := ⟨rfl, rfl, rfl, rfl⟩

/-- The opcode lists of 43_shift_rotate.md. -/
theorem test_decode_shifts :
    decode [0b00001010#8, 0b11111111#8] = .ok (.asl .accumulator, [0xFF]) ∧
    decode [0b00101110#8, 0b00000000#8, 0b00000010#8] = .ok (.rol (.absolute 0x0200), []) ∧
    decode [0b01000110#8, 0b00010000#8] = .ok (.lsr (.zeroPage 0x10), []) ∧
    decode [0b01110110#8, 0b00001111#8] = .ok (.ror (.zeroPageX 0x0F), []) := ⟨rfl, rfl, rfl, rfl⟩

/-- The opcode table of 45_branches.md. -/
theorem test_decode_branches :
    decode [0b00010000#8, 0x02] = .ok (.bpl (.relative 0x02), []) ∧
    decode [0b00110000#8, 0x02] = .ok (.bmi (.relative 0x02), []) ∧
    decode [0b01010000#8, 0x02] = .ok (.bvc (.relative 0x02), []) ∧
    decode [0b01110000#8, 0x02] = .ok (.bvs (.relative 0x02), []) ∧
    decode [0b10010000#8, 0x02] = .ok (.bcc (.relative 0x02), []) ∧
    decode [0b10110000#8, 0x02] = .ok (.bcs (.relative 0x02), []) ∧
    decode [0b11010000#8, 0x02] = .ok (.bne (.relative 0x02), []) ∧
    decode [0b11110000#8, 0x80] = .ok (.beq (.relative 0x80), []) := ⟨rfl, rfl, rfl, rfl, rfl, rfl, rfl, rfl⟩

/-- The opcodes of 46_stack_and_brk.md. -/
theorem test_decode_stack :
    decode [0b00001000#8] = .ok (.php, []) ∧ decode [0b00000000#8] = .ok (.brk, []) ∧
    decode [0b01001000#8] = .ok (.pha, []) ∧ decode [0b01101000#8] = .ok (.pla, []) ∧
    decode [0b00101000#8] = .ok (.plp, []) := ⟨rfl, rfl, rfl, rfl, rfl⟩

/-- The opcode tables of 47_ext_load_store_transfer.md. -/
theorem test_decode_loads_stores :
    decode [0b10111001#8, 0x01, 0x02] = .ok (.lda (.absoluteY 0x0201), []) ∧
    decode [0b10110110#8, 0x10] = .ok (.ldx (.zeroPageY 0x10), []) ∧
    decode [0b10111100#8, 0x01, 0x02] = .ok (.ldy (.absoluteX 0x0201), []) ∧
    decode [0b10010001#8, 0x20] = .ok (.sta (.indirectY 0x20), []) ∧
    decode [0b10010110#8, 0x20] = .ok (.stx (.zeroPageY 0x20), []) ∧
    decode [0b10010100#8, 0xFF] = .ok (.sty (.zeroPageX 0xFF), []) := ⟨rfl, rfl, rfl, rfl, rfl, rfl⟩

/-- The transfers of 47_ext_load_store_transfer.md section 3. -/
theorem test_decode_transfers :
    decode [0b10101010#8] = .ok (.tax, []) ∧ decode [0b10101000#8] = .ok (.tay, []) ∧
    decode [0b10001010#8] = .ok (.txa, []) ∧ decode [0b10011000#8] = .ok (.tya, []) ∧
    decode [0b10111010#8] = .ok (.tsx, []) ∧ decode [0b10011010#8] = .ok (.txs, []) := ⟨rfl, rfl, rfl, rfl, rfl, rfl⟩

/-- The opcode tables of 48_ext_arithmetic.md. -/
theorem test_decode_arithmetic :
    decode [0b01111101#8, 0x00, 0x10] = .ok (.adc (.absoluteX 0x1000), []) ∧
    decode [0b11100001#8, 0x10] = .ok (.sbc (.indirectX 0x10), []) ∧
    decode [0b11000101#8, 0x10] = .ok (.cmp (.zeroPage 0x10), []) ∧
    decode [0b11100000#8, 0x10] = .ok (.cpx (.immediate 0x10), []) ∧
    decode [0b11001100#8, 0x00, 0x10] = .ok (.cpy (.absolute 0x1000), []) ∧
    decode [0b11111110#8, 0xFF, 0x02] = .ok (.inc (.absoluteX 0x02FF), []) ∧
    decode [0b11010110#8, 0x10] = .ok (.dec (.zeroPageX 0x10), []) := ⟨rfl, rfl, rfl, rfl, rfl, rfl, rfl⟩

/-- The index operations of 48_ext_arithmetic.md section 3. -/
theorem test_decode_index_operations :
    decode [0b11101000#8] = .ok (.inx, []) ∧ decode [0b11001000#8] = .ok (.iny, []) ∧
    decode [0b11001010#8] = .ok (.dex, []) ∧ decode [0b10001000#8] = .ok (.dey, []) := ⟨rfl, rfl, rfl, rfl⟩

/-- The jumps and returns of 49_ext_control_flags.md section 1. -/
theorem test_decode_control :
    decode [0b01001100#8, 0x34, 0x12] = .ok (.jmp (.absolute 0x1234), []) ∧
    decode [0b01101100#8, 0xFF, 0x12] = .ok (.jmp (.indirect 0x12FF), []) ∧
    decode [0b00100000#8, 0x10, 0x00] = .ok (.jsr (.absolute 0x0010), []) ∧
    decode [0b01100000#8] = .ok (.rts, []) ∧ decode [0b01000000#8] = .ok (.rti, []) := ⟨rfl, rfl, rfl, rfl, rfl⟩

/-- The flag instructions and NOP of 49_ext_control_flags.md; undefined bytes of R67 and R69. -/
theorem test_decode_flags :
    decode [0b00011000#8] = .ok (.clc, []) ∧ decode [0b00111000#8] = .ok (.sec, []) ∧
    decode [0b01011000#8] = .ok (.cli, []) ∧ decode [0b01111000#8] = .ok (.sei, []) ∧
    decode [0b10111000#8] = .ok (.clv, []) ∧ decode [0b11011000#8] = .ok (.cld, []) ∧
    decode [0b11111000#8] = .ok (.sed, []) ∧ decode [0b11101010#8] = .ok (.nop, []) ∧
    decode [0b00000010#8] = .ok (.undefined 0x02, []) ∧ decode [0b11111111#8, 0x01] = .ok (.undefined 0xFF, [0x01]) :=
  ⟨rfl, rfl, rfl, rfl, rfl, rfl, rfl, rfl, rfl, rfl⟩

/-- A word as opcode_table.json numbers it: the first byte is the least significant; bits above `nbits` are 0. -/
theorem test_decode_table_word : decodeTableWord 24 0x12FF6C = some (.jmp (.indirect 0x12FF)) ∧
    decodeTableWord 8 0x12FF6C = some (.jmp (.indirect 0x0000)) ∧ decodeTableWord 16 0x0009 = some (.ora (.immediate 0x00)) :=
  ⟨rfl, rfl, rfl⟩

/-- The very next step runs an instruction placed by `withFetchWord`, also from a busy state. -/
theorem test_with_fetch_word :
    (ran (State.reset.withFetchWord 16 0x80A9)).map (fun t => (t.a, t.pc)) = some (0x80, 0x0002) ∧
    (ran (({ State.reset with cyc := 3, pc := 0xFFFF }).withFetchWord 24 0x12344C)).map (fun t => t.pc) = some 0x1234 := by
  decide

/-! ### One step of each instruction, from 95_test_vectors.md -/

/-- LOG-3: V and C kept: P 63 to E1. -/
theorem test_ora : (ran { startAt 0x0000 [0x09, 0x0F] [] with a := 0xF0, p := 0x63 }).map
    (fun t => (t.a, t.p)) = some (0xFF, 0xE1) := by decide

/-- LOG-5: AND to zero: N cleared, Z set. -/
theorem test_and : (ran { startAt 0x0000 [0x29, 0x00] [] with a := 0xFF, p := 0xA0 }).map
    (fun t => (t.a, t.p)) = some (0x00, 0x22) := by decide

/-- LOG-9: EOR AbsoluteX, no crossing. -/
theorem test_eor : (ran { startAt 0x0000 [0x5D, 0x00, 0x03] [(0x0302, 0x80)] with a := 0x01, x := 0x02 }).map
    (fun t => (t.a, t.p)) = some (0x81, 0xA0) := by decide

/-- SHF-1: the source example. -/
theorem test_asl_accumulator : (ran { startAt 0x0000 [0x0A] [] with a := 0x81 }).map
    (fun t => (t.a, t.p)) = some (0x02, 0x21) := by decide

/-- MODE-21: read-modify-write AbsoluteX crossing: 7+1 ticks, the largest CYC (7). -/
theorem test_asl_memory : (ran { startAt 0x0000 [0x1E, 0xFF, 0x00] [(0x0100, 0x81)] with x := 0x01 }).map
    (fun t => (t.mem.read 0x0100, t.p, t.cyc)) = some (0x02, 0x21, 7) := by decide

/-- SHF-9: ROL Absolute: 7F,C=1 to FF,C=0. -/
theorem test_rol : (ran { startAt 0x0000 [0x2E, 0x00, 0x02] [(0x0200, 0x7F)] with p := 0x21 }).map
    (fun t => (t.mem.read 0x0200, t.p)) = some (0xFF, 0xA0) := by decide

/-- SHF-11: LSR to zero: N cleared. -/
theorem test_lsr : (ran { startAt 0x0000 [0x4A] [] with a := 0x01, p := 0xA0 }).map
    (fun t => (t.a, t.p)) = some (0x00, 0x23) := by decide

/-- SHF-14: ROR ZeroPageX: C enters bit 7. -/
theorem test_ror : (ran { startAt 0x0000 [0x76, 0x0F] [(0x0010, 0x00)] with x := 0x01, p := 0x21 }).map
    (fun t => (t.mem.read 0x0010, t.p)) = some (0x80, 0xA0) := by decide

/-- BIT-1: the source example: Z=1, N=1, V=1. -/
theorem test_bit : (ran { startAt 0x0000 [0x24, 0x10] [(0x0010, 0xC0)] with a := 0x0F }).map
    (fun t => (t.a, t.p)) = some (0x0F, 0xE2) := by decide

/-- BR-13: d=-4 from next=0002: wraps to FFFE, crossing, 4 ticks. -/
theorem test_bpl : (ran (startAt 0x0000 [0x10, 0xFC] [])).map
    (fun t => (t.pc, t.cyc)) = some (0xFFFE, 3) := by decide

/-- BR-3: BMI taken, next=00F2, target 0112: 4 ticks. -/
theorem test_bmi : (ran { startAt 0x00F0 [0x30, 0x20] [] with p := 0xA0 }).map
    (fun t => (t.pc, t.cyc)) = some (0x0112, 3) := by decide

/-- BR-5: BVC to itself (d=-2). -/
theorem test_bvc : (ran (startAt 0x0010 [0x50, 0xFE] [])).map
    (fun t => (t.pc, t.cyc)) = some (0x0010, 2) := by decide

/-- BR-6: BVS not taken. -/
theorem test_bvs_not_taken : (ran (startAt 0x0010 [0x70, 0x05] [])).map
    (fun t => (t.pc, t.cyc)) = some (0x0012, 1) := by decide

/-- BR-7: BCC d=+127. -/
theorem test_bcc : (ran (startAt 0x0010 [0x90, 0x7F] [])).map
    (fun t => (t.pc, t.cyc)) = some (0x0091, 2) := by decide

/-- BR-8: BCS d=-128, 0112 to 0092, page changes: 4 ticks. -/
theorem test_bcs : (ran { startAt 0x0110 [0xB0, 0x80] [] with p := 0x21 }).map
    (fun t => (t.pc, t.cyc)) = some (0x0092, 3) := by decide

/-- BR-9: BNE back to 0001. -/
theorem test_bne : (ran (startAt 0x0002 [0xD0, 0xFD] [])).map
    (fun t => (t.pc, t.cyc)) = some (0x0001, 2) := by decide

/-- BR-14: next=FFF2, +10 = 10002 mod 65536 = 0002, crossing. -/
theorem test_beq : (ran { startAt 0xFFF0 [0xF0, 0x10] [] with p := 0x22 }).map
    (fun t => (t.pc, t.cyc)) = some (0x0002, 3) := by decide

/-- STK-2: PHP at SP=00: writes 0100, SP wraps to FF; B pushed as stored. -/
theorem test_php : (ran { startAt 0x0000 [0x08] [] with sp := 0x00, p := 0xF3 }).map
    (fun t => (t.mem.read 0x0100, t.sp)) = some (0xF3, 0xFF) := by decide

/-- STK-4: BRK with SP=01: cells 0101, 0100, 01FF; pushed PC=1300. -/
theorem test_brk : (ran { startAt 0x12FF [0x00] [(0xFFFE, 0x00), (0xFFFF, 0x80)] with sp := 0x01, p := 0x20 }).map
    (fun t => (t.mem.read 0x0101, t.mem.read 0x0100, t.mem.read 0x01FF, t.sp, t.p, t.pc)) = some (0x13, 0x00, 0x30, 0xFE, 0x30, 0x8000) := by decide

/-- STK-8: PHA. -/
theorem test_pha : (ran { startAt 0x0000 [0x48] [] with a := 0x7E }).map
    (fun t => (t.mem.read 0x01FF, t.sp)) = some (0x7E, 0xFE) := by decide

/-- STK-10: PLA at SP=FF: SP wraps to 00, reads 0100. -/
theorem test_pla : (ran { startAt 0x0000 [0x68] [(0x0100, 0x80)] with sp := 0xFF }).map
    (fun t => (t.a, t.sp, t.p)) = some (0x80, 0x00, 0xA0) := by decide

/-- STK-12: PLP of 00: P=20. -/
theorem test_plp : (ran { startAt 0x0000 [0x28] [(0x01FF, 0x00)] with sp := 0xFE, p := 0xFF }).map
    (fun t => (t.sp, t.p)) = some (0xFF, 0x20) := by decide

/-- LS-2: LDA 0: Z=1, N=0. -/
theorem test_lda : (ran { startAt 0x0000 [0xA9, 0x00] [] with a := 0x55, p := 0xA0 }).map
    (fun t => (t.a, t.p)) = some (0x00, 0x22) := by decide

/-- LS-5: LDX AbsoluteY crossing. -/
theorem test_ldx : (ran { startAt 0x0000 [0xBE, 0xF0, 0x02] [(0x0310, 0x99)] with y := 0x20 }).map
    (fun t => (t.x, t.p, t.cyc)) = some (0x99, 0xA0, 4) := by decide

/-- LS-6: LDY ZeroPageX wrap. -/
theorem test_ldy : (ran { startAt 0x0000 [0xB4, 0x80] [(0x0010, 0x01)] with x := 0x90 }).map
    (fun t => (t.y, t.p)) = some (0x01, 0x20) := by decide

/-- LS-10: STA IndirectX: ptr=(10+F0) mod 256=00: lo=[0000]=81 (opcode), hi=[0001]=10: ea=1081. -/
theorem test_sta : (ran { startAt 0x0000 [0x81, 0x10] [(0x0000, 0x81), (0x0001, 0x10)] with a := 0xAB, x := 0xF0 }).map
    (fun t => (t.mem.read 0x1081, t.p)) = some (0xAB, 0x20) := by decide

/-- LS-8: STX writes 00; flags untouched. -/
theorem test_stx : (ran { startAt 0x0000 [0x86, 0x20] [(0x0020, 0xFF)] with x := 0x00 }).map
    (fun t => (t.mem.read 0x0020, t.p)) = some (0x00, 0x20) := by decide

/-- LS-9: STY ZeroPageX wrap: overwrites the opcode cell 0000. -/
theorem test_sty : (ran { startAt 0x0000 [0x94, 0xFF] [] with y := 0x07, x := 0x01 }).map
    (fun t => (t.mem.read 0x0000, t.p)) = some (0x07, 0x20) := by decide

/-- LS-12: TAX of 0. -/
theorem test_tax : (ran { startAt 0x0000 [0xAA] [] with a := 0x00, x := 0x33 }).map
    (fun t => (t.x, t.p)) = some (0x00, 0x22) := by decide

/-- LS-13: TAY. -/
theorem test_tay : (ran { startAt 0x0000 [0xA8] [] with a := 0x90 }).map
    (fun t => (t.y, t.p)) = some (0x90, 0xA0) := by decide

/-- LS-14: TXA. -/
theorem test_txa : (ran { startAt 0x0000 [0x8A] [] with x := 0x7F }).map
    (fun t => (t.a, t.p)) = some (0x7F, 0x20) := by decide

/-- LS-15: TYA. -/
theorem test_tya : (ran { startAt 0x0000 [0x98] [] with y := 0xFF }).map
    (fun t => (t.a, t.p)) = some (0xFF, 0xA0) := by decide

/-- LS-16: TSX after reset: X=FF, N=1. -/
theorem test_tsx : (ran (startAt 0x0000 [0xBA] [])).map
    (fun t => (t.x, t.p)) = some (0xFF, 0xA0) := by decide

/-- LS-17: TXS: no flag written (Z stays). -/
theorem test_txs : (ran { startAt 0x0000 [0x9A] [] with x := 0x80, p := 0x22 }).map
    (fun t => (t.sp, t.p)) = some (0x80, 0x22) := by decide

/-- AR-4: ADC 80+80+0. -/
theorem test_adc : (ran { startAt 0x0000 [0x69, 0x80] [] with a := 0x80, p := 0x20 }).map
    (fun t => (t.a, t.p)) = some (0x00, 0x63) := by decide

/-- AR-13: SBC 80-01-(1-1). -/
theorem test_sbc : (ran { startAt 0x0000 [0xE9, 0x01] [] with a := 0x80, p := 0x21 }).map
    (fun t => (t.a, t.p)) = some (0x7F, 0x61) := by decide

/-- AR-22: CMP with D=1 is binary and allowed; V kept. -/
theorem test_cmp : (ran { startAt 0x0000 [0xC9, 0x01] [] with a := 0x40, p := 0x68 }).map
    (fun t => (t.a, t.p)) = some (0x40, 0x69) := by decide

/-- AR-23: CPX equal. -/
theorem test_cpx : (ran { startAt 0x0000 [0xE0, 0x05] [] with x := 0x05 }).map
    (fun t => (t.x, t.p)) = some (0x05, 0x23) := by decide

/-- AR-24: CPY less. -/
theorem test_cpy : (ran { startAt 0x0000 [0xC0, 0x01] [] with y := 0x00 }).map
    (fun t => (t.y, t.p)) = some (0x00, 0xA0) := by decide

/-- AR-27: INC AbsoluteX crossing: 7+1 ticks. -/
theorem test_inc : (ran { startAt 0x0000 [0xFE, 0xFF, 0x02] [(0x0300, 0x7F)] with x := 0x01 }).map
    (fun t => (t.mem.read 0x0300, t.p, t.cyc)) = some (0x80, 0xA0, 7) := by decide

/-- AR-26: DEC 00 to FF: N=1. -/
theorem test_dec : (ran (startAt 0x0000 [0xC6, 0x20] [(0x0020, 0x00)])).map
    (fun t => (t.mem.read 0x0020, t.p)) = some (0xFF, 0xA0) := by decide

/-- AR-28: INX wrap. -/
theorem test_inx : (ran { startAt 0x0000 [0xE8] [] with x := 0xFF }).map
    (fun t => (t.x, t.p)) = some (0x00, 0x22) := by decide

/-- AR-29: INY to 80. -/
theorem test_iny : (ran { startAt 0x0000 [0xC8] [] with y := 0x7F }).map
    (fun t => (t.y, t.p)) = some (0x80, 0xA0) := by decide

/-- AR-30: DEX wrap. -/
theorem test_dex : (ran { startAt 0x0000 [0xCA] [] with x := 0x00 }).map
    (fun t => (t.x, t.p)) = some (0xFF, 0xA0) := by decide

/-- AR-31: DEY to 0. -/
theorem test_dey : (ran { startAt 0x0000 [0x88] [] with y := 0x01 }).map
    (fun t => (t.y, t.p)) = some (0x00, 0x22) := by decide

/-- CTL-2: JMP to itself: parking loop. -/
theorem test_jmp : (ran (startAt 0x0010 [0x4C, 0x10, 0x00] [])).map
    (fun t => (t.pc, t.cyc)) = some (0x0010, 2) := by decide

/-- MODE-17: Indirect, JMP_INDIRECT_PAGE_WRAP=false: hi from [1300]. -/
theorem test_jmp_indirect : (ran (startAt 0x0000 [0x6C, 0xFF, 0x12] [(0x1200, 0x78), (0x12FF, 0x34), (0x1300, 0x56)])).map
    (fun t => (t.pc, t.cyc)) = some (0x5634, 4) := by decide

/-- CTL-5: JSR at 12FE: ret=1300; SP=00: cells 0100 then 01FF. -/
theorem test_jsr : (ran { startAt 0x12FE [0x20, 0x00, 0x30] [] with sp := 0x00 }).map
    (fun t => (t.mem.read 0x0100, t.mem.read 0x01FF, t.sp, t.pc)) = some (0x13, 0x00, 0xFE, 0x3000) := by decide

/-- CTL-7: RTS pulled FFFF: PC wraps to 0000. -/
theorem test_rts : (ran { startAt 0x0000 [0x60] [(0x01FE, 0xFF), (0x01FF, 0xFF)] with sp := 0xFD }).map
    (fun t => (t.sp, t.pc)) = some (0xFF, 0x0000) := by decide

/-- CTL-9: RTI pulling P=00: bit 5 forced. -/
theorem test_rti : (ran { startAt 0x0040 [0x40] [(0x01FD, 0x00), (0x01FE, 0x00), (0x01FF, 0x80)] with sp := 0xFC, p := 0xFF }).map
    (fun t => (t.p, t.sp, t.pc)) = some (0x20, 0xFF, 0x8000) := by decide

/-- CTL-10: CLC. -/
theorem test_clc : (ran { startAt 0x0000 [0x18] [] with p := 0x21 }).map
    (fun t => t.p) = some 0x20 := by decide

/-- CTL-11: SEC. -/
theorem test_sec : (ran (startAt 0x0000 [0x38] [])).map
    (fun t => t.p) = some 0x21 := by decide

/-- CTL-12: CLI. -/
theorem test_cli : (ran { startAt 0x0000 [0x58] [] with p := 0x24 }).map
    (fun t => t.p) = some 0x20 := by decide

/-- CTL-13: SEI. -/
theorem test_sei : (ran (startAt 0x0000 [0x78] [])).map
    (fun t => t.p) = some 0x24 := by decide

/-- CTL-14: CLV. -/
theorem test_clv : (ran { startAt 0x0000 [0xB8] [] with p := 0x60 }).map
    (fun t => t.p) = some 0x20 := by decide

/-- CTL-15: CLD. -/
theorem test_cld : (ran { startAt 0x0000 [0xD8] [] with p := 0x28 }).map
    (fun t => t.p) = some 0x20 := by decide

/-- CTL-16: SED. -/
theorem test_sed : (ran (startAt 0x0000 [0xF8] [])).map
    (fun t => t.p) = some 0x28 := by decide

/-- CTL-17: NOP. -/
theorem test_nop : (ran { startAt 0x0000 [0xEA] [] with a := 0x12, p := 0xE3 }).map
    (fun t => (t.a, t.p, t.pc, t.cyc)) = some (0x12, 0xE3, 0x0001, 1) := by decide

/-- UND-2: undefined FF: one byte only; operand bytes not consumed. -/
theorem test_undefined : (ran { startAt 0x0000 [0xFF, 0xFF, 0xFF] [] with a := 0x12, x := 0x34, y := 0x56, p := 0xE3 }).map
    (fun t => (t.p, t.pc, t.cyc)) = some (0xE3, 0x0001, 1) := by decide

/-- MODE-11, MODE-19, STK-6, LS-11: the accesses that fault, with the address of the fault. -/
theorem test_faults :
    faultAt { startAt 0x0000 [0x1D, 0xFF, 0xFF] [] with x := 0x01 } = some 0x10000 ∧
    faultAt (startAt 0x0000 [0x6C, 0xFF, 0xFF] [(0xFFFF, 0x34)]) = some 0x10000 ∧
    faultAt { startAt 0x0000 [0x00] [] with cfg := { Config.default with memSize := 2000 } } = some 0xFFFE ∧
    faultAt { startAt 0x0000 [0x8D, 0xD0, 0x07] [] with cfg := { Config.default with memSize := 2000 } } = some 0x7D0 := by
  decide

/-- AR-17, AR-18: ADC and SBC with D = 1 are refused. -/
theorem test_decimal_refused :
    refusesDecimal { startAt 0x0000 [0x69, 0x01] [] with a := 0x09, p := 0x28 } = true ∧
    refusesDecimal { startAt 0x0000 [0xE9, 0x01] [] with a := 0x10, p := 0x29 } = true := by decide

/-- FLT-2, FLT-3: `PC` wraps modulo 65536 inside an instruction, and not at a smaller memory's end. -/
theorem test_fetch_wrap :
    faultAt { startAt 0x07CF [0xA9] [] with cfg := { Config.default with memSize := 2000 } } = some 0x7D0 ∧
    (ran (startAt 0xFFFF [0xA9] [(0x0000, 0x7F)])).map (fun t => (t.a, t.pc)) = some (0x7F, 0x0001) := by decide

/-- MODE-18: the Indirect mode with `JMP_INDIRECT_PAGE_WRAP` true reads the high byte from the pointer's own page. -/
theorem test_indirect_page_wrap :
    (ran { startAt 0x0000 [0x6C, 0xFF, 0x12] [(0x1200, 0x78), (0x12FF, 0x34), (0x1300, 0x56)] with
      cfg := { Config.default with jmpIndirectPageWrap := true } }).map (fun t => t.pc) = some 0x7834 := by decide

/-! ### Witnesses: each statement's hypotheses are met by a concrete state -/

/-- The instruction's operand resolves in `s` and can be read. -/
def Readable (i : Instr) (s : State) : Prop :=
  ∃ b opd pen v, opcodeOf i = some b ∧ resolve i.operand s = .ok (opd, pen) ∧ readOperand opd s = .ok v

/-- The instruction's operand resolves in `s` and its cell does not exist. -/
def Unreadable (i : Instr) (s : State) : Prop :=
  ∃ b opd pen f, opcodeOf i = some b ∧ resolve i.operand s = .ok (opd, pen) ∧ readOperand opd s = .error (.fault f)

/-- A pointer read of the instruction's resolver faults. -/
def PointerFaults (i : Instr) (s : State) : Prop :=
  ∃ b f, opcodeOf i = some b ∧ resolve i.operand s = .error (.fault f)

/-- The instruction's operand is the cell at `ea`. -/
def CellAt (i : Instr) (s : State) (ea : Nat) : Prop :=
  ∃ b pen, opcodeOf i = some b ∧ resolve i.operand s = .ok (.mem ea, pen)

/-- The bytes of a mode's instruction exist in `s`, the first of them at the top of memory. -/
def Fetchable (m : Mode) (n : Nat) (s : State) : Prop := (optable (byteAt s 0)).mode = m ∧ BytesExist s n

/-- A state whose instruction starts at 0xFFFE, so that its third byte is at 0x0000. -/
def atTop (bytes : List Byte) : State :=
  { startAt 0xFFFE bytes [] with mem := (startAt 0xFFFE bytes []).mem.write 0x0000 (bytes.getD 2 0x00) }

/-- The smallest and the largest memory; the last cell written by the driver; a first tick past, with and without
`HOST_WRITES_MEMORY`. -/
theorem witness_LaunchMemory : Config.default.wf = true ∧ ({ Config.default with memSize := 1 }).wf = true ∧
    0xFFFF < Config.default.memSize ∧
    (∃ r tt, Session.tick (.live false State.reset) = .ok (r, tt) ∧ tt.config.hostWritesMemory = false) ∧
    ({ State.reset with cfg := { Config.default with hostWritesMemory := true } }).cfg.hostWritesMemory = true :=
  ⟨by decide, by decide, by decide, ⟨_, _, rfl, rfl⟩, rfl⟩

/-- R36: the driver's write of a cell is free before the first tick, after `reset()` too, and not after it. -/
theorem test_host_write :
    Session.hostWrite 0x0000 0xEA ((Session.neverReset Config.default []).reset []) =
      .ok (.live false { State.reset with mem := [(0x0000, 0xEA)] }) ∧
    Session.hostWrite 0x0000 0xEA (.live true State.reset) = .error .hostWriteDisabled := ⟨rfl, rfl⟩

theorem witness_MemoryWritePort : State.reset.mem.wf = true ∧ 0xFFFF < State.reset.cfg.memSize ∧
    State.reset.cfg.memSize ≤ 0x10000 := by decide

theorem witness_MemoryRoundTrip : Memory.wf [(0x01FF, 0x5A)] = true ∧ ∀ w ∈ [(0x01FE, 0x01#8)], w.1 ≠ 0x01FF := by decide

theorem witness_MemoryCanonical : Memory.wf [(0, 0x01), (0xFFFF, 0x80)] = true ∧
    (∀ addr, Memory.read [(0, 0x01), (0xFFFF, 0x80)] addr = (writeAll [] [(0xFFFF, 0x80), (0, 0x01)]).read addr) ∧
    State.reset.mem.wf = true ∧ ∃ t, memWrite State.reset 0xFFFF 0x80 = .ok t :=
  ⟨by decide, fun _ => rfl, by decide, _, rfl⟩

theorem witness_FlagBankContract : (7 < 8 ∧ 7 = Flag.n.bit) ∧ (5 < 8 ∧ 5 ≠ Flag.n.bit) ∧ Flag.v ≠ Flag.n := by decide

theorem witness_SetNZFlags : 6 < 8 ∧ 6 ≠ 7 ∧ 6 ≠ 1 := by decide

theorem witness_PushAndPull :
    pushed { sized 0x101 with sp := 0x00 } 0 < 0x101 ∧ 0x1FF ≤ pushed (sized 0x1FF) 0 ∧
    pulled (sized 0x101) 1 < 0x101 ∧ 0x100 ≤ pulled (sized 0x100) 1 := by decide

theorem witness_StackRoundTrip : (sized 0x200).mem.wf = true ∧ pushed (sized 0x200) 0 < (sized 0x200).cfg.memSize ∧
    0x200 ≤ (sized 0x200).cfg.memSize ∧ (List.replicate 256 0x5A#8).length = 256 :=
  ⟨by decide, by decide, by decide, List.length_replicate⟩

theorem witness_OpcodeTableTotal : isUndefined 0x02 = true ∧ isUndefined 0xFF = true ∧ isUndefined 0x00 = false := by decide

theorem witness_DecodeEncode : (Instr.jmp (.indirect 0xFFFF)).wf = true ∧ (Instr.undefined 0x02).wf = true ∧
    (Instr.bpl (.relative 0x80)).wf = true := by decide

theorem witness_EncodeDecode : decode [0x6C, 0xFF, 0xFF, 0x00] = .ok (.jmp (.indirect 0xFFFF), [0x00]) := rfl

theorem witness_ResolverDirectModes :
    Fetchable .implied 1 (startAt 0xFFFF [0xEA] []) ∧ Fetchable .accumulator 1 (startAt 0xFFFF [0x0A] []) ∧
    Fetchable .immediate 2 (startAt 0xFFFE [0x09, 0xFF] []) ∧ Fetchable .zeroPage 2 (startAt 0xFFFE [0x05, 0xFF] []) ∧
    Fetchable .zeroPageX 2 { startAt 0xFFFE [0x15, 0xFF] [] with x := 0x01 } ∧
    Fetchable .zeroPageY 2 { startAt 0xFFFE [0xB6, 0xFF] [] with y := 0x01 } ∧
    Fetchable .absolute 3 (atTop [0x0D, 0xFF, 0xFF]) ∧ Fetchable .relative 2 (startAt 0xFFFE [0x10, 0x80] []) := by
  unfold Fetchable BytesExist
  decide

theorem witness_ResolverIndexedModes :
    Fetchable .absoluteX 3 { atTop [0x1D, 0xFF, 0xFF] with x := 0xFF } ∧
    Fetchable .absoluteY 3 { atTop [0x19, 0xFF, 0x00] with y := 0x01 } := by
  unfold Fetchable BytesExist
  decide

/-- One state for each outcome of the two pointer reads: neither cell missing, the first, the second. -/
theorem witness_ResolverPointerModes :
    Fetchable .indirectX 2 { startAt 0x0000 [0x01, 0xFE] [] with x := 0x01 } ∧
    (Fetchable .indirectX 2 { sized 0x80 with mem := [(0, 0x01), (1, 0x80)] } ∧ 0x80 ≤ (0x80 + 0x00) % 256) ∧
    (Fetchable .indirectX 2 { sized 0x80 with mem := [(0, 0x01), (1, 0x7F)] } ∧ ¬ 0x80 ≤ 0x7F ∧ 0x80 ≤ (0x7F + 1) % 256) ∧
    Fetchable .indirectY 2 { startAt 0x0000 [0x11, 0xFF] [] with y := 0xFF } ∧
    (Fetchable .indirectY 2 { sized 0x80 with mem := [(0, 0x11), (1, 0x80)] } ∧ 0x80 ≤ 0x80) ∧
    (Fetchable .indirectY 2 { sized 0x80 with mem := [(0, 0x11), (1, 0x7F)] } ∧ ¬ 0x80 ≤ 0x7F ∧ 0x80 ≤ (0x7F + 1) % 256) := by
  unfold Fetchable BytesExist
  decide

/-- The pointer's low byte is 0xFF: without the wrap the high byte is past the top, with it in the pointer's page. -/
theorem witness_ResolverIndirectMode :
    Fetchable .indirect 3 (startAt 0x0000 [0x6C, 0xFF, 0xFF] []) ∧
    Fetchable .indirect 3 { startAt 0x0000 [0x6C, 0xFF, 0xFF] [] with
      cfg := { Config.default with jmpIndirectPageWrap := true } } ∧
    Fetchable .indirect 3 { sized 0x80 with mem := [(0, 0x6C), (1, 0x80)] } := by
  unfold Fetchable BytesExist
  decide

theorem witness_StepRunsDecodedInstruction : 0 < ({ State.reset with cyc := 1 }).cyc ∧ State.reset.cyc = 0 ∧
    decode [byteAt (atTop [0x0D, 0x34, 0x12]) 0, byteAt (atTop [0x0D, 0x34, 0x12]) 1, byteAt (atTop [0x0D, 0x34, 0x12]) 2]
      = .ok (.ora (.absolute 0x1234), []) ∧ BytesExist (atTop [0x0D, 0x34, 0x12]) 3 :=
  ⟨by decide, rfl, rfl, by unfold BytesExist; decide⟩

/-- One state for each clause: the first, second and third byte of an instruction is the first missing one. -/
theorem witness_FetchFaults :
    ¬ BytesExist { sized 2 with pc := 0x0002 } 1 ∧
    (BytesExist { sized 2 with pc := 0x0001, mem := [(1, 0x09)] } 1 ∧
      ¬ BytesExist { sized 2 with pc := 0x0001, mem := [(1, 0x09)] } 2 ∧ 1 ≤ (optable 0x09).mode.operandBytes) ∧
    (BytesExist { sized 2 with mem := [(0, 0x0D)] } 2 ∧ ¬ BytesExist { sized 2 with mem := [(0, 0x0D)] } 3 ∧
      (optable 0x0D).mode.operandBytes = 2) := by
  unfold BytesExist
  decide

theorem witness_TickResultSequence : State.reset.cyc = 0 ∧ (ran (startAt 0x0000 [0xEA] [])).isSome = true := by decide

theorem witness_CycleBound : State.reset.cfg.baseCycleChanges = [] ∧
    (ran { startAt 0x0000 [0x1E, 0xFF, 0x00] [] with x := 0x01 }).map (fun t => t.cyc) = some 7 ∧
    (ran { State.reset with cyc := 7 }).map (fun t => t.cyc) = some 6 := by decide

/-- A readable operand in the last cell, one just past it, and a pointer that leaves memory. -/
theorem witness_LogicalOperations :
    Readable (.ora (.absolute 0x01FF)) (sized 0x200) ∧ Readable (.and (.immediate 0x00)) (sized 0x200) ∧
    Readable (.eor (.zeroPageX 0xFF)) (sized 0x200) ∧ Unreadable (.ora (.absolute 0x0200)) (sized 0x200) ∧
    Unreadable (.and (.absoluteX 0x0200)) (sized 0x200) ∧ Unreadable (.eor (.absoluteY 0xFFFF)) (sized 0x200) ∧
    PointerFaults (.ora (.indirectX 0x80)) (sized 0x80) ∧ PointerFaults (.and (.indirectY 0x80)) (sized 0x80) ∧
    PointerFaults (.eor (.indirectY 0x7F)) (sized 0x80) :=
  ⟨⟨_, _, _, _, rfl, rfl, rfl⟩, ⟨_, _, _, _, rfl, rfl, rfl⟩, ⟨_, _, _, _, rfl, rfl, rfl⟩, ⟨_, _, _, _, rfl, rfl, rfl⟩,
    ⟨_, _, _, _, rfl, rfl, rfl⟩, ⟨_, _, _, _, rfl, rfl, rfl⟩, ⟨_, _, rfl, rfl⟩, ⟨_, _, rfl, rfl⟩, ⟨_, _, rfl, rfl⟩⟩

/-- Cells just inside and just outside memory. -/
theorem witness_ShiftsAndRotates :
    (CellAt (.asl (.absolute 0x01FF)) (sized 0x200) 0x1FF ∧ 0x1FF < 0x200) ∧
    (CellAt (.rol (.absolute 0x0200)) (sized 0x200) 0x200 ∧ 0x200 ≤ 0x200) ∧
    CellAt (.lsr (.zeroPage 0x00)) (sized 0x200) 0x00 ∧ CellAt (.ror (.absoluteX 0xFFFF)) { sized 0x200 with x := 0x01 } 0x10000 :=
  ⟨⟨⟨_, _, rfl, rfl⟩, by decide⟩, ⟨⟨_, _, rfl, rfl⟩, by decide⟩, ⟨_, _, rfl, rfl⟩, ⟨_, _, rfl, rfl⟩⟩

theorem witness_BitTest : Readable (.bit (.absolute 0x01FF)) (sized 0x200) ∧ Unreadable (.bit (.absolute 0x0200)) (sized 0x200) :=
  ⟨⟨_, _, _, _, rfl, rfl, rfl⟩, ⟨_, _, _, _, rfl, rfl, rfl⟩⟩

/-- A taken branch to its own address (displacement −2), and the same flag the other way. -/
theorem witness_ConditionalBranches :
    (getFlag 0x20 .n = false ∧ ((0x0010 : Addr).toNat : Int) = (((0x0012 : Addr).toNat : Int) + (0xFE : Byte).toInt) % 65536) ∧
    getFlag 0xA0 .n ≠ false := by decide

theorem witness_PushAndPullStatus : 0x100 ≤ pulled (sized 0x100) 1 ∧ pulled (sized 0x101) 1 < (sized 0x101).cfg.memSize := by
  decide

/-- The whole entry, and each of the five cells as the first missing one: the vector's two, then the pushed ones. -/
theorem witness_BrkEntry : (State.reset.mem.wf = true ∧ (∀ k < 3, pushed State.reset k < State.reset.cfg.memSize) ∧
    State.reset.cfg.brkVector + 1 < State.reset.cfg.memSize) ∧
    firstMissing (sized 2000) (brkAccesses (sized 2000)) = some 0xFFFE ∧
    firstMissing (sized 0xFFFF) (brkAccesses (sized 0xFFFF)) = some 0xFFFF ∧
    firstMissing (sized 0x1FF) (brkAccesses (sized 0x1FF)) = some 0x1FF ∧
    firstMissing { sized 0x1FF with sp := 0x00 } (brkAccesses { sized 0x1FF with sp := 0x00 }) = some 0x1FF ∧
    pushed { sized 0x1FF with sp := 0x00 } 1 = 0x1FF ∧
    firstMissing { sized 0x1FF with sp := 0x01 } (brkAccesses { sized 0x1FF with sp := 0x01 }) = some 0x1FF ∧
    pushed { sized 0x1FF with sp := 0x01 } 2 = 0x1FF := by decide

theorem witness_BrkTrapStep : (State.reset.mem.wf = true ∧ State.reset.cyc = 0 ∧ State.reset.pc.toNat < State.reset.cfg.memSize ∧
    byteAt State.reset 0 = 0x00 ∧ (∀ k < 3, pushed State.reset k < State.reset.cfg.memSize) ∧
    State.reset.cfg.brkVector + 1 < State.reset.cfg.memSize ∧ State.reset.cfg.baseCycleChanges = []) ∧
    ((sized 2000).cyc = 0 ∧ (sized 2000).pc.toNat < (sized 2000).cfg.memSize ∧ byteAt (sized 2000) 0 = 0x00 ∧
      firstMissing (sized 2000) (brkAccesses (sized 2000)) = some 0xFFFE) := by decide

theorem witness_Loads :
    Readable (.lda (.absolute 0x01FF)) (sized 0x200) ∧ Readable (.ldx (.zeroPageY 0xFF)) (sized 0x200) ∧
    Readable (.ldy (.immediate 0x80)) (sized 0x200) ∧ Unreadable (.lda (.absolute 0x0200)) (sized 0x200) ∧
    Unreadable (.ldx (.absoluteY 0x0200)) (sized 0x200) ∧ Unreadable (.ldy (.absolute 0x0200)) (sized 0x200) ∧
    PointerFaults (.lda (.indirectY 0x7F)) (sized 0x80) :=
  ⟨⟨_, _, _, _, rfl, rfl, rfl⟩, ⟨_, _, _, _, rfl, rfl, rfl⟩, ⟨_, _, _, _, rfl, rfl, rfl⟩, ⟨_, _, _, _, rfl, rfl, rfl⟩,
    ⟨_, _, _, _, rfl, rfl, rfl⟩, ⟨_, _, _, _, rfl, rfl, rfl⟩, ⟨_, _, rfl, rfl⟩⟩

theorem witness_Stores :
    (CellAt (.sta (.absolute 0x01FF)) (sized 0x200) 0x1FF ∧ 0x1FF < 0x200) ∧
    (CellAt (.sta (.absoluteX 0x0200)) (sized 0x200) 0x200 ∧ 0x200 ≤ 0x200) ∧
    CellAt (.stx (.zeroPageY 0xFF)) { sized 0x200 with y := 0x01 } 0x00 ∧ CellAt (.stx (.absolute 0x0200)) (sized 0x200) 0x200 ∧
    CellAt (.sty (.zeroPageX 0xFF)) { sized 0x200 with x := 0x01 } 0x00 ∧ CellAt (.sty (.absolute 0x0200)) (sized 0x200) 0x200 ∧
    PointerFaults (.sta (.indirectX 0x7F)) (sized 0x80) :=
  ⟨⟨⟨_, _, rfl, rfl⟩, by decide⟩, ⟨⟨_, _, rfl, rfl⟩, by decide⟩, ⟨_, _, rfl, rfl⟩, ⟨_, _, rfl, rfl⟩, ⟨_, _, rfl, rfl⟩,
    ⟨_, _, rfl, rfl⟩, ⟨_, _, rfl, rfl⟩⟩

/-- A store to its own instruction's address: each of the three forms runs, and the stored cell is at `PC`. -/
theorem witness_StoreSeenByFetch : State.reset.mem.wf = true ∧
    (∀ i ∈ [Instr.sta (.absolute 0xFFFF), .stx (.absolute 0xFFFF), .sty (.absolute 0xFFFF)],
      resolve i.operand State.reset = .ok (.mem 0xFFFF, 0) ∧ ∃ t, exec i State.reset = .next t) ∧
    (0xFFFF : Addr).toNat = 0xFFFF := by
  refine ⟨by decide, ?_, rfl⟩
  simp only [List.mem_cons, List.not_mem_nil, or_false, forall_eq_or_imp, forall_eq]
  exact ⟨⟨rfl, _, rfl⟩, ⟨rfl, _, rfl⟩, ⟨rfl, _, rfl⟩⟩

/-- D = 0 and D = 1, and an operand that cannot be read. -/
theorem witness_AddWithCarry : Readable (.adc (.immediate 0xFF)) State.reset ∧ getFlag State.reset.p .d = false ∧
    Readable (.adc (.immediate 0xFF)) { State.reset with p := 0x28 } ∧ getFlag 0x28 .d = true ∧
    Unreadable (.adc (.absolute 0x0200)) (sized 0x200) ∧ PointerFaults (.adc (.indirectX 0x80)) (sized 0x80) :=
  ⟨⟨_, _, _, _, rfl, rfl, rfl⟩, rfl, ⟨_, _, _, _, rfl, rfl, rfl⟩, rfl, ⟨_, _, _, _, rfl, rfl, rfl⟩, ⟨_, _, rfl, rfl⟩⟩

theorem witness_SubtractWithBorrow : Readable (.sbc (.absolute 0xFFFF)) State.reset ∧ getFlag State.reset.p .d = false ∧
    Readable (.sbc (.immediate 0x01)) { State.reset with p := 0x29 } ∧ getFlag 0x29 .d = true ∧
    Unreadable (.sbc (.absolute 0x0200)) (sized 0x200) ∧ PointerFaults (.sbc (.indirectY 0x7F)) (sized 0x80) :=
  ⟨⟨_, _, _, _, rfl, rfl, rfl⟩, rfl, ⟨_, _, _, _, rfl, rfl, rfl⟩, rfl, ⟨_, _, _, _, rfl, rfl, rfl⟩, ⟨_, _, rfl, rfl⟩⟩

theorem witness_Compares :
    Readable (.cmp (.indirectY 0xFF)) State.reset ∧ Readable (.cpx (.immediate 0xFF)) State.reset ∧
    Readable (.cpy (.absolute 0xFFFF)) State.reset ∧ Unreadable (.cmp (.absolute 0x0200)) (sized 0x200) ∧
    Unreadable (.cpx (.absolute 0x0200)) (sized 0x200) ∧ Unreadable (.cpy (.absolute 0x0200)) (sized 0x200) ∧
    PointerFaults (.cmp (.indirectX 0x80)) (sized 0x80) :=
  ⟨⟨_, _, _, _, rfl, rfl, rfl⟩, ⟨_, _, _, _, rfl, rfl, rfl⟩, ⟨_, _, _, _, rfl, rfl, rfl⟩, ⟨_, _, _, _, rfl, rfl, rfl⟩,
    ⟨_, _, _, _, rfl, rfl, rfl⟩, ⟨_, _, _, _, rfl, rfl, rfl⟩, ⟨_, _, rfl, rfl⟩⟩

theorem witness_MemoryIncrement :
    (CellAt (.inc (.absolute 0x01FF)) (sized 0x200) 0x1FF ∧ 0x1FF < 0x200) ∧
    (CellAt (.dec (.absolute 0x0200)) (sized 0x200) 0x200 ∧ 0x200 ≤ 0x200) ∧
    CellAt (.dec (.zeroPage 0x00)) (sized 0x200) 0x00 ∧ CellAt (.inc (.absoluteX 0x0200)) (sized 0x200) 0x200 :=
  ⟨⟨⟨_, _, rfl, rfl⟩, by decide⟩, ⟨⟨_, _, rfl, rfl⟩, by decide⟩, ⟨_, _, rfl, rfl⟩, ⟨_, _, rfl, rfl⟩⟩

/-- A pointer whose low byte is 0xFF, with the page wrap; and one past the top without it. -/
theorem witness_JumpIndirect :
    resolve (.indirect 0x12FF) { State.reset with mem := [(0x12FF, 0x34)] } = .ok (.mem (0x0034 : Addr).toNat, 0) ∧
    resolve (.indirect 0xFFFF) State.reset = .error (.fault (.addressingFault 0x10000)) := ⟨rfl, rfl⟩

/-- Both pushed cells there, the first missing, and the second (SP wraps) missing. -/
theorem witness_JumpToSubroutine : (State.reset.mem.wf = true ∧
    ∀ k < 2, pushed { State.reset with sp := 0x00 } k < State.reset.cfg.memSize) ∧
    firstMissing (sized 0x1FF) [pushed (sized 0x1FF) 0, pushed (sized 0x1FF) 1] = some 0x1FF ∧
    (let s := { sized 0x1FF with sp := 0x00 };
      pushed s 0 = 0x100 ∧ firstMissing s [pushed s 0, pushed s 1] = some 0x1FF) := by decide

/-- All pulled cells there, and each of the three as the first missing one. -/
theorem witness_Returns :
    (∀ k, 1 ≤ k → k ≤ 3 → pulled { sized 0x200 with sp := 0xFF } k < (sized 0x200).cfg.memSize) ∧
    (let s := sized 0x100;
      firstMissing s [pulled s 1, pulled s 2] = some 0x100 ∧ firstMissing s [pulled s 1, pulled s 2, pulled s 3] = some 0x100) ∧
    (let s := sized 0x101;
      firstMissing s [pulled s 1, pulled s 2] = some 0x101 ∧ firstMissing s [pulled s 1, pulled s 2, pulled s 3] = some 0x101) ∧
    (let s := sized 0x102;
      firstMissing s [pulled s 1, pulled s 2, pulled s 3] = some 0x102) := by
  refine ⟨fun k h1 h3 => ?_, by decide, by decide, by decide⟩
  obtain rfl | rfl | rfl : k = 1 ∨ k = 2 ∨ k = 3 := by omega
  all_goals decide

theorem witness_NopAndUndefined : (0x02 : Byte) ∈ undefinedOpcodes ∧ (0xFF : Byte) ∈ undefinedOpcodes ∧
    State.reset.cfg.baseCycleChanges = [] ∧ State.reset.cyc = 0 ∧ State.reset.pc.toNat < State.reset.cfg.memSize ∧
    0 < ({ State.reset with cyc := 1 }).cyc := by decide

/-- SED runs, and its flag list leaves C out. -/
theorem witness_FlagFrame : ∃ t, exec .sed State.reset = .next t ∧ Flag.c ∉ flagsWritten Operation.sed ∧
    State.reset.p.getLsbD 5 = true := ⟨_, rfl, by decide, by decide⟩

theorem witness_RegisterFrame : (∃ t, exec .inx State.reset = .next t ∧ writesA .inx = false ∧ writesY .inx = false ∧
      transfersControl .inx = false) ∧ (∃ t, exec .txs State.reset = .next t ∧ writesX .txs = false) :=
  ⟨⟨_, rfl, by decide, by decide, by decide⟩, ⟨_, rfl, by decide⟩⟩

theorem witness_MemoryFrame :
    (∃ t, exec (.sta (.absolute 0xFFFF)) State.reset = .next t ∧ writesOperand .sta = true ∧
      resolve (.absolute 0xFFFF) State.reset = .ok (.mem 0xFFFF, 0) ∧ 0xFFFE ≠ 0xFFFF) ∧
    (∃ t, exec (.jsr (.absolute 0x1000)) State.reset = .next t ∧ ∀ k < pushCount .jsr, 0x1FD ≠ pushed State.reset k) :=
  ⟨⟨_, rfl, rfl, rfl, by decide⟩, ⟨_, rfl, by decide⟩⟩

theorem witness_OperandFaults :
    ((Instr.sta (.absolute 0x0200)).wf = true ∧ CellAt (.sta (.absolute 0x0200)) (sized 0x200) 0x200) ∧
    ((Instr.lda (.indirectY 0x7F)).wf = true ∧ PointerFaults (.lda (.indirectY 0x7F)) (sized 0x80)) ∧
    step { sized 2 with pc := 0x0002 } = .fault (.addressingFault 2) :=
  ⟨⟨by decide, ⟨_, _, rfl, rfl⟩⟩, ⟨by decide, ⟨_, _, rfl, rfl⟩⟩, rfl⟩

theorem witness_Refusals :
    ((Instr.adc (.immediate 0x01)).wf = true ∧ Decimal (.adc (.immediate 0x01)) { State.reset with p := 0x28 } ∧
      Readable (.adc (.immediate 0x01)) { State.reset with p := 0x28 }) ∧
    (Instr.sta (.immediate 0x01)).wf = false ∧
    step { startAt 0x0000 [0xE9, 0x01] [] with p := 0x28 } = .refused .decimalMode :=
  ⟨⟨by decide, ⟨.inl rfl, rfl⟩, ⟨_, _, _, _, rfl, rfl, rfl⟩⟩, by decide, rfl⟩

/-- The full memory, with an access past its top and none; decimal mode. -/
theorem witness_FullMemoryOutcomes : State.reset.cfg.wf = true ∧ State.reset.cfg.memSize = 65536 ∧ State.reset.cyc = 0 ∧
    addressPastTop (.absoluteX 0xFFFF) State.reset = none ∧
    addressPastTop (.absoluteX 0xFFFF) { State.reset with x := 0x01 } = some 0x10000 ∧
    addressPastTop (.indirect 0xFFFF) State.reset = some 0x10000 ∧ ¬ Decimal (.jmp (.indirect 0xFFFF)) State.reset ∧
    Decimal (.sbc (.immediate 0x00)) { State.reset with p := 0x28 } := by
  refine ⟨by decide, rfl, rfl, by decide, by decide, by decide, ?_, .inr rfl, rfl⟩
  rintro ⟨h | h, -⟩ <;> exact absurd h (by decide)

theorem reset_inv : State.reset.Inv := ⟨by decide, by decide, by decide, by decide⟩

theorem witness_StepKeepsInv : State.reset.Inv ∧ ∃ t, step State.reset = .next t := ⟨reset_inv, _, rfl⟩

/-- A tick that faults, a reset after it, and a write by the driver before the first reset. -/
theorem witness_SessionEventsKeepInv :
    (Session.live false State.reset).Inv ∧ (∃ r t, Session.event .tick (.live false State.reset) = .ok (r, t)) ∧
    Session.Inv (.faulted Config.default [] [0x01FF]) ∧
    (∃ r t, Session.event (.reset [0x5A]) (.faulted Config.default [] [0x01FF]) = .ok (r, t)) ∧
    Session.Inv (.neverReset Config.default []) ∧
    (∃ r t, Session.event (.write 0xFFFF 0x5A) (.neverReset Config.default []) = .ok (r, t)) :=
  ⟨reset_inv, ⟨_, _, rfl⟩, ⟨by decide, by decide, by decide, by decide⟩, ⟨_, _, rfl⟩, ⟨by decide, by decide, by decide⟩,
    ⟨_, _, rfl⟩⟩

theorem witness_TimingIndependence :
    State.reset.withoutTiming =
      ({ State.reset with cyc := 7, cfg := { Config.default with baseCycleChanges := [(0xEA, 9)] } }).withoutTiming ∧
    State.reset.withoutTiming =
      ({ State.reset with cfg := { Config.default with baseCycleChanges := [(0xEA, 9)] } }).withoutTiming := by decide

theorem witness_ReturnsUndoEntries : State.reset.mem.wf = true ∧ State.reset.p.getLsbD 5 = true ∧
    0x200 ≤ State.reset.cfg.memSize ∧ State.reset.cfg.brkVector + 1 < State.reset.cfg.memSize := by decide

/-- Each premise of the four clauses: D rises by SED, B falls by PLP, B rises by BRK, I changes by SEI. -/
theorem witness_FlagSources :
    (∃ t, exec .sed State.reset = .next t ∧ getFlag State.reset.p .d = false ∧ getFlag t.p .d = true) ∧
    (∃ t, exec .plp { State.reset with p := 0x30 } = .next t ∧ getFlag 0x30 .b = true ∧ getFlag t.p .b = false) ∧
    (∃ t, exec .brk State.reset = .next t ∧ getFlag State.reset.p .b = false ∧ getFlag t.p .b = true) ∧
    (∃ t, exec .sei State.reset = .next t ∧ getFlag State.reset.p .i ≠ getFlag t.p .i) :=
  ⟨⟨_, rfl, by decide, by decide⟩, ⟨_, rfl, by decide, by decide⟩, ⟨_, rfl, by decide, by decide⟩, ⟨_, rfl, by decide⟩⟩

/-- A fault of BRK in a memory without the vector: its three pushed cells are at risk, the cell beside them is not. -/
theorem witness_FaultIsTerminal :
    (∃ ss, Session.tick (.live false (sized 2000)) = .ok (.addressingFault 0xFFFE, ss)) ∧
    cellsAtRisk (sized 2000) = [0x1FF, 0x1FE, 0x1FD] ∧ 0x1FC ∉ cellsAtRisk (sized 2000) :=
  ⟨⟨_, rfl⟩, by decide, by decide⟩

end Sys2Proof.Tests
end

section
/-! The state family: the reset event, the Flag Bank and `SetNZ`. -/

namespace Sys2Proof.Machine

open Sys2Proof.Claims

/-! ### The fetch tick -/

/-- R100: an idle engine fetches. -/
theorem step_of_idle {s : State} (h : s.cyc = 0) : step s = fetchTick s := by
  simp [step, tick, h]

/-! ### The flags of a result -/

/-- N of a result as a bit and as a comparison (R23). -/
theorem getLsbD_seven_eq_decide (v : Byte) : v.getLsbD 7 = decide (128 ≤ v.toNat) := by
  rw [← BitVec.msb_eq_getLsbD_last, BitVec.msb_eq_decide]

/-- Z of a result as a comparison of bytes and of numbers (R23). -/
theorem beq_zero_eq_decide_toNat (v : Byte) : (v == 0#8) = decide (v.toNat = 0) := by
  rw [beq_eq_decide, decide_eq_decide, BitVec.toNat_eq, BitVec.toNat_zero]

/-- `SetNZ` bit by bit (R23). -/
theorem getLsbD_setNZ (p v : Byte) (k : Nat) :
    (setNZ p v).getLsbD k =
      if k = Flag.z.bit then v == 0#8 else if k = Flag.n.bit then v.getLsbD 7 else p.getLsbD k := by
  rw [setNZ, getLsbD_setFlag, getLsbD_setFlag]

/-- `SetNZ` in the words of the statements (R23). -/
theorem setNZ_eq_withFlags (p v : Byte) : setNZ p v = withFlags p (nz v) := by
  rw [setNZ, getLsbD_seven_eq_decide, beq_zero_eq_decide_toNat]
  rfl

/-! ### The statements -/

/-- Settles O7: the bit positions are those of the definition, and the frame of `set` is `getLsbD_setFlag`, of which
the two clauses about `get` after `set` are the instance at a flag's bit. -/
theorem flagBankContract : Obligations.FlagBankContract := by
  refine ⟨⟨rfl, rfl, rfl, rfl, rfl, rfl, rfl⟩, fun p f => rfl, fun p f v k _ => getLsbD_setFlag p f v k, ?_⟩
  exact fun p f g v => ⟨getFlag_setFlag_same p f v, getFlag_setFlag_other p v⟩

/-- Settles O1: the reset event leaves `CYC = 0`, so the next tick fetches. -/
theorem resetRegisters : Obligations.ResetRegisters := by
  refine ⟨fun s => rfl, fun s => step_of_idle rfl, rfl, ?_, rfl⟩
  intro f
  cases f <;> rfl

/-- Settles O8: N and Z by `getFlag_setNZ`, the other bits by `getLsbD_setNZ`. -/
theorem setNZFlags : Obligations.SetNZFlags := by
  intro p v
  refine ⟨?_, ?_, ?_, setNZ_eq_withFlags p v⟩
  · rw [getFlag_setNZ, if_pos rfl]
  · rw [getFlag_setNZ, if_neg (by decide), if_pos rfl, beq_eq_decide]
  · intro k _ hn hz
    rw [getLsbD_setNZ, if_neg (show k ≠ Flag.z.bit from hz), if_neg (show k ≠ Flag.n.bit from hn)]

end Sys2Proof.Machine
end

section
/-! The memory family: the write port (R42). -/

namespace Sys2Proof.Machine

/-- Settles O4: `memWrite` inside the array is `Memory.write` at the address, whose two read laws give the written cell
and the other cells; the canonical form is what the first of them needs. -/
theorem memoryWritePort : Obligations.MemoryWritePort := by
  intro s addr v hwf
  refine ⟨fun hin => ⟨s.mem.write addr v, memWrite_inside hin, ?_, ?_⟩, memWrite_outside⟩
  · exact Memory.read_write_same s.mem addr v hwf
  · exact fun other hne => Memory.read_write_other s.mem addr other v hne

end Sys2Proof.Machine
end

section
/-! The addressing-mode family: the bytes of an instruction (R60 to R63), the resolver (R80 to R94) and operand access
(R95, R96). -/

namespace Sys2Proof.Machine

open Sys2Proof.Claims

/-! ### The bytes of an instruction -/

/-- `Fetch8` from a cell that exists (R16). -/
theorem fetch8_inside {s : State} (h : s.pc.toNat < s.cfg.memSize) :
    fetch8 s = .ok (s.mem.read s.pc.toNat, s.withPc (s.pc + 1#16)) := fetch8_ok.mpr ⟨h, rfl, rfl⟩

/-- The `Fetch8` that reads byte `k` of the instruction at `s.pc`, when that cell exists (R16, R17). -/
theorem fetch8_withPc_add {s : State} {n k : Nat} (h : BytesExist s n) (hk : k < n) :
    fetch8 (s.withPc (s.pc + BitVec.ofNat 16 k)) =
      .ok (byteAt s k, s.withPc (s.pc + BitVec.ofNat 16 (k + 1))) := by
  rw [fetch8_inside (h k hk), State.withPc_pc, BitVec.add_assoc, ← BitVec.ofNat_add]
  rfl

theorem operandBytes_le_two (m : Mode) : m.operandBytes ≤ 2 := by cases m <;> decide

/-- An opcode without operand bytes decides the instruction alone (R60, R62). -/
theorem instrAt_of_operandBytes_zero {b : Byte} (h : (optable b).mode.operandBytes = 0) (x y x' y' : Byte) :
    instrAt b x y = instrAt b x' y' := by
  have operand : operandOf (optable b).mode x y = operandOf (optable b).mode x' y' := by
    revert h
    cases (optable b).mode <;> simp [operandOf, Mode.operandBytes]
  rw [instrAt, operand, instrAt]

/-- An opcode with one operand byte does not look at the byte after it (R60, R62). -/
theorem instrAt_of_operandBytes_one {b : Byte} (h : (optable b).mode.operandBytes = 1) (x y y' : Byte) :
    instrAt b x y = instrAt b x y' := by
  have operand : operandOf (optable b).mode x y = operandOf (optable b).mode x y' := by
    revert h
    cases (optable b).mode <;> simp [operandOf, Mode.operandBytes]
  rw [instrAt, operand, instrAt]

/-- The fetch of an instruction whose bytes all exist: the instruction of the bytes from `PC` on, and `PC` past it
(R15, R60). -/
theorem fetch_of_bytesExist {s : State}
    (h : BytesExist s (1 + (optable (byteAt s 0)).mode.operandBytes)) :
    fetch s = .ok (instrAt (byteAt s 0) (byteAt s 1) (byteAt s 2),
      s.withPc (s.pc + BitVec.ofNat 16 (1 + (optable (byteAt s 0)).mode.operandBytes))) := by
  have opcode : fetch8 s = .ok (byteAt s 0, s.withPc (s.pc + BitVec.ofNat 16 1)) := by
    simpa [State.withPc] using fetch8_withPc_add h (k := 0) (by omega)
  rw [fetch, opcode]
  simp only [bind, Except.bind]
  split
  · next hzero =>
    rw [hzero, instrAt_of_operandBytes_zero hzero 0#8 0#8 (byteAt s 1) (byteAt s 2)]
    rfl
  · next hone =>
    rw [fetch8_withPc_add h (k := 1) (by omega), hone, instrAt_of_operandBytes_one hone _ (byteAt s 2) 0#8]
    rfl
  · next hzero hone =>
    have htwo : (optable (byteAt s 0)).mode.operandBytes = 2 := by
      have hle := operandBytes_le_two (optable (byteAt s 0)).mode
      change _ ≠ _ at hzero hone
      omega
    rw [fetch8_withPc_add h (k := 1) (by omega)]
    simp only [fetch8_withPc_add h (k := 2) (by omega), htwo]
    rfl

/-! ### The resolver -/

/-- `Resolve` does not look at `PC` (R80). -/
@[simp] theorem resolve_withPc (m : Operand) (s : State) (w : Addr) : resolve m (s.withPc w) = resolve m s := by
  cases m <;> rfl

/-- What a mode resolves to is a matter of the operand its bytes make (R63, R80); the fetch gives that operand. -/
theorem resolves_of_operandOf {m : Mode} {result : State → Except Stop (Opd × Nat)}
    (h : ∀ s, resolve (operandOf m (byteAt s 1) (byteAt s 2)) s = result s) :
    Resolves m (1 + m.operandBytes) result := by
  rintro s rfl hb
  refine ⟨_, fetch_of_bytesExist hb, ?_⟩
  rw [instrAt_operand, ← h s]
  exact resolve_withPc _ s _

/-- Two bytes composed as the statements write the number (R5). -/
theorem compose_toNat_eq_mul_add (hi lo : Byte) : (compose hi lo).toNat = 256 * hi.toNat + lo.toNat := by
  rw [compose_toNat, Nat.mul_comm]

/-- `sext_16` is the two's complement value of a byte (R5). -/
theorem sext16_eq_toInt (b : Byte) : sext16 b = b.toInt := by
  rw [sext16, BitVec.toInt_eq_toNat_cond]
  split <;> split <;> omega

/-- The penalty of the model is the one of the statements (R94). -/
theorem pagePenalty_eq_crossing (base : Addr) (ea : Nat) : pagePenalty base ea = crossing base.toNat ea := rfl

/-- An indexed little-endian base: its address, not reduced, and its penalty (R88, R89, R91). -/
theorem indexed_compose (hi lo index : Byte) : indexed (compose hi lo) index =
    (.mem (256 * hi.toNat + lo.toNat + index.toNat),
      crossing (256 * hi.toNat + lo.toNat) (256 * hi.toNat + lo.toNat + index.toNat)) := by
  rw [indexed, pagePenalty_eq_crossing, compose_toNat_eq_mul_add]

/-- Reading a zero-page pair and going on with it: the first missing cell faults, the low byte's before the high
byte's, whose address wraps (R90, R91, R58). -/
theorem zeroPagePair_bind {α : Type} (s : State) (ptr : Byte) (k : Addr → Except Stop α) :
    zeroPagePair s ptr >>= k =
      if s.cfg.memSize ≤ ptr.toNat then .error (.fault (.addressingFault ptr.toNat))
      else if s.cfg.memSize ≤ (ptr.toNat + 1) % 256 then .error (.fault (.addressingFault ((ptr.toNat + 1) % 256)))
      else k (compose (s.mem.read ((ptr.toNat + 1) % 256)) (s.mem.read ptr.toNat)) := by
  have succ : (ptr + 1#8).toNat = (ptr.toNat + 1) % 256 := by simp
  rw [← succ]
  split
  · next hlo => rw [zeroPagePair, memRead_outside hlo]; rfl
  · next hlo =>
    split
    · next hhi => rw [zeroPagePair, memRead_inside (Nat.lt_of_not_le hlo), memRead_outside hhi]; rfl
    · next hhi =>
      rw [zeroPagePair_ok.mpr ⟨Nat.lt_of_not_le hlo, Nat.lt_of_not_le hhi, rfl⟩]
      rfl

/-! ### The statements -/

/-- Settles O15: the operands of these modes are resolved without a read, so the three kinds of number remain: a sum
modulo 256, a composed pair and a sign extension. -/
theorem resolverDirectModes : Obligations.ResolverDirectModes := by
  refine ⟨?implied, ?accumulator, ?immediate, ?zeroPage, ?zeroPageX, ?zeroPageY, ?absolute, ?relative⟩ <;>
    refine resolves_of_operandOf fun s => ?_
  case zeroPageX => rw [operandOf, resolve, BitVec.toNat_add]
  case zeroPageY => rw [operandOf, resolve, BitVec.toNat_add]
  case absolute => rw [operandOf, resolve, compose_toNat_eq_mul_add]
  case relative => rw [operandOf, resolve, sext16_eq_toInt]
  all_goals rfl

/-- Settles O16: both modes index the composed pair (`indexed_compose`). -/
theorem resolverIndexedModes : Obligations.ResolverIndexedModes :=
  ⟨resolves_of_operandOf fun s => congrArg Except.ok (indexed_compose _ _ s.x),
    resolves_of_operandOf fun s => congrArg Except.ok (indexed_compose _ _ s.y)⟩

/-- Settles O17: both modes read the pair by `zeroPagePair_bind`; the pointer of IndirectX is a sum modulo 256, the
pair of IndirectY is indexed. -/
theorem resolverPointerModes : Obligations.ResolverPointerModes := by
  refine ⟨resolves_of_operandOf fun s => ?indirectX, resolves_of_operandOf fun s => ?indirectY⟩
  case indirectX =>
    rw [operandOf, resolve, zeroPagePair_bind, BitVec.toNat_add, compose_toNat_eq_mul_add]
    rfl
  case indirectY =>
    rw [operandOf, resolve, zeroPagePair_bind, indexed_compose]
    rfl

/-- Settles O20: the accumulator and the immediate byte by definition, the cell by the memory port inside and outside
the array. -/
theorem operandAccess : Obligations.OperandAccess := by
  intro s v ea
  refine ⟨rfl, rfl, ?read, rfl, ?write⟩
  case read =>
    split
    · next hout => exact memRead_outside hout
    · next hin => exact memRead_inside (Nat.lt_of_not_le hin)
  case write =>
    split
    · next hout => exact memWrite_outside hout
    · next hin => exact memWrite_inside (Nat.lt_of_not_le hin)

end Sys2Proof.Machine
end

section
/-! The execution-engine family: the countdown (R102, R104), the entries that do nothing (R109, R232) and the outcomes
of a fetch tick with the whole memory (R107). -/

namespace Sys2Proof.Machine

open Sys2Proof.Claims

/-! ### The countdown and the fetch tick -/

/-- R102: a busy engine counts down. -/
theorem step_of_busy {s : State} (h : 0 < s.cyc) : step s = .next (countdownTick s) := if_pos h

/-- A run whose first step answers a next state goes on from it. -/
theorem run_succ_of_next {M : Host.Core} {s t : M.State} (h : M.step s = .next t) (k : Nat) :
    M.run (k + 1) s = M.run k t := by
  simp only [Host.Core.run, h]

/-- As many ticks as `CYC` allows are all countdown ticks (R102). -/
theorem run_of_le_cyc {k : Nat} {t : State} (h : k ≤ t.cyc) :
    Host.Core.run Sys2Proof.core k t = .next (t.withCyc (t.cyc - k)) := by
  induction k generalizing t with
  | zero => rfl
  | succ k ih =>
    have busy : core.step t = .next (countdownTick t) := step_of_busy (Nat.lt_of_lt_of_le k.succ_pos h)
    have rest : k ≤ (countdownTick t).cyc := Nat.le_sub_one_of_lt h
    rw [run_succ_of_next busy, ih rest, Nat.add_comm, ← Nat.sub_sub]
    rfl

/-- R104: a countdown tick reports `InProgress`. -/
theorem tickResult_of_busy {s : State} (h : 0 < s.cyc) : tickResult s = .inProgress := if_pos h

/-- R104: a fetch tick reports `Completed`. -/
theorem tickResult_of_idle {s : State} (h : s.cyc = 0) : tickResult s = .completed :=
  if_neg (Nat.not_lt.mpr h.le)

/-- R101: an idle engine runs the instruction it fetches. -/
theorem step_of_fetch {s t : State} {i : Instr} (h : s.cyc = 0) (hf : fetch s = .ok (i, t)) : step s = exec i t := by
  rw [step_of_idle h, fetchTick, hf]

/-! ### Opcode rows and undefined opcodes -/

/-- The opcode bytes of a defined operation are those of the instruction rules' lists (R68, R73). -/
theorem mem_opcodesOf {b : Byte} (h : (optable b).operation ≠ .undefined) :
    ((optable b).mode, b) ∈ opcodesOf (optable b).operation := by
  obtain ⟨-, -, hlookup⟩ := optable_entry b
  obtain ⟨l, r, hl, -⟩ := List.lookup_eq_some_iff.mp (hlookup h)
  simp [hl]

/-- A list of rows is an operation's rows when each is an entry of the map and they cover the operation's opcodes. -/
theorem hasRows_of_opcodesOf {o : Operation} {rows : List (Byte × Mode × Nat)} (ho : o ≠ .undefined)
    (hrows : ∀ r ∈ rows, optable r.1 = ⟨o, r.2.1, r.2.2, false⟩)
    (hall : ∀ e ∈ opcodesOf o, e.2 ∈ rows.map Prod.fst) : HasRows o rows := by
  refine ⟨hrows, ?_⟩
  rintro b rfl
  exact hall _ (mem_opcodesOf ho)

/-- The undefined flag marks exactly the bytes of R69. -/
theorem isUndefined_iff {b : Byte} : isUndefined b = true ↔ b ∈ undefinedOpcodes := by
  constructor
  · intro hflag
    by_contra hb
    have defined : (optable b).operation ≠ .undefined := fun h => hb ((optable_entry b).2.1 h)
    obtain ⟨-, -, hclear⟩ := opcodesOf_in_table _ _ (mem_opcodesOf defined)
    rw [isUndefined, hclear] at hflag
    cases hflag
  · intro hb
    rw [isUndefined, undefinedOpcodes_in_table b hb]
    rfl

/-- The trace flag of a fetch tick whose opcode byte exists (R70). -/
theorem tickRunsUndefined_of_idle {s : State} (h : s.cyc = 0) (hpc : s.pc.toNat < s.cfg.memSize) :
    tickRunsUndefined s = isUndefined (byteAt s 0) := by
  simp [tickRunsUndefined, h, memRead_inside hpc, byteAt]

/-- The trace flag of a countdown tick is clear (R70). -/
theorem tickRunsUndefined_of_busy {s : State} (h : 0 < s.cyc) : tickRunsUndefined s = false := by
  simp [tickRunsUndefined, h.ne']

/-! ### Running an entry -/

/-- A one-byte instruction on registers and flags alone completes (R101). -/
theorem exec_of_registerOp {i : Instr} {f : State → State} {b : Byte} (hb : opcodeOf i = some b)
    (him : i.operand = .implied) (hex : executionOf i = registerOp f) (s : State) :
    exec i s = .next ((f s).withCyc (ticksLeft s b 0)) :=
  exec_next.mpr ⟨b, .none, 0, f s, 0, hb, by rw [him]; rfl, by rw [hex]; rfl, rfl⟩

/-- Settles O23: `run_of_le_cyc` for the ticks after the fetch tick, and the reports by `CYC`. -/
theorem tickResultSequence : Obligations.TickResultSequence := by
  intro s t hidle _
  refine ⟨tickResult_of_idle hidle, fun k hk => run_of_le_cyc hk, fun k hk => ?_, tickResult_of_idle rfl⟩
  exact tickResult_of_busy (Nat.sub_pos_of_lt hk)

/-- Settles O48: both operations are the identity on registers (`exec_of_registerOp`); the trace flag is the opcode
byte's, which marks exactly the undefined ones (`isUndefined_iff`). -/
theorem nopAndUndefined : Obligations.NopAndUndefined := by
  refine ⟨hasRows_of_opcodesOf (by decide) (by decide) (by decide), exec_of_registerOp rfl rfl rfl, ?undefined, ?count,
    ?traced, fun s => tickRunsUndefined_of_busy⟩
  case undefined =>
    intro b hb s
    have opcode : opcodeOf (.undefined b) = some b := by simp [opcodeOf, hb]
    rw [exec_of_registerOp opcode rfl rfl, ticksLeft, State.baseCycles_undefined hb]
    rfl
  case count =>
    intro s hcfg
    rw [ticksLeft, State.baseCycles_table hcfg]
    rfl
  case traced =>
    intro s hidle hpc
    rw [tickRunsUndefined_of_idle hidle hpc, isUndefined_iff]

end Sys2Proof.Machine
end

section
/-! What every well-formed instruction does with the descriptor its operand resolves to: it completes where the cells it
uses exist, and faults at an operand's cell that does not. -/

namespace Sys2Proof

/-- The modes whose descriptor is a memory operand (R84 to R91, R93). -/
def Mode.hasAddress : Mode → Bool
  | .implied | .accumulator | .immediate | .relative => false
  | .zeroPage | .zeroPageX | .zeroPageY | .absolute | .absoluteX | .absoluteY | .indirectX | .indirectY
  | .indirect => true

/-- The modes whose descriptor `WriteOperand` is defined for (R96). -/
def Mode.writable (m : Mode) : Bool := m == .accumulator || m.hasAddress

/-- The modes whose descriptor `ReadOperand` is defined for (R95). -/
def Mode.readable (m : Mode) : Bool := m == .immediate || m.writable

/-- A mode that is written back is read as well (R96). -/
theorem Mode.readable_of_writable {m : Mode} (h : m.writable = true) : m.readable = true := by
  rw [Mode.readable, h, Bool.or_true]

end Sys2Proof

namespace Sys2Proof.Machine

open Sys2Proof.Claims

/-! ### Modes and descriptors -/

/-- A mode with an address resolves to a memory operand (R84 to R91, R93). -/
theorem resolve_hasAddress {m : Operand} {s : State} {opd : Opd} {pen : Nat}
    (hr : resolve m s = .ok (opd, pen)) (hm : m.mode.hasAddress = true) : ∃ ea, opd = .mem ea := by
  cases m with
  | implied | accumulator | immediate | relative => cases hm
  | indirectX | indirectY | indirect =>
    obtain ⟨w, -, h⟩ := bind_ok_iff.mp hr
    cases h
    exact ⟨_, rfl⟩
  | zeroPage | zeroPageX | zeroPageY | absolute | absoluteX | absoluteY =>
    cases hr
    exact ⟨_, rfl⟩

/-- A writable mode resolves to a descriptor `WriteOperand` is defined for (R96). -/
theorem resolve_writable {m : Operand} {s : State} {opd : Opd} {pen : Nat}
    (hr : resolve m s = .ok (opd, pen)) (hm : m.mode.writable = true) : opd = .acc ∨ ∃ ea, opd = .mem ea := by
  cases m with
  | accumulator => cases hr; exact .inl rfl
  | _ => exact .inr (resolve_hasAddress hr hm)

/-- A readable mode resolves to a descriptor `ReadOperand` is defined for (R95). -/
theorem resolve_readable {m : Operand} {s : State} {opd : Opd} {pen : Nat}
    (hr : resolve m s = .ok (opd, pen)) (hm : m.mode.readable = true) :
    (∃ v, opd = .imm v) ∨ opd = .acc ∨ ∃ ea, opd = .mem ea := by
  cases m with
  | immediate v => cases hr; exact .inl ⟨v, rfl⟩
  | _ => exact .inr (resolve_writable hr hm)

/-- The Relative mode resolves to a displacement (R92). -/
theorem resolve_relative {m : Operand} {s : State} {opd : Opd} {pen : Nat} (hr : resolve m s = .ok (opd, pen))
    (hm : m.mode = .relative) : ∃ d, opd = .rel d := by
  cases m with
  | relative disp => cases hr; exact ⟨_, rfl⟩
  | _ => cases hm

/-- The operand's cell exists, if it has one. -/
def Opd.Inside (opd : Opd) (s : State) : Prop := ∀ ea, opd = .mem ea → ea < s.cfg.memSize

/-- An operand of a readable mode is read where its cell exists (R95). -/
theorem readOperand_inside {m : Operand} {s : State} {opd : Opd} {pen : Nat} (hr : resolve m s = .ok (opd, pen))
    (hm : m.mode.readable = true) (hin : opd.Inside s) : ∃ v, readOperand opd s = .ok v := by
  obtain ⟨v, rfl⟩ | rfl | ⟨ea, rfl⟩ := resolve_readable hr hm
  · exact ⟨v, rfl⟩
  · exact ⟨s.a, rfl⟩
  · exact ⟨_, memRead_inside (hin ea rfl)⟩

/-- An operand of a writable mode is written where its cell exists (R96), from any state with the same array. -/
theorem writeOperand_inside {m : Operand} {s t : State} {opd : Opd} {pen : Nat} {v : Byte}
    (hr : resolve m s = .ok (opd, pen)) (hm : m.mode.writable = true) (hin : opd.Inside t) :
    ∃ u, writeOperand opd v t = .ok u := by
  obtain rfl | ⟨ea, rfl⟩ := resolve_writable hr hm
  · exact ⟨_, rfl⟩
  · exact ⟨_, memWrite_inside (hin ea rfl)⟩

/-! ### The Stack Unit where its page exists -/

/-- The cells of the stack page (R14) and of the BRK vector (R165) exist. -/
def State.StackExists (s : State) : Prop := 0x200 ≤ s.cfg.memSize ∧ s.cfg.brkVector + 1 < s.cfg.memSize

theorem stackAddr_lt (sp : Byte) : stackAddr sp < 0x200 := by
  have := sp.isLt
  rw [stackAddr]
  omega

theorem push_inside {s : State} {v : Byte} (h : s.StackExists) :
    push s v = .ok ((s.withMem (s.mem.write (stackAddr s.sp) v)).withSp (s.sp - 1#8)) :=
  push_ok.mpr ⟨Nat.lt_of_lt_of_le (stackAddr_lt _) h.1, rfl⟩

theorem pull_inside {s : State} (h : s.StackExists) :
    pull s = .ok (s.mem.read (stackAddr (s.sp + 1#8)), s.withSp (s.sp + 1#8)) :=
  pull_ok.mpr ⟨Nat.lt_of_lt_of_le (stackAddr_lt _) h.1, rfl, rfl⟩

theorem trapEntry_inside {s : State} (h : s.StackExists) : ∃ t, trapEntry s = .ok t :=
  ⟨_, trapEntry_ok.mpr ⟨_, _, _, push_inside h, push_inside h, push_inside h, Nat.lt_of_succ_lt h.2, h.2, rfl⟩⟩

theorem trapReturn_inside {s : State} (h : s.StackExists) : ∃ t, trapReturn s = .ok t :=
  ⟨_, trapReturn_ok.mpr ⟨_, _, _, _, _, _, pull_inside h, pull_inside h, pull_inside h, rfl⟩⟩

/-! ### The shape of every instruction -/

/-- The shape of operation an instruction runs, with what its operand and its stack accesses meet (R98). -/
inductive RunsAs (i : Instr) : Execution → Prop where
  | register (f : State → State) : i.operand = .implied → RunsAs i (registerOp f)
  | read (f : State → Byte → State) : i.operand.mode.readable = true → RunsAs i (readOp f)
  | store (value : State → Byte) : i.operand.mode.writable = true → RunsAs i (storeOp value)
  | shift (f : Bool → Byte → Byte × Bool) : i.operand.mode.writable = true → RunsAs i (shiftOp f)
  | modify (f : Byte → Byte) : i.operand.mode.writable = true → RunsAs i (modifyOp f)
  | binary (f : Byte → Byte → Bool → AddResult) : i.operation = .adc ∨ i.operation = .sbc →
      i.operand.mode.readable = true → RunsAs i (binaryOp f)
  | branch (f : Flag) (want : Bool) : i.operand.mode = .relative → RunsAs i (branchOp f want)
  | stack (f : State → Except Stop State) : i.operand = .implied →
      (∀ s : State, s.StackExists → ∃ t, f s = .ok t) → RunsAs i (stackOp f)
  | address (f : State → Addr → Except Stop State) : i.operation = .jmp ∨ i.operation = .jsr →
      i.operand.mode.hasAddress = true → (∀ s ea, s.StackExists → ∃ t, f s ea = .ok t) →
      RunsAs i (addressOp f)

/-- A well-formed instruction's operand is in a mode of its operation (R98). -/
theorem mode_mem_of_wf {i : Instr} (h : i.wf = true) : i.operand.mode ∈ i.operation.modes := by
  by_cases hu : i.operation = .undefined
  · cases i with
    | undefined => exact List.mem_singleton.mpr rfl
    | _ => cases hu
  · exact List.contains_iff_mem.mp (wf_eq i hu ▸ h)

/-- What holds of all modes of an operation holds of a well-formed instruction's. -/
theorem mode_of_wf {i : Instr} {P : Mode → Bool} (h : i.wf = true) (hP : i.operation.modes.all P = true) :
    P i.operand.mode = true := List.all_eq_true.mp hP _ (mode_mem_of_wf h)

/-- Every well-formed instruction runs one of the shared shapes (R8, R111). -/
theorem runsAs_of_wf {i : Instr} (h : i.wf = true) : RunsAs i (executionOf i) := by
  cases i with
  | ora | and | eor | bit | lda | ldx | ldy | cmp | cpx | cpy => exact .read _ (mode_of_wf h rfl)
  | sta | stx | sty => exact .store _ (mode_of_wf h rfl)
  | asl | rol | lsr | ror => exact .shift _ (mode_of_wf h rfl)
  | inc | dec => exact .modify _ (mode_of_wf h rfl)
  | adc => exact .binary _ (.inl rfl) (mode_of_wf h rfl)
  | sbc => exact .binary _ (.inr rfl) (mode_of_wf h rfl)
  | bpl | bmi | bvc | bvs | bcc | bcs | bne | beq =>
    exact .branch _ _ (eq_of_beq (mode_of_wf (P := (· == .relative)) h rfl))
  | tax | tay | txa | tya | tsx | txs | inx | iny | dex | dey | clc | sec | cli | sei | clv | cld | sed | nop
  | undefined => exact .register _ rfl
  | php | pha => exact .stack _ rfl fun s hs => ⟨_, push_inside hs⟩
  | pla | plp => exact .stack _ rfl fun s hs => ⟨_, bind_ok_iff.mpr ⟨_, pull_inside hs, rfl⟩⟩
  | brk => exact .stack _ rfl fun s hs => trapEntry_inside hs
  | rti => exact .stack _ rfl fun s hs => trapReturn_inside hs
  | rts =>
    exact .stack _ rfl fun s hs =>
      ⟨_, bind_ok_iff.mpr ⟨_, pull_inside hs, bind_ok_iff.mpr ⟨_, pull_inside hs, rfl⟩⟩⟩
  | jmp => exact .address _ (.inl rfl) (mode_of_wf h rfl) fun s ea _ => ⟨_, rfl⟩
  | jsr =>
    rw [executionOf, executeJsr]
    refine .address _ (.inr rfl) (mode_of_wf h rfl) fun s ea hs => ?_
    exact ⟨_, bind_ok_iff.mpr ⟨_, push_inside hs, bind_ok_iff.mpr ⟨_, push_inside hs, rfl⟩⟩⟩

/-! ### What an instruction does with its descriptor -/

/-- Every shape answers where the cells it uses exist; ADC and SBC need binary mode besides (R202). -/
theorem RunsAs.completes {i : Instr} {ex : Execution} {s : State} {opd : Opd} {pen : Nat} (h : RunsAs i ex)
    (hr : resolve i.operand s = .ok (opd, pen)) (hin : opd.Inside s) (hs : s.StackExists) (hd : ¬ Decimal i s) :
    ∃ u n, ex opd s = .ok (u, n) := by
  cases h with
  | register f _ => exact ⟨_, _, rfl⟩
  | read f hm =>
    obtain ⟨v, hv⟩ := readOperand_inside hr hm hin
    exact ⟨_, _, readOp_ok.mpr ⟨v, hv, rfl, rfl⟩⟩
  | store value hm =>
    obtain ⟨u, hu⟩ := writeOperand_inside hr hm hin
    exact ⟨_, _, storeOp_ok.mpr ⟨hu, rfl⟩⟩
  | shift f hm =>
    obtain ⟨v, hv⟩ := readOperand_inside hr (Mode.readable_of_writable hm) hin
    obtain ⟨u, hu⟩ := writeOperand_inside hr hm (t := s.setFlag .c _) hin
    exact ⟨_, _, shiftOp_ok.mpr ⟨v, u, hv, hu, rfl, rfl⟩⟩
  | modify f hm =>
    obtain ⟨v, hv⟩ := readOperand_inside hr (Mode.readable_of_writable hm) hin
    obtain ⟨u, hu⟩ := writeOperand_inside hr hm hin
    exact ⟨_, _, modifyOp_ok.mpr ⟨v, u, hv, hu, rfl, rfl⟩⟩
  | binary f hop hm =>
    obtain ⟨v, hv⟩ := readOperand_inside hr hm hin
    have clear : getFlag s.p .d = false := Bool.eq_false_iff.mpr fun hset => hd ⟨hop, hset⟩
    exact ⟨_, _, binaryOp_ok.mpr ⟨v, hv, clear, rfl, rfl⟩⟩
  | branch f want hm =>
    obtain ⟨d, rfl⟩ := resolve_relative hr hm
    by_cases taken : getFlag s.p f = want
    · exact ⟨_, _, branchOp_ok.mpr ⟨d, rfl, .inl ⟨taken, rfl, rfl⟩⟩⟩
    · exact ⟨_, _, branchOp_ok.mpr ⟨d, rfl, .inr ⟨taken, rfl, rfl⟩⟩⟩
  | stack f _ hf =>
    obtain ⟨t, ht⟩ := hf s hs
    exact ⟨_, _, stackOp_ok.mpr ⟨ht, rfl⟩⟩
  | address f _ hm hf =>
    obtain ⟨ea, rfl⟩ := resolve_hasAddress hr hm
    obtain ⟨t, ht⟩ := hf s (BitVec.ofNat 16 ea) hs
    exact ⟨_, _, addressOp_ok.mpr ⟨ea, rfl, ht, rfl⟩⟩

/-- An operation that uses its operand's cell faults where it does not exist (R95, R96); JMP and JSR use only its
address (R98). -/
theorem RunsAs.faults {i : Instr} {ex : Execution} {s : State} {ea pen : Nat} (h : RunsAs i ex)
    (hr : resolve i.operand s = .ok (.mem ea, pen)) (hout : s.cfg.memSize ≤ ea)
    (hop : ¬ (i.operation = .jmp ∨ i.operation = .jsr)) :
    ex (.mem ea) s = .error (.fault (.addressingFault ea)) := by
  have read : readOperand (.mem ea) s = .error (.fault (.addressingFault ea)) := memRead_outside hout
  have implied : i.operand ≠ .implied := fun him => by rw [him] at hr; cases hr
  cases h with
  | register f him => exact absurd him implied
  | read f _ => rw [readOp, read]; rfl
  | store value _ => rw [storeOp, writeOperand, memWrite_outside hout]; rfl
  | shift f _ => rw [shiftOp, read]; rfl
  | modify f _ => rw [modifyOp, read]; rfl
  | binary f _ _ => rw [binaryOp, read]; rfl
  | branch f want hm => obtain ⟨d, hd⟩ := resolve_relative hr hm; cases hd
  | stack f him _ => exact absurd him implied
  | address f hjump _ _ => exact absurd hjump hop

/-- An operation that stops ends the instruction (R101). -/
theorem exec_of_stop {i : Instr} {s : State} {opd : Opd} {pen : Nat} {e : Stop} (hw : i.wf = true)
    (hr : resolve i.operand s = .ok (opd, pen)) (he : executionOf i opd s = .error e) :
    exec i s = finish (.error e) := by
  obtain ⟨b, hb⟩ := opcodeOf_of_wf hw
  simp only [exec_eq_runEntry, runEntry, hb, hr, he, bind, Except.bind]

/-- A resolver that stops ends the instruction (R101). -/
theorem exec_of_resolve_stop {i : Instr} {s : State} {e : Stop} (hw : i.wf = true)
    (hr : resolve i.operand s = .error e) : exec i s = finish (.error e) := by
  obtain ⟨b, hb⟩ := opcodeOf_of_wf hw
  simp only [exec_eq_runEntry, runEntry, hb, hr, bind, Except.bind]

/-- A well-formed instruction completes where its operand's cell and the stack exist, unless it is met in decimal
mode. -/
theorem exec_completes {i : Instr} {s : State} {opd : Opd} {pen : Nat} (hw : i.wf = true)
    (hr : resolve i.operand s = .ok (opd, pen)) (hin : opd.Inside s) (hs : s.StackExists) (hd : ¬ Decimal i s) :
    ∃ t, exec i s = .next t := by
  obtain ⟨b, hb⟩ := opcodeOf_of_wf hw
  obtain ⟨u, n, hu⟩ := (runsAs_of_wf hw).completes hr hin hs hd
  exact ⟨_, exec_next.mpr ⟨b, opd, pen, u, n, hb, hr, hu, rfl⟩⟩

/-- A well-formed instruction that uses its operand's cell faults where it does not exist (R95, R96). -/
theorem exec_faults_outside {i : Instr} {s : State} {ea pen : Nat} (hw : i.wf = true)
    (hr : resolve i.operand s = .ok (.mem ea, pen)) (hout : s.cfg.memSize ≤ ea)
    (hop : ¬ (i.operation = .jmp ∨ i.operation = .jsr)) : exec i s = .fault (.addressingFault ea) :=
  exec_of_stop hw hr ((runsAs_of_wf hw).faults hr hout hop)

/-- ADC and SBC with a readable operand are refused in decimal mode (R202). -/
theorem exec_decimal {i : Instr} {s : State} {opd : Opd} {pen : Nat} (hw : i.wf = true) (hd : Decimal i s)
    (hr : resolve i.operand s = .ok (opd, pen)) {v : Byte} (hv : readOperand opd s = .ok v) :
    exec i s = .refused .decimalMode := by
  obtain ⟨hop, hflag⟩ := hd
  have binary : ∃ f, executionOf i = binaryOp f := by
    cases i with
    | adc | sbc => exact ⟨_, rfl⟩
    | _ => rcases hop with h | h <;> cases h
  obtain ⟨f, hf⟩ := binary
  have refused : executionOf i opd s = .error (.refused .decimalMode) := by
    rw [hf, binaryOp, hv]
    exact if_pos hflag
  exact exec_of_stop hw hr refused

end Sys2Proof.Machine
end

section
/-! The outcomes of a fetch tick with the whole memory (R107). -/

namespace Sys2Proof.Machine

open Sys2Proof.Claims

/-- The whole 16-bit address space is memory (R3). -/
def State.Full (s : State) : Prop := s.cfg.memSize = 65536

theorem State.Full.addr_lt {s : State} (h : s.Full) (w : Addr) : w.toNat < s.cfg.memSize := h ▸ w.isLt

theorem State.Full.byte_lt {s : State} (h : s.Full) (v : Byte) : v.toNat < s.cfg.memSize :=
  h ▸ Nat.lt_trans v.isLt (by decide)

/-- Every byte of an instruction exists (R107). -/
theorem State.Full.bytesExist {s : State} (h : s.Full) (n : Nat) : BytesExist s n := fun _ _ => h.addr_lt _

/-- With legal parameters the stack page and the vector exist (R3). -/
theorem State.Full.stackExists {s : State} (h : s.Full) (hcfg : s.cfg.wf = true) : s.StackExists := by
  have vector : s.cfg.brkVector ≤ 0xFFFE := by
    simp only [Config.wf, Bool.and_eq_true, decide_eq_true_eq] at hcfg
    exact hcfg.1.2
  rw [State.StackExists, h]
  omega

/-! ### The resolver with the whole memory -/

/-- The address past the top that an operand descriptor carries, if it does. -/
def Opd.pastTop : Opd → Option Nat
  | .mem ea => if 0x10000 ≤ ea then some ea else Option.none
  | .none | .acc | .imm _ | .rel _ => Option.none

theorem Opd.inside_of_pastTop_none {opd : Opd} {s : State} (hs : s.Full) (h : opd.pastTop = Option.none) :
    opd.Inside s := by
  rintro ea rfl
  rw [hs]
  simpa [Opd.pastTop] using h

theorem Opd.eq_mem_of_pastTop_some {opd : Opd} {a : Nat} (h : opd.pastTop = some a) : opd = .mem a ∧ 0x10000 ≤ a := by
  cases opd with
  | mem ea =>
    simp only [Opd.pastTop, Option.ite_none_right_eq_some, Option.some.injEq] at h
    obtain ⟨hle, rfl⟩ := h
    exact ⟨rfl, hle⟩
  | _ => cases h

/-- An address of the instruction stream or a composed pair is never past the top. -/
theorem Opd.pastTop_addr (w : Addr) : (Opd.mem w.toNat).pastTop = Option.none := if_neg (Nat.not_le.mpr w.isLt)

theorem Opd.pastTop_byte (v : Byte) : (Opd.mem v.toNat).pastTop = Option.none :=
  if_neg (Nat.not_le.mpr (Nat.lt_trans v.isLt (m := 2 ^ 8) (by decide)))

/-- The Indirect mode's address past the top is its second pointer byte's (R93, R107). -/
theorem addressPastTop_indirect (ptr : Addr) (s : State) : addressPastTop (.indirect ptr) s =
    (Opd.mem (indirectHighAddr s.cfg.jmpIndirectPageWrap ptr)).pastTop := by
  cases hwrap : s.cfg.jmpIndirectPageWrap with
  | false => simp [addressPastTop, hwrap, Opd.pastTop, indirectHighAddr]
  | true => simp [addressPastTop, hwrap, indirectHighAddr, Opd.pastTop_addr]

/-- The second pointer byte of the Indirect mode is read after the first, and its fault is the resolver's (R93). -/
theorem resolve_indirect_outside {ptr : Addr} {s : State} (hlow : ptr.toNat < s.cfg.memSize)
    (hhigh : s.cfg.memSize ≤ indirectHighAddr s.cfg.jmpIndirectPageWrap ptr) : resolve (.indirect ptr) s =
      .error (.fault (.addressingFault (indirectHighAddr s.cfg.jmpIndirectPageWrap ptr))) := by
  rw [resolve, indirectPair, memRead_inside hlow, memRead_outside hhigh]
  rfl

/-- With the whole memory the resolver faults only in the Indirect mode, at the address past the top; what it answers
otherwise is past the top exactly as the spec's condition says (R107). -/
theorem resolve_full {s : State} (hs : s.Full) (m : Operand) :
    (∃ a, resolve m s = .error (.fault (.addressingFault a)) ∧ addressPastTop m s = some a) ∨
      ∃ opd pen, resolve m s = .ok (opd, pen) ∧ addressPastTop m s = opd.pastTop := by
  cases m with
  | implied | accumulator | immediate | relative => exact .inr ⟨_, _, rfl, rfl⟩
  | zeroPage | zeroPageX | zeroPageY => exact .inr ⟨_, _, rfl, (Opd.pastTop_byte _).symm⟩
  | absolute => exact .inr ⟨_, _, rfl, (Opd.pastTop_addr _).symm⟩
  | absoluteX | absoluteY => exact .inr ⟨_, _, rfl, rfl⟩
  | indirectX zp =>
    have pair := zeroPagePair_ok.mpr ⟨hs.byte_lt (zp + s.x), hs.byte_lt _, rfl⟩
    exact .inr ⟨_, _, by rw [resolve, pair]; rfl, (Opd.pastTop_addr _).symm⟩
  | indirectY zp =>
    have pair := zeroPagePair_ok.mpr ⟨hs.byte_lt zp, hs.byte_lt _, rfl⟩
    refine .inr ⟨_, _, by rw [resolve, pair]; rfl, ?_⟩
    simp [addressPastTop, Opd.pastTop, compose_toNat, Nat.mul_comm, Nat.add_comm]
  | indirect ptr =>
    rw [addressPastTop_indirect]
    by_cases high : indirectHighAddr s.cfg.jmpIndirectPageWrap ptr < s.cfg.memSize
    · have pair := indirectPair_ok.mpr ⟨hs.addr_lt ptr, high, rfl⟩
      refine .inr ⟨_, _, by rw [resolve, pair]; rfl, ?_⟩
      rw [Opd.pastTop_addr]
      exact if_neg (Nat.not_le.mpr (hs ▸ high))
    · have outside := Nat.le_of_not_lt high
      exact .inl ⟨_, resolve_indirect_outside (hs.addr_lt ptr) outside, if_pos (hs ▸ outside)⟩

/-- Absolute and Indirect operands resolve to 16-bit addresses (R87, R93). -/
theorem pastTop_of_unindexed {m : Operand} {s : State} {opd : Opd} {pen : Nat} (hr : resolve m s = .ok (opd, pen))
    (hm : m.mode = .absolute ∨ m.mode = .indirect) : opd.pastTop = none := by
  cases m with
  | absolute w =>
    cases hr
    exact Opd.pastTop_addr w
  | indirect ptr =>
    obtain ⟨w, -, h⟩ := bind_ok_iff.mp hr
    cases h
    exact Opd.pastTop_addr w
  | _ => simp [Operand.mode] at hm

/-- JMP and JSR have no indexed mode (R220 to R222). -/
theorem mode_of_jump {i : Instr} (hw : i.wf = true) (hop : i.operation = .jmp ∨ i.operation = .jsr) :
    i.operand.mode = .absolute ∨ i.operand.mode = .indirect := by
  have modes : i.operation.modes.all (fun m => m == .absolute || m == .indirect) = true := by
    rcases hop with h | h <;> rw [h] <;> rfl
  simpa using mode_of_wf hw modes

/-! ### The outcomes -/

/-- R107 for a fetched instruction: it completes, faults at the address past the top, or is refused in decimal mode. -/
theorem exec_full {i : Instr} {s : State} (hw : i.wf = true) (hs : s.Full) (hcfg : s.cfg.wf = true) :
    (addressPastTop i.operand s = none → ¬ Decimal i s → ∃ t, exec i s = .next t) ∧
    (∀ a, addressPastTop i.operand s = some a → exec i s = .fault (.addressingFault a)) ∧
    (Decimal i s → addressPastTop i.operand s = none → exec i s = .refused .decimalMode) := by
  obtain ⟨a, hr, hpast⟩ | ⟨opd, pen, hr, hpast⟩ := resolve_full hs i.operand
  · rw [hpast]
    refine ⟨nofun, ?_, nofun⟩
    rintro _ ⟨⟩
    exact exec_of_resolve_stop hw hr
  · rw [hpast]
    refine ⟨fun hnone hd => ?completes, fun a hsome => ?faults, fun hd hnone => ?refused⟩
    case completes =>
      exact exec_completes hw hr (Opd.inside_of_pastTop_none hs hnone) (hs.stackExists hcfg) hd
    case faults =>
      have hjump : ¬ (i.operation = .jmp ∨ i.operation = .jsr) := fun hop => by
        rw [pastTop_of_unindexed hr (mode_of_jump hw hop)] at hsome
        cases hsome
      obtain ⟨rfl, hle⟩ := Opd.eq_mem_of_pastTop_some hsome
      exact exec_faults_outside hw hr (hs ▸ hle) hjump
    case refused =>
      have modes : i.operation.modes.all Mode.readable = true := by rcases hd.1 with h | h <;> rw [h] <;> rfl
      obtain ⟨v, hv⟩ := readOperand_inside hr (mode_of_wf hw modes) (Opd.inside_of_pastTop_none hs hnone)
      exact exec_decimal hw hd hr hv

/-- Settles O54: the fetch finds every byte, and `exec_full` gives the three outcomes of the fetched instruction. -/
theorem fullMemoryOutcomes : Obligations.FullMemoryOutcomes := by
  intro s hcfg hs hidle
  obtain ⟨t, hfetch, hfull, hlegal⟩ :
      ∃ t, fetch s = .ok (instrAt (byteAt s 0) (byteAt s 1) (byteAt s 2), t) ∧ t.Full ∧ t.cfg.wf = true :=
    ⟨_, fetch_of_bytesExist (State.Full.bytesExist hs _), hs, hcfg⟩
  have hw := instrAt_wf (byteAt s 0) (byteAt s 1) (byteAt s 2)
  obtain ⟨completes, faults, refused⟩ := exec_full hw hfull hlegal
  rw [step_of_fetch hidle hfetch]
  exact ⟨_, t, hfetch, hw, completes, fun a hpast _ => faults a hpast, refused⟩

end Sys2Proof.Machine
end

section
/-! The logical family (R120 to R122): what an instruction that reads its operand does with its value and with its
faults. -/

namespace Sys2Proof

/-- An instruction with an opcode byte is well formed (R98). -/
theorem wf_of_opcodeOf {i : Instr} {b : Byte} (h : opcodeOf i = some b) : i.wf = true := by
  by_cases hu : i.operation = .undefined
  · cases i with
    | undefined c => exact (Option.ite_none_right_eq_some.mp h).1
    | _ => cases hu
  · rw [opcodeOf_eq i hu] at h
    obtain ⟨l, r, hl, -⟩ := List.lookup_eq_some_iff.mp h
    rw [wf_eq i hu, modes_of_opcodes _ hu, hl]
    simp

end Sys2Proof

namespace Sys2Proof.Machine

open Sys2Proof.Claims

/-- The state after an accumulator result in the words of the statements (R23). -/
theorem setNZ_withA (s : State) (r : Byte) :
    (s.withA r).setNZ r = { s with a := r, p := withFlags s.p (nz r) } :=
  congrArg (s.withA r).withP (setNZ_eq_withFlags s.p r)

/-- An operation that reads its operand stops where the read does (R95). -/
theorem readOp_error {f : State → Byte → State} {opd : Opd} {s : State} {e : Stop}
    (h : readOperand opd s = .error e) : readOp f opd s = .error e := by
  rw [readOp, h]
  rfl

/-- An instruction that runs `readOp` completes with its operand's value, or faults where the operand's read does
(R95, R101). -/
theorem readsAndUpdates_of_readOp {mk : Operand → Instr} {f update : State → Byte → State}
    (hop : ∀ m, (mk m).operand = m) (hex : ∀ m, executionOf (mk m) = readOp f) (hf : ∀ s v, f s v = update s v) :
    ReadsAndUpdates mk update := by
  intro m s b opd pen hb hr
  rw [← hop m] at hr
  refine ⟨fun v hv => ?completes, fun e he => ?faults⟩
  case completes =>
    have run : executionOf (mk m) opd s = .ok (update s v, 0) := by
      rw [hex]
      exact readOp_ok.mpr ⟨v, hv, (hf s v).symm, rfl⟩
    exact exec_next.mpr ⟨b, opd, pen, _, 0, hb, hr, run, rfl⟩
  case faults =>
    have stop : executionOf (mk m) opd s = .error (.fault e) := by rw [hex, readOp_error he]
    exact exec_of_stop (wf_of_opcodeOf hb) hr stop

/-- An instruction with an operand faults where the resolver's pointer reads do (R90, R91, R101). -/
theorem faultsWithResolver_of_operand {mk : Operand → Instr} (hop : ∀ m, (mk m).operand = m) :
    FaultsWithResolver mk := by
  intro m s b e hb hr
  rw [← hop m] at hr
  exact exec_of_resolve_stop (wf_of_opcodeOf hb) hr

/-- Settles O25: the rows are the opcode lists' (`hasRows_of_opcodesOf`), and each of the three runs `readOp` with an
accumulator result (`setNZ_withA`). -/
theorem logicalOperations : Obligations.LogicalOperations := by
  refine ⟨?oraRows, ?andRows, ?eorRows, ?ora, ?and, ?eor, ?oraFaults, ?andFaults, ?eorFaults⟩
  case oraRows | andRows | eorRows => exact hasRows_of_opcodesOf (by decide) (by decide) (by decide)
  case ora | and | eor => exact readsAndUpdates_of_readOp (fun _ => rfl) (fun _ => rfl) fun s _ => setNZ_withA s _
  case oraFaults | andFaults | eorFaults => exact faultsWithResolver_of_operand fun _ => rfl

end Sys2Proof.Machine
end

section
/-! The shift and rotate family (R130 to R133): the four results in numbers, and what an instruction that shifts the
accumulator or a cell through the carry does. -/

namespace Sys2Proof.Machine

open Sys2Proof.Claims

/-! ### The results in numbers -/

/-- The byte doubles, and the bit `c` enters at bit 0, which the shift leaves open (R130, R131). -/
theorem shiftLeft_or_eq_ofNat (v : Byte) (c : Bool) :
    (v <<< 1) ||| (if c then 1#8 else 0#8) = BitVec.ofNat 8 (2 * v.toNat + c.toNat) := by
  have shifted : v <<< 1 = BitVec.ofNat 8 (2 * v.toNat) := by
    apply BitVec.eq_of_toNat_eq
    rw [BitVec.toNat_shiftLeft, Nat.shiftLeft_eq, Nat.mul_comm, BitVec.toNat_ofNat]
  have disjoint : 2 * v.toNat + c.toNat = 2 * v.toNat ||| c.toNat :=
    Nat.two_pow_add_eq_or_of_lt (i := 1) c.toNat_lt v.toNat
  rw [shifted, disjoint, BitVec.ofNat_or]
  cases c <;> rfl

/-- The byte halves, and the bit `c` enters at bit 7, which the shift leaves open (R132, R133). -/
theorem shiftRight_or_eq_ofNat (v : Byte) (c : Bool) :
    (v >>> 1) ||| (if c then 0x80#8 else 0#8) = BitVec.ofNat 8 (v.toNat / 2 + 128 * c.toNat) := by
  have shifted : v >>> 1 = BitVec.ofNat 8 (v.toNat / 2) := by
    apply BitVec.eq_of_toNat_eq
    rw [BitVec.toNat_ushiftRight, Nat.shiftRight_eq_div_pow, BitVec.toNat_ofNat]
    omega
  have disjoint : 128 * c.toNat + v.toNat / 2 = 128 * c.toNat ||| v.toNat / 2 :=
    Nat.two_pow_add_eq_or_of_lt (i := 7) (by omega) c.toNat
  rw [shifted, Nat.add_comm, disjoint, BitVec.ofNat_or, BitVec.or_comm]
  cases c <;> rfl

/-- Bit 0 of a byte as a remainder: what the right shifts move into C (R132, R133). -/
theorem getLsbD_zero_eq_decide (v : Byte) : v.getLsbD 0 = decide (v.toNat % 2 = 1) :=
  Nat.testBit_zero v.toNat

/-- R130 in numbers: ASL is ROL with a 0 for the carry. -/
theorem aslByte_eq (c : Bool) (v : Byte) : aslByte c v = (BitVec.ofNat 8 (2 * v.toNat), decide (128 ≤ v.toNat)) := by
  have result : v <<< 1 = BitVec.ofNat 8 (2 * v.toNat) := by simpa using shiftLeft_or_eq_ofNat v false
  rw [aslByte, result, getLsbD_seven_eq_decide]

/-- R131 in numbers. -/
theorem rolByte_eq (c : Bool) (v : Byte) :
    rolByte c v = (BitVec.ofNat 8 (2 * v.toNat + c.toNat), decide (128 ≤ v.toNat)) := by
  rw [rolByte, shiftLeft_or_eq_ofNat, getLsbD_seven_eq_decide]

/-- R132 in numbers: LSR is ROR with a 0 for the carry. -/
theorem lsrByte_eq (c : Bool) (v : Byte) : lsrByte c v = (BitVec.ofNat 8 (v.toNat / 2), decide (v.toNat % 2 = 1)) := by
  have result : v >>> 1 = BitVec.ofNat 8 (v.toNat / 2) := by simpa using shiftRight_or_eq_ofNat v false
  rw [lsrByte, result, getLsbD_zero_eq_decide]

/-- R133 in numbers. -/
theorem rorByte_eq (c : Bool) (v : Byte) :
    rorByte c v = (BitVec.ofNat 8 (v.toNat / 2 + 128 * c.toNat), decide (v.toNat % 2 = 1)) := by
  rw [rorByte, shiftRight_or_eq_ofNat, getLsbD_zero_eq_decide]

/-! ### Shifting an operand -/

/-- C set first and N and Z after it, in the words of the statements (R21, R23). -/
theorem setNZ_setFlag_carry (p r : Byte) (c : Bool) :
    setNZ (setFlag p .c c) r = withFlags p ((.c, c) :: nz r) := setNZ_eq_withFlags _ r

/-- A shift of the accumulator writes `A` and the three flags (R130 to R133). -/
theorem shiftOp_acc {f : Bool → Byte → Byte × Bool} {s : State} {r : Byte} {c : Bool}
    (hf : f (getFlag s.p .c) s.a = (r, c)) :
    shiftOp f .acc s = .ok ({ s with a := r, p := withFlags s.p ((.c, c) :: nz r) }, 0) := by
  refine shiftOp_ok.mpr ⟨s.a, (s.setFlag .c c).withA r, rfl, ?_, ?_, rfl⟩
  · rw [State.flag_eq, hf]
    rfl
  · rw [State.flag_eq, hf, ← setNZ_setFlag_carry]
    rfl

/-- A shift of a cell that exists writes the cell and the three flags (R130 to R133). -/
theorem shiftOp_mem {f : Bool → Byte → Byte × Bool} {s : State} {ea : Nat} {r : Byte} {c : Bool}
    (hin : ea < s.cfg.memSize) (hf : f (getFlag s.p .c) (s.mem.read ea) = (r, c)) :
    shiftOp f (.mem ea) s =
      .ok ({ s with mem := s.mem.write ea r, p := withFlags s.p ((.c, c) :: nz r) }, 0) := by
  refine shiftOp_ok.mpr ⟨s.mem.read ea, (s.setFlag .c c).withMem (s.mem.write ea r), memRead_inside hin, ?_, ?_, rfl⟩
  · rw [State.flag_eq, hf]
    exact memWrite_inside hin
  · rw [State.flag_eq, hf, ← setNZ_setFlag_carry]
    rfl

/-- A shift stops where the read of its operand does (R95). -/
theorem shiftOp_error {f : Bool → Byte → Byte × Bool} {opd : Opd} {s : State} {e : Stop}
    (h : readOperand opd s = .error e) : shiftOp f opd s = .error e := by
  rw [shiftOp, h]
  rfl

section
variable {mk : Operand → Instr} {f : Bool → Byte → Byte × Bool} {result : State → Byte → Byte} {carry : Byte → Bool}
  (hop : ∀ m, (mk m).operand = m) (hex : ∀ m, executionOf (mk m) = shiftOp f)
  (hf : ∀ s v, f (getFlag s.p .c) v = (result s v, carry v))
include hop hex hf

/-- The Accumulator form of an instruction that runs `shiftOp` (R82, R101). -/
theorem modifiesAccumulator_of_shiftOp {b : Byte} (hb : opcodeOf (mk .accumulator) = some b) :
    ModifiesAccumulator mk b result (fun s v => (.c, carry v) :: nz (result s v)) := by
  intro s
  have resolved : resolve (mk .accumulator).operand s = .ok (.acc, 0) := by rw [hop]; rfl
  have run := shiftOp_acc (hf s s.a)
  rw [← hex .accumulator] at run
  exact exec_next.mpr ⟨b, .acc, 0, _, 0, hb, resolved, run, rfl⟩

/-- The memory form of an instruction that runs `shiftOp`: it modifies its cell, or faults where the cell does not
exist (R95, R101). -/
theorem modifiesCell_of_shiftOp : ModifiesCell mk result (fun s v => (.c, carry v) :: nz (result s v)) := by
  intro m s b ea pen hb hr
  rw [← hop m] at hr
  refine ⟨fun hin => ?completes, fun hout => ?faults⟩
  case completes =>
    have run := shiftOp_mem hin (hf s (s.mem.read ea))
    rw [← hex m] at run
    exact exec_next.mpr ⟨b, .mem ea, pen, _, 0, hb, hr, run, rfl⟩
  case faults =>
    have stop : executionOf (mk m) (.mem ea) s = .error (.fault (.addressingFault ea)) := by
      rw [hex]
      exact shiftOp_error (memRead_outside hout)
    exact exec_of_stop (wf_of_opcodeOf hb) hr stop

end

/-! ### The statement -/

/-- Settles O26: the rows are the opcode lists' (`hasRows_of_opcodesOf`), and each of the four runs `shiftOp` with the
result and the carry that its byte computation gives in numbers. -/
theorem shiftsAndRotates : Obligations.ShiftsAndRotates := by
  refine ⟨?aslRows, ?rolRows, ?lsrRows, ?rorRows, ?aslAcc, ?rolAcc, ?lsrAcc, ?rorAcc, ?aslCell, ?rolCell, ?lsrCell,
    ?rorCell⟩
  case aslRows | rolRows | lsrRows | rorRows => exact hasRows_of_opcodesOf (by decide) (by decide) (by decide)
  case aslAcc => exact modifiesAccumulator_of_shiftOp (fun _ => rfl) (fun _ => rfl) (fun _ => aslByte_eq _) rfl
  case rolAcc => exact modifiesAccumulator_of_shiftOp (fun _ => rfl) (fun _ => rfl) (fun _ => rolByte_eq _) rfl
  case lsrAcc => exact modifiesAccumulator_of_shiftOp (fun _ => rfl) (fun _ => rfl) (fun _ => lsrByte_eq _) rfl
  case rorAcc => exact modifiesAccumulator_of_shiftOp (fun _ => rfl) (fun _ => rfl) (fun _ => rorByte_eq _) rfl
  case aslCell => exact modifiesCell_of_shiftOp (fun _ => rfl) (fun _ => rfl) (fun _ => aslByte_eq _)
  case rolCell => exact modifiesCell_of_shiftOp (fun _ => rfl) (fun _ => rfl) (fun _ => rolByte_eq _)
  case lsrCell => exact modifiesCell_of_shiftOp (fun _ => rfl) (fun _ => rfl) (fun _ => lsrByte_eq _)
  case rorCell => exact modifiesCell_of_shiftOp (fun _ => rfl) (fun _ => rfl) (fun _ => rorByte_eq _)

end Sys2Proof.Machine
end

section
/-! The bit test family (R140): the flags of BIT in numbers. -/

namespace Sys2Proof.Machine

open Sys2Proof.Claims

/-- Bit 6 of a byte as a comparison of the seven low bits: what BIT moves into V (R140). -/
theorem getLsbD_six_eq_decide (v : Byte) : v.getLsbD 6 = decide (64 ≤ v.toNat % 128) := by
  have quotient : v.getLsbD 6 = decide (v.toNat / 2 ^ 6 % 2 = 1) := Nat.testBit_eq_decide_div_mod_eq
  rw [quotient, decide_eq_decide]
  omega

/-- The flags of BIT in the words of the statement (R140). -/
theorem bitFlags_eq_withFlags (p a m : Byte) :
    bitFlags p a m = withFlags p [(.z, decide ((a &&& m).toNat = 0)), (.n, decide (128 ≤ m.toNat)),
      (.v, decide (64 ≤ m.toNat % 128))] := by
  rw [bitFlags, beq_zero_eq_decide_toNat, getLsbD_seven_eq_decide, getLsbD_six_eq_decide]
  rfl

/-- Settles O27: the rows are the opcode list's (`hasRows_of_opcodesOf`), and BIT runs `readOp` with an update of `P`
alone (`bitFlags_eq_withFlags`). -/
theorem bitTest : Obligations.BitTest := by
  refine ⟨?rows, ?reads⟩
  case rows => exact hasRows_of_opcodesOf (by decide) (by decide) (by decide)
  case reads =>
    exact readsAndUpdates_of_readOp (fun _ => rfl) (fun _ => rfl)
      fun s v => congrArg s.withP (bitFlags_eq_withFlags s.p s.a v)

end Sys2Proof.Machine
end

section
/-! The Stack Unit family (R160, R161): what a push and a pull answer in every state, and the one-byte instructions that
push and pull the accumulator (R169, R170). -/

namespace Sys2Proof.Machine

open Sys2Proof.Claims

/-! ### The stack cells of the statements -/

/-- The cell the next push writes (R160). -/
theorem pushed_zero (s : State) : pushed s 0 = stackAddr s.sp := by
  have byte := s.sp.isLt
  rw [pushed, stackAddr]
  omega

/-- The cell the next pull reads (R161). -/
theorem pulled_one (s : State) : pulled s 1 = stackAddr (s.sp + 1#8) := by
  rw [stackAddr, BitVec.toNat_add]
  rfl

/-- `Push` in every state, in the words of the statements (R160). -/
theorem push_eq (s : State) (v : Byte) : push s v =
    if s.cfg.memSize ≤ pushed s 0 then .error (.fault (.addressingFault (pushed s 0)))
    else .ok { s with mem := s.mem.write (pushed s 0) v, sp := s.sp - 1#8 } := by
  rw [pushed_zero]
  split
  · next hout => exact push_outside hout
  · next hin => exact push_ok.mpr ⟨Nat.lt_of_not_le hin, rfl⟩

/-- `Pull` in every state, in the words of the statements (R161). -/
theorem pull_eq (s : State) : pull s =
    if s.cfg.memSize ≤ pulled s 1 then .error (.fault (.addressingFault (pulled s 1)))
    else .ok (s.mem.read (pulled s 1), { s with sp := s.sp + 1#8 }) := by
  rw [pulled_one]
  split
  · next hout => exact pull_outside hout
  · next hin => exact pull_ok.mpr ⟨Nat.lt_of_not_le hin, rfl, rfl⟩

/-! ### Running a stack instruction -/

/-- A one-byte instruction of the Stack Unit ends as its steps do, and sets `CYC` where they complete (R101). -/
theorem exec_of_stackOp {i : Instr} {f : State → Except Stop State} {b : Byte} (hb : opcodeOf i = some b)
    (him : i.operand = .implied) (hex : executionOf i = stackOp f) (s : State) :
    exec i s = finish ((f s).map fun t => t.withCyc (ticksLeft s b 0)) := by
  rw [exec_eq_runEntry, runEntry, hb, him, hex]
  simp only [stackOp]
  cases f s <;> rfl

/-! ### The statements -/

/-- Settles O9: `push_eq` and `pull_eq` in the two cases of each, with `SP` read as a number. -/
theorem pushAndPull : Obligations.PushAndPull := by
  refine ⟨fun s v hin => ⟨s.sp - 1#8, ?push, ?down⟩, fun s v hout => ?pushFaults,
    fun s hin => ⟨s.sp + 1#8, ?pull, BitVec.toNat_add _ _⟩, fun s hout => ?pullFaults⟩
  case push => rw [push_eq, if_neg (Nat.not_le.mpr hin), pushed_zero, stackAddr]
  case down => rw [BitVec.toNat_sub, Nat.add_comm]; rfl
  case pushFaults => rw [push_eq, if_pos hout, pushed_zero, stackAddr]
  case pull => rw [pull_eq, if_neg (Nat.not_le.mpr hin), pulled_one, stackAddr]
  case pullFaults => rw [pull_eq, if_pos hout]

/-- Settles O29: the rows are the opcode lists' (`hasRows_of_opcodesOf`); PHA ends as its push (`push_eq`), PLA as its
pull (`pull_eq`) with `SetNZ` of the pulled byte (`setNZ_eq_withFlags`). -/
theorem pushAndPullAccumulator : Obligations.PushAndPullAccumulator := by
  refine ⟨?phaRows, ?plaRows, fun s => ?pha, fun s => ?pla⟩
  case phaRows | plaRows => exact hasRows_of_opcodesOf (by decide) (by decide) (by decide)
  case pha =>
    rw [exec_of_stackOp rfl rfl rfl, push_eq]
    split <;> rfl
  case pla =>
    rw [exec_of_stackOp rfl rfl rfl, pull_eq]
    split
    · rfl
    · rw [← setNZ_eq_withFlags]; rfl

end Sys2Proof.Machine
end

section
/-! The load, store and transfer family (R180 to R191): a register that becomes a value, with `SetNZ` of it or without,
and what an instruction that stores a register in its operand's cell does. -/

namespace Sys2Proof.Machine

open Sys2Proof.Claims

/-! ### Registers that become a value -/

/-- `SetNZ` changes `P` alone, to the flags of the statements (R23). -/
theorem State.setNZ_eq_withP (s : State) (v : Byte) : s.setNZ v = s.withP (withFlags s.p (nz v)) :=
  congrArg s.withP (setNZ_eq_withFlags s.p v)

/-- A one-byte instruction that runs `registerOp` completes in every state (R101). -/
theorem updatesRegisters_of_registerOp {i : Instr} {b : Byte} {f update : State → State} (hb : opcodeOf i = some b)
    (him : i.operand = .implied) (hex : executionOf i = registerOp f) (hf : ∀ s, f s = update s) :
    UpdatesRegisters i b update := by
  intro s
  rw [exec_of_registerOp hb him hex, hf]
  rfl

/-! ### Storing in the operand's cell -/

/-- A store to a cell that exists writes the cell and nothing else (R96). -/
theorem storeOp_mem_inside {value : State → Byte} {s : State} {ea : Nat} (h : ea < s.cfg.memSize) :
    storeOp value (.mem ea) s = .ok (s.withMem (s.mem.write ea (value s)), 0) :=
  storeOp_ok.mpr ⟨memWrite_inside h, rfl⟩

/-- A store to a cell that does not exist faults with its address (R96). -/
theorem storeOp_mem_outside {value : State → Byte} {s : State} {ea : Nat} (h : s.cfg.memSize ≤ ea) :
    storeOp value (.mem ea) s = .error (.fault (.addressingFault ea)) := by
  rw [storeOp, writeOperand, memWrite_outside h]
  rfl

/-- An instruction that runs `storeOp` completes with its operand's cell written, or faults where that cell does not
exist (R96, R101). -/
theorem storesValue_of_storeOp {mk : Operand → Instr} {value : State → Byte} (hop : ∀ m, (mk m).operand = m)
    (hex : ∀ m, executionOf (mk m) = storeOp value) : StoresValue mk value := by
  intro m s b ea pen hb hr
  rw [← hop m] at hr
  refine ⟨fun hin => ?completes, fun hout => ?faults⟩
  case completes =>
    have run := storeOp_mem_inside (value := value) hin
    rw [← hex m] at run
    exact exec_next.mpr ⟨b, .mem ea, pen, _, 0, hb, hr, run, rfl⟩
  case faults =>
    have stop := storeOp_mem_outside (value := value) hout
    rw [← hex m] at stop
    exact exec_of_stop (wf_of_opcodeOf hb) hr stop

/-! ### The statements -/

/-- Settles O33: the rows are the opcode lists' (`hasRows_of_opcodesOf`), and each of the three runs `readOp` with its
register set to the operand and `SetNZ` of it (`setNZ_withA`, `State.setNZ_eq_withP`). -/
theorem loads : Obligations.Loads := by
  refine ⟨?ldaRows, ?ldxRows, ?ldyRows, ?lda, ?ldx, ?ldy, ?ldaFaults⟩
  case ldaRows | ldxRows | ldyRows => exact hasRows_of_opcodesOf (by decide) (by decide) (by decide)
  case lda => exact readsAndUpdates_of_readOp (fun _ => rfl) (fun _ => rfl) setNZ_withA
  case ldx =>
    exact readsAndUpdates_of_readOp (fun _ => rfl) (fun _ => rfl) fun s v => (s.withX v).setNZ_eq_withP v
  case ldy =>
    exact readsAndUpdates_of_readOp (fun _ => rfl) (fun _ => rfl) fun s v => (s.withY v).setNZ_eq_withP v
  case ldaFaults => exact faultsWithResolver_of_operand fun _ => rfl

/-- Settles O34: the rows are the opcode lists' (`hasRows_of_opcodesOf`), and each of the three runs `storeOp` with its
register (`storesValue_of_storeOp`). -/
theorem stores : Obligations.Stores := by
  refine ⟨?staRows, ?stxRows, ?styRows, ?sta, ?stx, ?sty, ?staFaults⟩
  case staRows | stxRows | styRows => exact hasRows_of_opcodesOf (by decide) (by decide) (by decide)
  case sta | stx | sty => exact storesValue_of_storeOp (fun _ => rfl) fun _ => rfl
  case staFaults => exact faultsWithResolver_of_operand fun _ => rfl

/-- Settles O36: each of the six runs `registerOp`, five of them with `SetNZ` of the value moved
(`setNZ_withA`, `State.setNZ_eq_withP`), TXS with no flag. -/
theorem transfers : Obligations.Transfers := by
  refine ⟨⟨?taxRows, ?tayRows, ?txaRows, ?tyaRows, ?tsxRows, ?txsRows⟩, ?tax, ?tay, ?txa, ?tya, ?tsx, ?txs⟩
  case taxRows | tayRows | txaRows | tyaRows | tsxRows | txsRows =>
    exact hasRows_of_opcodesOf (by decide) (by decide) (by decide)
  case tax => exact updatesRegisters_of_registerOp rfl rfl rfl fun s => (s.withX s.a).setNZ_eq_withP s.a
  case tay => exact updatesRegisters_of_registerOp rfl rfl rfl fun s => (s.withY s.a).setNZ_eq_withP s.a
  case txa => exact updatesRegisters_of_registerOp rfl rfl rfl fun s => setNZ_withA s s.x
  case tya => exact updatesRegisters_of_registerOp rfl rfl rfl fun s => setNZ_withA s s.y
  case tsx => exact updatesRegisters_of_registerOp rfl rfl rfl fun s => (s.withX s.sp).setNZ_eq_withP s.sp
  case txs => exact updatesRegisters_of_registerOp rfl rfl rfl fun _ => rfl

end Sys2Proof.Machine
end

section
/-! The compare, increment and decrement family (R203 to R211): their results in numbers, and what an instruction that
modifies its operand's cell without the carry does. -/

namespace Sys2Proof.Machine

open Sys2Proof.Claims

/-! ### The results in numbers -/

/-- The flags of a compare in the words of the statement (R203 to R205): the difference is 0 modulo 256 exactly when the
two bytes are equal. -/
theorem compareFlags_eq_withFlags (p r m : Byte) :
    compareFlags p r m = withFlags p [(.c, decide (m.toNat ≤ r.toNat)),
      (.n, decide (128 ≤ (r.toNat + 256 - m.toNat) % 256)), (.z, decide (r.toNat = m.toNat))] := by
  have difference : (r - m).toNat = (r.toNat + 256 - m.toNat) % 256 := by bv_omega
  have equal : (r.toNat + 256 - m.toNat) % 256 = 0 ↔ r.toNat = m.toNat := by omega
  rw [compareFlags, setNZ_setFlag_carry, nz, difference, decide_eq_decide.mpr equal]

/-- One more, modulo 256 (R206, R208, R209). -/
theorem add_one_eq_ofNat (v : Byte) : v + 1#8 = BitVec.ofNat 8 ((v.toNat + 1) % 256) := by bv_omega

/-- One less, modulo 256 (R207, R210, R211). -/
theorem sub_one_eq_ofNat (v : Byte) : v - 1#8 = BitVec.ofNat 8 ((v.toNat + 255) % 256) := by bv_omega

/-! ### Modifying the operand's cell -/

/-- A modification of a cell that exists writes the cell, N and Z (R206, R207). -/
theorem modifyOp_mem_inside {f : Byte → Byte} {s : State} {ea : Nat} {r : Byte} (hin : ea < s.cfg.memSize)
    (hf : f (s.mem.read ea) = r) :
    modifyOp f (.mem ea) s = .ok ({ s with mem := s.mem.write ea r, p := withFlags s.p (nz r) }, 0) := by
  subst hf
  have flags := State.setNZ_eq_withP (s.withMem (s.mem.write ea (f (s.mem.read ea)))) (f (s.mem.read ea))
  exact modifyOp_ok.mpr ⟨_, _, memRead_inside hin, memWrite_inside hin, flags.symm, rfl⟩

/-- A modification of a cell that does not exist stops at the read (R95). -/
theorem modifyOp_mem_outside {f : Byte → Byte} {s : State} {ea : Nat} (hout : s.cfg.memSize ≤ ea) :
    modifyOp f (.mem ea) s = .error (.fault (.addressingFault ea)) := by
  rw [modifyOp, readOperand, memRead_outside hout]
  rfl

/-- An instruction that runs `modifyOp` modifies its operand's cell, or faults where that cell does not exist
(R95, R101). -/
theorem modifiesCell_of_modifyOp {mk : Operand → Instr} {f result : Byte → Byte} (hop : ∀ m, (mk m).operand = m)
    (hex : ∀ m, executionOf (mk m) = modifyOp f) (hf : ∀ v, f v = result v) :
    ModifiesCell mk (fun _ v => result v) (fun _ v => nz (result v)) := by
  intro m s b ea pen hb hr
  rw [← hop m] at hr
  refine ⟨fun hin => ?completes, fun hout => ?faults⟩
  case completes =>
    have run := modifyOp_mem_inside hin (hf (s.mem.read ea))
    rw [← hex m] at run
    exact exec_next.mpr ⟨b, .mem ea, pen, _, 0, hb, hr, run, rfl⟩
  case faults =>
    have stop := modifyOp_mem_outside (f := f) hout
    rw [← hex m] at stop
    exact exec_of_stop (wf_of_opcodeOf hb) hr stop

/-! ### The statements -/

/-- Settles O40: the rows are the opcode lists' (`hasRows_of_opcodesOf`), and each of the three runs `readOp` with an
update of `P` alone (`compareFlags_eq_withFlags`). -/
theorem compares : Obligations.Compares := by
  refine ⟨?cmpRows, ?cpxRows, ?cpyRows, ?cmp, ?cpx, ?cpy, ?cmpFaults⟩
  case cmpRows | cpxRows | cpyRows => exact hasRows_of_opcodesOf (by decide) (by decide) (by decide)
  case cmp | cpx | cpy =>
    exact readsAndUpdates_of_readOp (fun _ => rfl) (fun _ => rfl)
      fun s v => congrArg s.withP (compareFlags_eq_withFlags s.p _ v)
  case cmpFaults => exact faultsWithResolver_of_operand fun _ => rfl

/-- Settles O41: the rows are the opcode lists' (`hasRows_of_opcodesOf`), and both run `modifyOp`
(`modifiesCell_of_modifyOp`) with the result that its byte computation gives in numbers. -/
theorem memoryIncrement : Obligations.MemoryIncrement := by
  refine ⟨?incRows, ?decRows, ?inc, ?dec⟩
  case incRows | decRows => exact hasRows_of_opcodesOf (by decide) (by decide) (by decide)
  case inc => exact modifiesCell_of_modifyOp (fun _ => rfl) (fun _ => rfl) add_one_eq_ofNat
  case dec => exact modifiesCell_of_modifyOp (fun _ => rfl) (fun _ => rfl) sub_one_eq_ofNat

/-- Settles O42: each of the four runs `registerOp` with its register one up or down in numbers and `SetNZ` of the result
(`State.setNZ_eq_withP`). -/
theorem indexIncrement : Obligations.IndexIncrement := by
  refine ⟨⟨?inxRows, ?inyRows, ?dexRows, ?deyRows⟩, ?inx, ?iny, ?dex, ?dey⟩
  case inxRows | inyRows | dexRows | deyRows => exact hasRows_of_opcodesOf (by decide) (by decide) (by decide)
  case inx | iny =>
    refine updatesRegisters_of_registerOp rfl rfl rfl fun s => ?_
    rw [State.setNZ_eq_withP, add_one_eq_ofNat]
    rfl
  case dex | dey =>
    refine updatesRegisters_of_registerOp rfl rfl rfl fun s => ?_
    rw [State.setNZ_eq_withP, sub_one_eq_ofNat]
    rfl

end Sys2Proof.Machine
end

section
/-! The control and flag family (R220, R225 to R231): a jump to the address its operand resolves to, and the seven
instructions that write one flag. -/

namespace Sys2Proof.Machine

open Sys2Proof.Claims

/-- JMP completes wherever its operand resolves to an address, which may lie outside memory: nothing is read there
(R98, R220). -/
theorem exec_jmp_of_resolve {m : Operand} {s : State} {target : Addr} {b : Byte} {pen : Nat}
    (hb : opcodeOf (.jmp m) = some b) (hr : resolve m s = .ok (.mem target.toNat, pen)) :
    exec (.jmp m) s = .next { s with pc := target, cyc := ticksLeft s b pen } := by
  have run : executeJmp (.mem target.toNat) s = .ok (s.withPc target, 0) :=
    addressOp_ok.mpr ⟨target.toNat, rfl, by rw [BitVec.ofNat_toNat, BitVec.setWidth_eq], rfl⟩
  exact exec_next.mpr ⟨b, .mem target.toNat, pen, _, 0, hb, hr, run, rfl⟩

/-- An instruction that writes one flag completes in every state with that flag written in `P` (R101). -/
theorem updatesFlag_of_setFlag {i : Instr} {b : Byte} {f : Flag} {v : Bool} (hb : opcodeOf i = some b)
    (him : i.operand = .implied) (hex : executionOf i = registerOp fun s => s.setFlag f v) :
    UpdatesRegisters i b fun s => { s with p := setFlag s.p f v } :=
  updatesRegisters_of_registerOp hb him hex fun _ => rfl

/-! ### The statements -/

/-- Settles O43: the Absolute operand resolves to its address in every state, and JMP goes there
(`exec_jmp_of_resolve`). -/
theorem jumpAbsolute : Obligations.JumpAbsolute :=
  ⟨by decide, fun _ _ => exec_jmp_of_resolve rfl rfl⟩

/-- Settles O47: the rows are the opcode lists' (`hasRows_of_opcodesOf`), and each of the seven runs `registerOp` with
its flag written (`updatesFlag_of_setFlag`). -/
theorem flagInstructions : Obligations.FlagInstructions := by
  refine ⟨⟨?clcRows, ?secRows, ?cliRows, ?seiRows, ?clvRows, ?cldRows, ?sedRows⟩,
    ?clc, ?sec, ?cli, ?sei, ?clv, ?cld, ?sed⟩
  case clcRows | secRows | cliRows | seiRows | clvRows | cldRows | sedRows =>
    exact hasRows_of_opcodesOf (by decide) (by decide) (by decide)
  case clc | sec | cli | sei | clv | cld | sed => exact updatesFlag_of_setFlag rfl rfl rfl

end Sys2Proof.Machine
end

section
/-! The encoding family: the decoder as one equation (R60 to R63, R73), and that it and the encoder undo each other. -/

namespace Sys2Proof

/-! ### The decoder -/

/-- `decode` of a non-empty sequence: the opcode byte alone says how many bytes follow it, and with them there the
answer is the instruction they make and the bytes after them (R60, R62, R73). -/
theorem decode_cons (b : Byte) (bytes : List Byte) : decode (b :: bytes) =
    if (optable b).mode.operandBytes ≤ bytes.length then
      .ok (instrAt b (bytes.getD 0 0#8) (bytes.getD 1 0#8), bytes.drop (optable b).mode.operandBytes)
    else .error .operandMissing := by
  have two := Machine.operandBytes_le_two (optable b).mode
  obtain zero | one | two : (optable b).mode.operandBytes = 0 ∨ (optable b).mode.operandBytes = 1 ∨
      (optable b).mode.operandBytes = 2 := by omega
  · rw [Machine.instrAt_of_operandBytes_zero zero _ _ 0#8 0#8]
    simp [decode, zero]
  · rw [Machine.instrAt_of_operandBytes_one one _ _ 0#8]
    cases bytes <;> simp [decode, one]
  · match bytes with
    | [] | [_] | _ :: _ :: _ => simp [decode, two]

/-- `decode` answers where the bytes its opcode's mode takes are there (R62, R73). -/
theorem decode_cons_ok {b : Byte} {bytes rest : List Byte} {i : Instr} : decode (b :: bytes) = .ok (i, rest) ↔
    (optable b).mode.operandBytes ≤ bytes.length ∧ i = instrAt b (bytes.getD 0 0#8) (bytes.getD 1 0#8) ∧
      rest = bytes.drop (optable b).mode.operandBytes := by
  rw [decode_cons]
  split <;> simp_all [eq_comm]

/-! ### Operand bytes -/

/-- An operand's bytes are as many as its mode says (R62). -/
theorem length_operandBytesOf (m : Operand) : (operandBytesOf m).length = m.mode.operandBytes := by
  cases m <;> rfl

/-- An operand's bytes, whatever follows them, make the operand again (R61, R63). -/
theorem operandOf_operandBytesOf (m : Operand) (rest : List Byte) :
    operandOf m.mode ((operandBytesOf m ++ rest).getD 0 0#8) ((operandBytesOf m ++ rest).getD 1 0#8) = m := by
  cases m with
  | absolute w | absoluteX w | absoluteY w | indirect w => simp [operandOf, Operand.mode, operandBytesOf]
  | _ => rfl

/-- The bytes of the operand that a mode makes are those it took (R61, R63). -/
theorem operandBytesOf_operandOf (m : Mode) (x y : Byte) :
    operandBytesOf (operandOf m x y) = [x, y].take m.operandBytes := by
  cases m with
  | absolute | absoluteX | absoluteY | indirect => simp [operandOf, operandBytesOf, Mode.operandBytes]
  | _ => rfl

/-- The first bytes of a list that is long enough, and the bytes after them. -/
theorem take_getD_append_drop {n : Nat} {bytes : List Byte} (two : n ≤ 2) (h : n ≤ bytes.length) :
    [bytes.getD 0 0#8, bytes.getD 1 0#8].take n ++ bytes.drop n = bytes := by
  obtain rfl | rfl | rfl : n = 0 ∨ n = 1 ∨ n = 2 := by omega
  · rfl
  · match bytes with
    | _ :: _ => rfl
  · match bytes with
    | _ :: _ :: _ => rfl

/-! ### The opcode byte -/

/-- A well-formed instruction's opcode byte is an entry of the map of R68 with its operation and mode (R73, R98). -/
theorem optable_opcodeOf {i : Instr} (h : i.wf = true) :
    ∃ b, opcodeOf i = some b ∧ (optable b).operation = i.operation ∧ (optable b).mode = i.operand.mode := by
  by_cases hu : i.operation = .undefined
  · cases i with
    | undefined b => exact Laws.TableAgrees.undefined b h
    | _ => cases hu
  · rw [opcodeOf_eq i hu]
    exact lookup_in_table i.operation hu i.operand.mode (Machine.mode_mem_of_wf h)

/-- An instruction is the one built from its own operation, opcode byte and operand (R65). -/
theorem instrOf_self {i : Instr} {b : Byte} (hb : opcodeOf i = some b) : instrOf i.operation b i.operand = i := by
  cases i with
  | undefined c =>
    obtain ⟨-, h⟩ := Option.ite_none_right_eq_some.mp hb
    cases h
    rfl
  | _ => rfl

/-- The encoding of an instruction built from an opcode byte (R60, R61). -/
theorem encode_instrAt (b x y : Byte) :
    encode (instrAt b x y) = b :: [x, y].take (optable b).mode.operandBytes := by
  rw [encode, opcodeOf_instrAt, instrAt_operand, operandBytesOf_operandOf]

/-! ### The statements -/

/-- Settles O13: the opcode byte's entry gives back the operation and the mode (`optable_opcodeOf`), and the operand
bytes the operand (`operandOf_operandBytesOf`). -/
theorem decodeEncode : Obligations.DecodeEncode := by
  intro i rest hw
  obtain ⟨b, hb, hop, hmode⟩ := optable_opcodeOf hw
  have bytes : encode i = b :: operandBytesOf i.operand := by rw [encode, hb]
  have length := length_operandBytesOf i.operand
  refine ⟨?decoded, by rw [bytes, List.length_cons, length, Nat.add_comm]⟩
  rw [bytes, List.cons_append, decode_cons_ok, hmode, ← length]
  refine ⟨by simp, ?instruction, by simp⟩
  rw [instrAt, hop, hmode, operandOf_operandBytesOf, instrOf_self hb]

/-- Settles O14: what the decoder builds is well formed (`instrAt_wf`) and encodes to the bytes it took
(`encode_instrAt`), which the bytes left over follow. -/
theorem encodeDecode : Obligations.EncodeDecode := by
  intro bytes rest i hdecode
  cases bytes with
  | nil => cases hdecode
  | cons b bytes =>
    obtain ⟨hlen, rfl, rfl⟩ := decode_cons_ok.mp hdecode
    refine ⟨instrAt_wf _ _ _, ?_⟩
    rw [encode_instrAt, List.cons_append, take_getD_append_drop (Machine.operandBytes_le_two _) hlen]

/-- Settles O12: two bytes after the opcode are enough for every mode (`decode_cons_ok`), and the undefined flag marks
exactly the listed bytes (`isUndefined_iff`), whose entries the map gives. -/
theorem opcodeTableTotal : Obligations.OpcodeTableTotal := by
  refine ⟨fun b first second => ?decodes, fun b => Machine.isUndefined_iff, fun b hb => ?entry,
    fun b hb hop => ?defined, ⟨by decide, rfl⟩, rfl⟩
  case decodes =>
    have two := Machine.operandBytes_le_two (optable b).mode
    refine ⟨_, _, decode_cons_ok.mpr ⟨two, rfl, rfl⟩, instrAt_wf _ _ _, ?_⟩
    rw [List.length_drop, List.length_cons, List.length_cons, List.length_nil]
    omega
  case entry => exact undefinedOpcodes_in_table b (Machine.isUndefined_iff.mp hb)
  case defined =>
    have listed : isUndefined b = true := Machine.isUndefined_iff.mpr ((optable_entry b).2.1 hop)
    rw [hb] at listed
    cases listed

/-- Settles O11: each of the ten sequences is decoded by running `decode`. -/
theorem sampleDecodings : Obligations.SampleDecodings :=
  ⟨rfl, rfl, rfl, rfl, rfl, rfl, rfl, rfl, rfl, rfl⟩

end Sys2Proof
end

section
/-! Accesses in order: the operations of the Stack Unit and of the trap path make a list of accesses that the state
before them names, fault at the first that does not exist (R245), and otherwise end in one next state. -/

namespace Sys2Proof.Machine

open Sys2Proof.Claims

/-! ### Writes in order -/

theorem writeAll_cons (m : Memory) (w : Nat × Byte) (ws : List (Nat × Byte)) :
    writeAll m (w :: ws) = writeAll (m.write w.1 w.2) ws := rfl

theorem writeAll_append (m : Memory) (ws ws' : List (Nat × Byte)) :
    writeAll m (ws ++ ws') = writeAll (writeAll m ws) ws' := List.foldl_append

/-- Writes leave every address they do not name alone (R42). -/
theorem read_writeAll_other {addr : Nat} (m : Memory) (ws : List (Nat × Byte)) (h : ∀ w ∈ ws, w.1 ≠ addr) :
    (writeAll m ws).read addr = m.read addr := by
  induction ws generalizing m with
  | nil => rfl
  | cons w ws ih =>
    obtain ⟨hw, hws⟩ := List.forall_mem_cons.mp h
    rw [writeAll_cons, ih _ hws, Memory.read_write_other _ _ _ _ hw.symm]

theorem wf_writeAll {m : Memory} (ws : List (Nat × Byte)) (h : m.wf = true) : (writeAll m ws).wf = true := by
  induction ws generalizing m with
  | nil => exact h
  | cons w ws ih => exact ih (Memory.wf_write _ _ h)

theorem fits_writeAll {m : Memory} {size : Nat} {ws : List (Nat × Byte)} (h : m.fits size = true)
    (hws : ∀ w ∈ ws, w.1 < size) : (writeAll m ws).fits size = true := by
  induction ws generalizing m with
  | nil => exact h
  | cons w ws ih =>
    obtain ⟨hw, hws⟩ := List.forall_mem_cons.mp hws
    exact ih (Memory.fits_write _ h hw) hws

/-! ### Accesses -/

/-- `x` after accesses to `addrs` in order in a memory of `size` cells: the first that does not exist is the fault
(R245). -/
def afterAccesses {α : Type} (size : Nat) (addrs : List Nat) (x : Except Stop α) : Except Stop α :=
  match addrs.find? fun addr => decide (size ≤ addr) with
  | some addr => .error (.fault (.addressingFault addr))
  | none => x

theorem afterAccesses_cons {α : Type} (size addr : Nat) (addrs : List Nat) (x : Except Stop α) :
    afterAccesses size (addr :: addrs) x =
      if size ≤ addr then .error (.fault (.addressingFault addr)) else afterAccesses size addrs x := by
  by_cases h : size ≤ addr <;> simp [afterAccesses, h]

/-- Accesses made one list after the other. -/
theorem afterAccesses_append {α : Type} (size : Nat) (addrs addrs' : List Nat) (x : Except Stop α) :
    afterAccesses size addrs (afterAccesses size addrs' x) = afterAccesses size (addrs ++ addrs') x := by
  induction addrs with
  | nil => rfl
  | cons addr addrs ih => rw [List.cons_append, afterAccesses_cons, afterAccesses_cons, ih]

/-- The first missing cell is the fault (R245). -/
theorem afterAccesses_of_missing {α : Type} {s : State} {addrs : List Nat} {addr : Nat} (x : Except Stop α)
    (h : firstMissing s addrs = some addr) :
    afterAccesses s.cfg.memSize addrs x = .error (.fault (.addressingFault addr)) := by
  rw [afterAccesses, ← firstMissing, h]

/-- What accesses in order can do when they answer. -/
theorem afterAccesses_ok {α : Type} {size : Nat} {addrs : List Nat} {x : Except Stop α} {r : α} :
    afterAccesses size addrs x = .ok r ↔ (∀ addr ∈ addrs, addr < size) ∧ x = .ok r := by
  have none_iff : (addrs.find? fun addr => decide (size ≤ addr)) = none ↔ ∀ addr ∈ addrs, addr < size := by simp
  rw [afterAccesses, ← none_iff]
  split <;> simp_all

/-- The fault of an access outside a memory of `size` cells (R240). -/
def FaultsOutside (size : Nat) (e : Stop) : Prop := ∃ addr, size ≤ addr ∧ e = .fault (.addressingFault addr)

/-- What accesses in order can do when they stop, and what follows them answers. -/
theorem afterAccesses_error {α : Type} {size : Nat} {addrs : List Nat} {r : α} {e : Stop}
    (h : afterAccesses size addrs (.ok r) = .error e) : FaultsOutside size e := by
  rw [afterAccesses] at h
  split at h
  · next addr hfind =>
    cases h
    exact ⟨addr, by simpa using List.find?_some hfind, rfl⟩
  · cases h

/-- `MemRead`, and what follows it, as an access (R41). -/
theorem memRead_bind {α : Type} (s : State) (addr : Nat) (k : Byte → Except Stop α) :
    memRead s addr >>= k = afterAccesses s.cfg.memSize [addr] (k (s.mem.read addr)) := by
  rw [afterAccesses_cons]
  split
  · next hout => rw [memRead_outside hout]; rfl
  · next hin => rw [memRead_inside (Nat.lt_of_not_le hin)]; rfl

/-! ### Pushes -/

/-- The cell of the push after `k` pushes (R160). -/
theorem pushed_eq_stackAddr (s : State) {k : Nat} (h : k ≤ 256) : pushed s k = stackAddr (s.sp - BitVec.ofNat 8 k) := by
  have byte := s.sp.isLt
  rw [pushed, stackAddr, BitVec.toNat_sub, BitVec.toNat_ofNat]
  omega

/-- Different pushes of one page write different cells. -/
theorem pushed_inj {s : State} {j k : Nat} (hj : j < 256) (hk : k < 256) (h : pushed s j = pushed s k) : j = k := by
  have byte := s.sp.isLt
  rw [pushed, pushed] at h
  omega

/-- `j` places down, and `k` more. -/
theorem sub_ofNat_sub_ofNat (sp : Byte) (j k : Nat) :
    sp - BitVec.ofNat 8 j - BitVec.ofNat 8 k = sp - BitVec.ofNat 8 (j + k) := by
  rw [BitVec.sub_sub, BitVec.ofNat_add]

/-- The writes that pushes from `sp` make, in order (R160). -/
def stackWrites (sp : Byte) : List Byte → List (Nat × Byte)
  | [] => []
  | v :: vs => (stackAddr sp, v) :: stackWrites (sp - 1#8) vs

theorem addr_of_mem_stackWrites {sp : Byte} {vs : List Byte} {w : Nat × Byte} (hw : w ∈ stackWrites sp vs) :
    ∃ k < vs.length, w.1 = stackAddr (sp - BitVec.ofNat 8 k) := by
  induction vs generalizing sp with
  | nil => cases hw
  | cons v vs ih =>
    obtain rfl | hw := List.mem_cons.mp hw
    · exact ⟨0, Nat.succ_pos _, by simp⟩
    · obtain ⟨k, hk, h⟩ := ih hw
      exact ⟨k + 1, Nat.succ_lt_succ hk, by rw [h, sub_ofNat_sub_ofNat, Nat.add_comm]⟩

/-- The state after pushes whose cells exist (R160). -/
def State.afterPushes (s : State) (vs : List Byte) : State :=
  (s.withMem (writeAll s.mem (stackWrites s.sp vs))).withSp (s.sp - BitVec.ofNat 8 vs.length)

@[simp] theorem State.afterPushes_p (s : State) (vs : List Byte) : (s.afterPushes vs).p = s.p := rfl
@[simp] theorem State.afterPushes_pc (s : State) (vs : List Byte) : (s.afterPushes vs).pc = s.pc := rfl
@[simp] theorem State.afterPushes_cfg (s : State) (vs : List Byte) : (s.afterPushes vs).cfg = s.cfg := rfl

theorem State.afterPushes_nil (s : State) : s.afterPushes [] = s := by
  simp [State.afterPushes, stackWrites, writeAll, State.withSp, State.withMem]

theorem State.afterPushes_cons (s : State) (v : Byte) (vs : List Byte) :
    s.afterPushes (v :: vs) = (s.afterPushes [v]).afterPushes vs := by
  rw [State.afterPushes, List.length_cons, Nat.add_comm, ← sub_ofNat_sub_ofNat]
  rfl

/-- Pushes one list after the other (R160). -/
theorem State.afterPushes_afterPushes (s : State) (us vs : List Byte) :
    (s.afterPushes us).afterPushes vs = s.afterPushes (us ++ vs) := by
  induction us generalizing s with
  | nil => rw [State.afterPushes_nil, List.nil_append]
  | cons u us ih => rw [State.afterPushes_cons s u us, ih, List.cons_append, ← State.afterPushes_cons]

/-- The cells of the pushes to come, from the state after some (R160). -/
theorem pushed_afterPushes (s : State) (vs : List Byte) {k : Nat} (h : vs.length + k ≤ 256) :
    pushed (s.afterPushes vs) k = pushed s (vs.length + k) := by
  rw [pushed_eq_stackAddr _ (by omega), pushed_eq_stackAddr s h, ← sub_ofNat_sub_ofNat]
  rfl

/-- Pushes of at most a page write the cells that the statements name, and no other (R160, R163). -/
theorem read_afterPushes_other {s : State} {vs : List Byte} {addr : Nat} (hlen : vs.length ≤ 256)
    (h : ∀ k < vs.length, addr ≠ pushed s k) : (s.afterPushes vs).mem.read addr = s.mem.read addr := by
  refine read_writeAll_other _ _ fun w hw hwa => ?_
  obtain ⟨k, hk, hwk⟩ := addr_of_mem_stackWrites hw
  exact h k hk (by rw [pushed_eq_stackAddr s (by omega), ← hwk, hwa])

/-- Byte `k` of at most a page of pushes stands at cell `k` (R160, R43). -/
theorem read_afterPushes {s : State} {vs : List Byte} {k : Nat} (hwf : s.mem.wf = true) (hlen : vs.length ≤ 256)
    (hk : k < vs.length) : (s.afterPushes vs).mem.read (pushed s k) = vs.getD k 0#8 := by
  induction vs generalizing s k with
  | nil => cases hk
  | cons v vs ih =>
    rw [List.length_cons] at hlen hk
    have later : ∀ j < vs.length, pushed (s.afterPushes [v]) j = pushed s (j + 1) := fun j hj => by
      rw [pushed_afterPushes s [v] (by rw [List.length_singleton]; omega), List.length_singleton, Nat.add_comm]
    rw [State.afterPushes_cons]
    cases k with
    | zero =>
      have other : ∀ j < vs.length, pushed s 0 ≠ pushed (s.afterPushes [v]) j := fun j hj h => by
        rw [later j hj] at h
        cases pushed_inj (by omega) (by omega) h
      rw [read_afterPushes_other (Nat.le_of_succ_le hlen) other, pushed_zero]
      exact Memory.read_write_same _ _ _ hwf
    | succ k =>
      have hk := Nat.lt_of_succ_lt_succ hk
      rw [← later k hk]
      exact ih (Memory.wf_write _ _ hwf) (Nat.le_of_succ_le hlen) hk

/-- `Push`, and what follows it, as an access (R160). -/
theorem push_bind {α : Type} (s : State) (v : Byte) (k : State → Except Stop α) :
    push s v >>= k = afterAccesses s.cfg.memSize [pushed s 0] (k (s.afterPushes [v])) := by
  rw [push_eq, afterAccesses_cons, pushed_zero]
  split <;> rfl

/-- `Push` as an access (R160). -/
theorem push_eq_afterAccesses (s : State) (v : Byte) :
    push s v = afterAccesses s.cfg.memSize [pushed s 0] (.ok (s.afterPushes [v])) := by
  rw [← push_bind s v .ok]
  cases push s v <;> rfl

theorem pushAll_cons (v : Byte) (vs : List Byte) (s : State) : pushAll (v :: vs) s = push s v >>= pushAll vs := by
  rw [pushAll]
  cases push s v <;> rfl

/-- Pushes in order as accesses in order (R160, R245). -/
theorem pushAll_eq {s : State} {vs : List Byte} (h : vs.length ≤ 256) : pushAll vs s =
    afterAccesses s.cfg.memSize ((List.range vs.length).map (pushed s)) (.ok (s.afterPushes vs)) := by
  induction vs generalizing s with
  | nil => rw [State.afterPushes_nil]; rfl
  | cons v vs ih =>
    rw [List.length_cons] at h
    have later : (List.range vs.length).map (pushed (s.afterPushes [v])) =
        (List.range vs.length).map (pushed s ∘ Nat.succ) := by
      refine List.map_congr_left fun k hk => ?_
      have hk := List.mem_range.mp hk
      rw [pushed_afterPushes s [v] (by rw [List.length_singleton]; omega), List.length_singleton, Nat.add_comm]
      rfl
    calc pushAll (v :: vs) s
      _ = afterAccesses s.cfg.memSize [pushed s 0] (pushAll vs (s.afterPushes [v])) := by rw [pushAll_cons, push_bind]
      _ = afterAccesses s.cfg.memSize ([pushed s 0] ++ (List.range vs.length).map (pushed s ∘ Nat.succ))
            (.ok (s.afterPushes (v :: vs))) := by
        rw [ih (Nat.le_of_succ_le h), later, State.afterPushes_cfg, afterAccesses_append, State.afterPushes_cons s v vs]
      _ = _ := by rw [List.length_cons, List.range_succ_eq_map, List.map_cons, List.map_map]; rfl

/-! ### Pulls -/

/-- The state after `n` pulls whose cells exist, but for what becomes of the pulled bytes (R161). -/
def State.afterPulls (s : State) (n : Nat) : State := s.withSp (s.sp + BitVec.ofNat 8 n)

@[simp] theorem State.afterPulls_mem (s : State) (n : Nat) : (s.afterPulls n).mem = s.mem := rfl
@[simp] theorem State.afterPulls_cfg (s : State) (n : Nat) : (s.afterPulls n).cfg = s.cfg := rfl

theorem State.afterPulls_loadP (s : State) (v : Byte) (n : Nat) : (s.loadP v).afterPulls n = (s.afterPulls n).loadP v :=
  rfl

/-- Pulls after pulls (R161). -/
theorem State.afterPulls_afterPulls (s : State) (j k : Nat) : (s.afterPulls j).afterPulls k = s.afterPulls (j + k) := by
  rw [State.afterPulls, State.afterPulls, State.afterPulls, State.withSp_sp, BitVec.add_assoc, ← BitVec.ofNat_add]
  rfl

/-- The cells of the pulls to come, from the state after some (R161). -/
theorem pulled_afterPulls (s : State) (j k : Nat) : pulled (s.afterPulls j) k = pulled s (j + k) := by
  rw [pulled, pulled, State.afterPulls, State.withSp_sp, BitVec.toNat_add, BitVec.toNat_ofNat]
  omega

@[simp] theorem pulled_loadP (s : State) (v : Byte) (k : Nat) : pulled (s.loadP v) k = pulled s k := rfl

/-- `Pull`, and what follows it, as an access (R161). -/
theorem pull_bind {α : Type} (s : State) (k : Byte × State → Except Stop α) :
    pull s >>= k = afterAccesses s.cfg.memSize [pulled s 1] (k (s.mem.read (pulled s 1), s.afterPulls 1)) := by
  rw [pull_eq, afterAccesses_cons]
  split <;> rfl

/-! ### The operations of the Stack Unit -/

/-- An operation that makes the accesses `addrs` and then changes the state by `f`. -/
def accessOp (addrs : State → List Nat) (f : State → State) : Execution :=
  stackOp fun s => afterAccesses s.cfg.memSize (addrs s) (.ok (f s))

/-- An operation that makes the accesses `addrs` and then changes the state by `f` and its operand's address. -/
def accessAddressOp (addrs : State → List Nat) (f : State → Addr → State) : Execution :=
  addressOp fun s ea => afterAccesses s.cfg.memSize (addrs s) (.ok (f s ea))

theorem accessOp_ok {addrs : State → List Nat} {f : State → State} {opd : Opd} {s u : State} {n : Nat} :
    accessOp addrs f opd s = .ok (u, n) ↔ (∀ addr ∈ addrs s, addr < s.cfg.memSize) ∧ u = f s ∧ n = 0 := by
  simp [accessOp, stackOp_ok, afterAccesses_ok, and_assoc, @eq_comm _ u]

theorem accessAddressOp_ok {addrs : State → List Nat} {f : State → Addr → State} {opd : Opd} {s u : State} {n : Nat} :
    accessAddressOp addrs f opd s = .ok (u, n) ↔ ∃ ea, opd = .mem ea ∧ (∀ addr ∈ addrs s, addr < s.cfg.memSize) ∧
      u = f s (BitVec.ofNat 16 ea) ∧ n = 0 := by
  simp [accessAddressOp, addressOp_ok, afterAccesses_ok, and_assoc, @eq_comm _ u]

/-- `PC` loaded from the little-endian pair at `BRK_VECTOR` (R165, R246). -/
def State.atVector (s : State) : State :=
  s.withPc (compose (s.mem.read (s.cfg.brkVector + 1)) (s.mem.read s.cfg.brkVector))

/-- The little-endian pair that two pulls give, the first of them from cell `k` (R223, R224). -/
def pulledPair (s : State) (k : Nat) : Addr :=
  compose (s.mem.read (pulled s (k + 1))) (s.mem.read (pulled s k))

/-! Each instruction of the Stack Unit and of the trap path as its accesses in order and one change of the state. -/

theorem executePhp_eq : executePhp = accessOp (fun s => [pushed s 0]) fun s => s.afterPushes [s.p] :=
  congrArg stackOp (funext fun s => push_eq_afterAccesses s s.p)

theorem executePha_eq : executePha = accessOp (fun s => [pushed s 0]) fun s => s.afterPushes [s.a] :=
  congrArg stackOp (funext fun s => push_eq_afterAccesses s s.a)

theorem executePla_eq : executePla = accessOp (fun s => [pulled s 1]) fun s =>
    ((s.afterPulls 1).withA (s.mem.read (pulled s 1))).setNZ (s.mem.read (pulled s 1)) :=
  congrArg stackOp (funext fun s => pull_bind s _)

theorem executePlp_eq : executePlp = accessOp (fun s => [pulled s 1]) fun s =>
    (s.afterPulls 1).loadP (s.mem.read (pulled s 1)) :=
  congrArg stackOp (funext fun s => pull_bind s _)

theorem executeBrk_eq : executeBrk = accessOp brkAccesses fun s =>
    ((s.setFlag .b true).afterPushes [hi8 s.pc, lo8 s.pc, setFlag s.p .b true]).atVector := by
  refine congrArg stackOp (funext fun s => ?_)
  simp only [trapEntry, push_bind, memRead_bind, State.setFlag_cfg, State.setFlag_pc, State.setFlag_p,
    State.afterPushes_cfg, State.afterPushes_pc, State.afterPushes_p, State.afterPushes_afterPushes,
    pushed_afterPushes, afterAccesses_append, List.cons_append, List.nil_append, List.length_cons, List.length_nil,
    Nat.reduceAdd, Nat.reduceLeDiff]
  rfl

theorem executeJsr_eq : executeJsr = accessAddressOp (fun s => [pushed s 0, pushed s 1]) fun s ea =>
    (s.afterPushes [hi8 (s.pc - 1#16), lo8 (s.pc - 1#16)]).withPc ea := by
  refine congrArg addressOp (funext fun s => funext fun ea => ?_)
  simp only [push_bind, State.afterPushes_cfg, State.afterPushes_afterPushes, pushed_afterPushes, afterAccesses_append,
    List.cons_append, List.nil_append, List.length_cons, List.length_nil, Nat.reduceAdd, Nat.reduceLeDiff]
  rfl

theorem executeRts_eq : executeRts = accessOp (fun s => [pulled s 1, pulled s 2]) fun s =>
    (s.afterPulls 2).withPc (pulledPair s 1 + 1#16) := by
  refine congrArg stackOp (funext fun s => ?_)
  simp only [pull_bind, State.afterPulls_cfg, State.afterPulls_mem, State.afterPulls_afterPulls, pulled_afterPulls,
    afterAccesses_append, List.cons_append, List.nil_append, Nat.reduceAdd]
  rfl

theorem executeRti_eq : executeRti = accessOp (fun s => [pulled s 1, pulled s 2, pulled s 3]) fun s =>
    ((s.afterPulls 3).loadP (s.mem.read (pulled s 1))).withPc (pulledPair s 2) := by
  refine congrArg stackOp (funext fun s => ?_)
  simp only [trapReturn, pull_bind, State.afterPulls_loadP, State.loadP_cfg, State.loadP_mem, pulled_loadP,
    State.afterPulls_cfg, State.afterPulls_mem, State.afterPulls_afterPulls, pulled_afterPulls, afterAccesses_append,
    List.cons_append, List.nil_append, Nat.reduceAdd]
  rfl

end Sys2Proof.Machine
end

section
/-! The memory family: sequences of writes (R43), the canonical form (log entry 2), and the launched memory with the
driver's writes (R36, R44, R59). -/

namespace Sys2Proof.Machine

open Sys2Proof.Claims

/-! ### The canonical form -/

/-- An address below every listed one reads 0x00 (R44). -/
theorem Memory.read_of_lt {m : Memory} {lo addr : Nat} (h : m.wfFrom lo = true) (hlt : addr < lo) :
    m.read addr = 0#8 := by
  induction m generalizing lo with
  | nil => rfl
  | cons c rest ih =>
    obtain ⟨b, w⟩ := c
    simp only [Memory.wfFrom, Bool.and_eq_true, decide_eq_true_eq] at h
    obtain ⟨⟨hlo, -⟩, hrest⟩ := h
    rw [Memory.read, if_neg (by omega)]
    exact ih hrest (by omega)

/-- A canonical memory that lists a cell: its address, its byte and the memory after it. -/
theorem Memory.wfFrom_cons {lo b : Nat} {w : Byte} {rest : Memory} :
    Memory.wfFrom lo ((b, w) :: rest) = true ↔ lo ≤ b ∧ w ≠ 0#8 ∧ rest.wfFrom (b + 1) = true := by
  simp [Memory.wfFrom, and_assoc]

theorem Memory.read_cons_same (b : Nat) (w : Byte) (rest : Memory) : Memory.read ((b, w) :: rest) b = w := if_pos rfl

theorem Memory.read_cons_other {b addr : Nat} (w : Byte) (rest : Memory) (h : addr ≠ b) :
    Memory.read ((b, w) :: rest) addr = rest.read addr := if_neg h

/-- A cell that is listed in one of two memories which read alike is not below every listed address of the other. -/
theorem Memory.le_of_read_eq {lo b : Nat} {w : Byte} {rest n : Memory} (hw : w ≠ 0#8) (hn : n.wfFrom lo = true)
    (h : Memory.read ((b, w) :: rest) b = n.read b) : lo ≤ b := by
  by_contra hlt
  rw [Memory.read_cons_same, Memory.read_of_lt hn (Nat.lt_of_not_le hlt)] at h
  exact hw h

/-- Canonical memories that read alike are the same list (log entry 2). -/
theorem Memory.ext_of_read {m n : Memory} {lo : Nat} (hm : m.wfFrom lo = true) (hn : n.wfFrom lo = true)
    (h : ∀ addr, m.read addr = n.read addr) : m = n := by
  induction m generalizing n lo with
  | nil =>
    cases n with
    | nil => rfl
    | cons d rest' =>
      obtain ⟨c, x⟩ := d
      obtain ⟨-, hx, -⟩ := Memory.wfFrom_cons.mp hn
      exact absurd ((Memory.read_cons_same c x rest').symm.trans (h c).symm) hx
  | cons d rest ih =>
    obtain ⟨b, w⟩ := d
    obtain ⟨hlo, hw, hrest⟩ := Memory.wfFrom_cons.mp hm
    cases n with
    | nil => exact absurd ((Memory.read_cons_same b w rest).symm.trans (h b)) hw
    | cons d' rest' =>
      obtain ⟨c, x⟩ := d'
      obtain ⟨hlo', hx, hrest'⟩ := Memory.wfFrom_cons.mp hn
      have hcb : c ≤ b := Memory.le_of_read_eq hw (Memory.wfFrom_cons.mpr ⟨Nat.le_refl c, hx, hrest'⟩) (h b)
      have hbc : b ≤ c := Memory.le_of_read_eq hx (Memory.wfFrom_cons.mpr ⟨Nat.le_refl b, hw, hrest⟩) (h c).symm
      obtain rfl := Nat.le_antisymm hcb hbc
      obtain rfl : w = x := by simpa only [Memory.read_cons_same] using h c
      refine congrArg _ (ih hrest hrest' fun addr => ?_)
      by_cases heq : addr = c
      · subst heq
        rw [Memory.read_of_lt hrest (Nat.lt_succ_self _), Memory.read_of_lt hrest' (Nat.lt_succ_self _)]
      · simpa only [Memory.read_cons_other w _ heq] using h addr

/-- Settles O6: the two memories list the same cells, the smallest first (`Memory.ext_of_read`), and `memWrite` keeps
the form. -/
theorem memoryCanonical : Obligations.MemoryCanonical := by
  refine ⟨fun m n hm hn h => Memory.ext_of_read hm hn h, fun s t addr v hwf hw => ?_⟩
  obtain ⟨-, rfl⟩ := memWrite_ok.mp hw
  exact Memory.wf_write addr v hwf

/-- Settles O5: the memory port inside and outside the array, and the two read laws along the list of writes. -/
theorem memoryRoundTrip : Obligations.MemoryRoundTrip := by
  refine ⟨fun s addr => ?port, fun m addr before after hwf hafter => ⟨fun v => ?written, ?untouched⟩⟩
  case port =>
    split
    · next hout => exact memRead_outside hout
    · next hin => exact memRead_inside (Nat.lt_of_not_le hin)
  case written =>
    rw [writeAll_append, writeAll_cons, read_writeAll_other _ _ hafter]
    exact Memory.read_write_same _ addr v (wf_writeAll before hwf)
  case untouched => exact read_writeAll_other m after hafter

/-! ### The launched memory -/

/-- Loading an image keeps the canonical form. -/
theorem wf_writeImage {m : Memory} {base size : Nat} (image : List Byte) (h : m.wf = true) :
    (m.writeImage base size image).wf = true := by
  induction image generalizing m base with
  | nil => exact h
  | cons v image ih =>
    rw [Memory.writeImage]
    split
    · exact ih (Memory.wf_write base v h)
    · exact h

/-- Loading an image keeps the memory inside the array. -/
theorem fits_writeImage {m : Memory} {base size : Nat} (image : List Byte) (h : m.fits size = true) :
    (m.writeImage base size image).fits size = true := by
  induction image generalizing m base with
  | nil => exact h
  | cons v image ih =>
    rw [Memory.writeImage]
    split
    · next hbase => exact ih (Memory.fits_write v h hbase)
    · exact h

/-- A cell the image does not reach reads as before, the others the image's byte (R44). -/
theorem read_writeImage {m : Memory} {base size : Nat} (image : List Byte) (hwf : m.wf = true) (addr : Nat) :
    (m.writeImage base size image).read addr =
      if base ≤ addr ∧ addr < size ∧ addr - base < image.length then image.getD (addr - base) 0#8 else m.read addr := by
  induction image generalizing m base with
  | nil => simp [Memory.writeImage]
  | cons v image ih =>
    rw [Memory.writeImage]
    split
    · next hbase =>
      rw [ih (Memory.wf_write base v hwf)]
      obtain rfl | hne := eq_or_ne addr base
      · rw [if_neg (by omega), Memory.read_write_same _ _ _ hwf, if_pos (by simpa using hbase)]
        simp
      · rw [Memory.read_write_other _ _ _ _ hne, List.length_cons]
        by_cases hin : base + 1 ≤ addr ∧ addr < size ∧ addr - (base + 1) < image.length
        · rw [if_pos hin, if_pos (by omega), show addr - base = addr - (base + 1) + 1 by omega, List.getD_cons_succ]
        · rw [if_neg hin, if_neg (by omega)]
    · next hbase => rw [if_neg (by omega)]

/-- Cell `i` of the launch memory is image byte `i`, 0x00 past the image and past the array (R44). -/
theorem read_imageMemory (size : Nat) (image : List Byte) (addr : Nat) :
    (imageMemory size image).read addr = if addr < size then image.getD addr 0#8 else 0#8 := by
  rw [imageMemory, read_writeImage image rfl, Nat.sub_zero]
  by_cases hlen : addr < image.length
  · simp [hlen]
  · rw [if_neg fun h => hlen h.2.2, List.getD_eq_default _ _ (Nat.le_of_not_lt hlen), ite_self]
    rfl

/-- The reset value of `P` has the reserved bit set (R34). -/
theorem reset_reserved : State.reset.p.getLsbD 5 = true := rfl

/-- Settles O2: the default parameters are in range, an empty memory is canonical, and the reset value of `P` has bit 5
set (`reset_reserved`). -/
theorem invAtReset : Obligations.InvAtReset := ⟨by decide, rfl, rfl, reset_reserved⟩

/-- The launched machine meets the invariant (R263). -/
theorem launch_inv {cfg : Config} (image : List Byte) (h : cfg.wf = true) : (launch cfg image).Inv :=
  ⟨h, wf_writeImage image rfl, fits_writeImage image rfl, reset_reserved⟩

/-! ### The driver's writes -/

/-- After a tick the driver's writes need `HOST_WRITES_MEMORY` (R36, R59). -/
theorem hostWrite_after_tick {ss tt : Session} {r : TickReport} (addr : Nat) (v : Byte) (ht : ss.tick = .ok (r, tt))
    (hcfg : tt.config.hostWritesMemory = false) : ∃ refusal, Session.hostWrite addr v tt = .error refusal := by
  have ticked : tt.beforeFirstTick = false := by
    obtain ⟨_, _, rfl, ⟨_, _, _, rfl⟩ | ⟨_, _, _, rfl⟩⟩ := Session.tick_ok.mp ht <;> rfl
  cases hw : Session.hostWrite addr v tt with
  | error refusal => exact ⟨refusal, rfl⟩
  | ok uu =>
    obtain ⟨-, allowed, -⟩ := Session.hostWrite_ok.mp hw
    rw [ticked, hcfg] at allowed
    simp at allowed

/-- Settles O3: the launch memory byte by byte (`read_imageMemory`), and the driver's write by `Session.hostWrite_ok`,
of which the refusal after a tick is the other direction. -/
theorem launchMemory : Obligations.LaunchMemory := by
  refine ⟨fun cfg image hcfg => ⟨launch_inv image hcfg, rfl, read_imageMemory cfg.memSize image⟩,
    fun cfg mem addr v hin => ⟨_, Session.hostWrite_ok.mpr ⟨hin, .inl rfl, rfl⟩, fun _ => rfl⟩,
    fun s addr v hin => Session.hostWrite_ok.mpr ⟨hin, .inl rfl, rfl⟩,
    fun ss tt r addr v ht hcfg => hostWrite_after_tick addr v ht hcfg,
    fun s addr v hin hcfg => Session.hostWrite_ok.mpr ⟨hin, .inr hcfg, rfl⟩⟩

end Sys2Proof.Machine
end

section
/-! The stack, trap and return family (R160 to R171, R220 to R224, R245 to R247): what the instructions that push and
pull leave, the first missing cell as their fault, and that the returns undo the entries. -/

namespace Sys2Proof.Machine

open Sys2Proof.Claims

/-! ### Running accesses -/

/-- A one-byte instruction whose accesses all exist completes (R101). -/
theorem exec_of_accessOp {i : Instr} {addrs : State → List Nat} {f : State → State} {b : Byte} {s : State}
    (hb : opcodeOf i = some b) (him : i.operand = .implied) (hex : executionOf i = accessOp addrs f)
    (h : ∀ addr ∈ addrs s, addr < s.cfg.memSize) : exec i s = .next ((f s).withCyc (ticksLeft s b 0)) := by
  rw [exec_of_stackOp hb him hex, afterAccesses_ok.mpr ⟨h, rfl⟩]
  rfl

/-- A one-byte instruction faults at the first of its accesses that does not exist (R245). -/
theorem exec_of_accessOp_missing {i : Instr} {addrs : State → List Nat} {f : State → State} {b : Byte} {s : State}
    {addr : Nat} (hb : opcodeOf i = some b) (him : i.operand = .implied) (hex : executionOf i = accessOp addrs f)
    (h : firstMissing s (addrs s) = some addr) : exec i s = .fault (.addressingFault addr) := by
  rw [exec_of_stackOp hb him hex, afterAccesses_of_missing _ h]
  rfl

/-- An instruction whose accesses all exist goes on with its operand's address (R98, R101). -/
theorem exec_of_accessAddressOp {i : Instr} {addrs : State → List Nat} {f : State → Addr → State} {b : Byte} {s : State}
    {ea : Addr} {pen : Nat} (hb : opcodeOf i = some b) (hr : resolve i.operand s = .ok (.mem ea.toNat, pen))
    (hex : executionOf i = accessAddressOp addrs f) (h : ∀ addr ∈ addrs s, addr < s.cfg.memSize) :
    exec i s = .next ((f s ea).withCyc (ticksLeft s b pen)) := by
  have run : executionOf i (.mem ea.toNat) s = .ok (f s ea, 0) := by
    rw [hex]
    exact accessAddressOp_ok.mpr ⟨ea.toNat, rfl, h, by rw [BitVec.ofNat_toNat, BitVec.setWidth_eq], rfl⟩
  exact exec_next.mpr ⟨b, _, pen, _, 0, hb, hr, run, rfl⟩

/-- An instruction that uses its operand's address faults at the first of its accesses that does not exist (R245). -/
theorem exec_of_accessAddressOp_missing {i : Instr} {addrs : State → List Nat} {f : State → Addr → State} {s : State}
    {ea pen addr : Nat} (hw : i.wf = true) (hr : resolve i.operand s = .ok (.mem ea, pen))
    (hex : executionOf i = accessAddressOp addrs f) (h : firstMissing s (addrs s) = some addr) :
    exec i s = .fault (.addressingFault addr) := by
  have stop : executionOf i (.mem ea) s = .error (.fault (.addressingFault addr)) := by
    rw [hex, accessAddressOp, addressOp]
    simp only [afterAccesses_of_missing _ h]
    rfl
  exact exec_of_stop hw hr stop

/-! ### The cells of the stack page -/

theorem pushed_lt (s : State) (k : Nat) : pushed s k < 0x200 := by
  rw [pushed]
  omega

theorem pulled_lt (s : State) (k : Nat) : pulled s k < 0x200 := by
  rw [pulled]
  omega

/-- The stack page is 0x0100 to 0x01FF (R48). -/
theorem le_pushed (s : State) (k : Nat) : 0x100 ≤ pushed s k := Nat.le_add_right _ _

/-- `SP` after up to a page of pushes, as a number (R160). -/
theorem toNat_sub_ofNat (sp : Byte) {n : Nat} (h : n ≤ 256) :
    (sp - BitVec.ofNat 8 n).toNat = (sp.toNat + 256 - n) % 256 := by
  have byte := sp.isLt
  rw [BitVec.toNat_sub, BitVec.toNat_ofNat]
  omega

/-- What `n` pushes wrote is pulled from the cells it was pushed to, the last byte first (R160, R161). -/
theorem pulled_eq_pushed {s t : State} {n k : Nat} (hsp : t.sp.toNat = (s.sp.toNat + 256 - n) % 256) (hn : n ≤ 256)
    (hk : k ≤ n) : pulled t k = pushed s (n - k) := by
  rw [pulled, pushed, hsp]
  omega

/-! ### The status register -/

/-- Every flag of a loaded `P` is the byte's bit, B among them (R20, D15). -/
theorem getFlag_load (v : Byte) (f : Flag) : getFlag (v ||| 0x20#8) f = v.getLsbD f.bit := by
  cases f <;> simp [getFlag, Flag.bit]

/-- The reserved bit of a loaded `P` (R20, D16). -/
theorem reserved_or_load (v : Byte) : (v ||| 0x20#8).getLsbD 5 = true := by simp

/-- `P` is its seven flags and the reserved bit (R18). -/
theorem eq_of_flags {p q : Byte} (hflags : ∀ f, getFlag p f = getFlag q f)
    (hreserved : p.getLsbD 5 = q.getLsbD 5) : p = q := by
  apply BitVec.eq_of_getLsbD_eq
  intro k hk
  obtain rfl | rfl | rfl | rfl | rfl | rfl | rfl | rfl :
      k = 0 ∨ k = 1 ∨ k = 2 ∨ k = 3 ∨ k = 4 ∨ k = 5 ∨ k = 6 ∨ k = 7 := by omega
  · exact hflags .c
  · exact hflags .z
  · exact hflags .i
  · exact hflags .d
  · exact hflags .b
  · exact hreserved
  · exact hflags .v
  · exact hflags .n

/-! ### Pushes and pulls -/

/-- Settles O10: the pull reads the cell the push wrote, and 256 pushes are one page of `pushAll_eq`, after which `SP`
is 256 lower modulo 256. -/
theorem stackRoundTrip : Obligations.StackRoundTrip := by
  refine ⟨fun s v hwf hin => ?undone, fun s vs hwf hsize hlen => ?filled⟩
  case undone =>
    rw [pushed_zero] at hin
    refine ⟨_, push_ok.mpr ⟨hin, rfl⟩, ?_⟩
    have back : s.sp - 1#8 + 1#8 = s.sp := BitVec.sub_add_cancel _ _
    refine pull_ok.mpr ⟨by simpa [back] using hin, ?_, by simp [back, State.withSp, State.withMem]⟩
    rw [State.withSp_mem, State.withMem_mem, State.withSp_sp, back, Memory.read_write_same _ _ _ hwf]
  case filled =>
    have exist : ∀ addr ∈ (List.range vs.length).map (pushed s), addr < s.cfg.memSize := by
      intro addr haddr
      obtain ⟨k, -, rfl⟩ := List.mem_map.mp haddr
      exact Nat.lt_of_lt_of_le (pushed_lt s k) hsize
    have round : s.afterPushes vs = { s with mem := (s.afterPushes vs).mem } := by
      simp [State.afterPushes, hlen, State.withSp, State.withMem]
    refine ⟨(s.afterPushes vs).mem, ?_, fun k hk => read_afterPushes hwf hlen.le (hlen ▸ hk), fun addr haddr => ?_⟩
    · rw [← round]
      exact (pushAll_eq hlen.le).trans (afterAccesses_ok.mpr ⟨exist, rfl⟩)
    · refine read_afterPushes_other hlen.le fun k _ h => ?_
      have low := le_pushed s k
      have high := pushed_lt s k
      omega

/-- Settles O30: the rows are the opcode lists' (`hasRows_of_opcodesOf`); PHP ends as its push (`push_eq`), PLP as its
pull (`pull_eq`) with the pulled byte loaded (`getFlag_load`). -/
theorem pushAndPullStatus : Obligations.PushAndPullStatus := by
  refine ⟨?phpRows, ?plpRows, fun s => ?php, fun s hout => ?plpFaults, fun s hin => ?plp⟩
  case phpRows | plpRows => exact hasRows_of_opcodesOf (by decide) (by decide) (by decide)
  case php =>
    rw [exec_of_stackOp rfl rfl rfl, push_eq]
    split <;> rfl
  case plpFaults =>
    rw [exec_of_stackOp rfl rfl rfl, pull_eq, if_pos hout]
    rfl
  case plp =>
    refine ⟨s.mem.read (pulled s 1) ||| 0x20#8, ?_, reserved_or_load _, getFlag_load _⟩
    rw [exec_of_stackOp rfl rfl rfl, pull_eq, if_neg (Nat.not_le.mpr hin)]
    rfl

/-! ### The trap entry and the subroutine entry -/

/-- Settles O31: BRK makes its five accesses in order (`executeBrk_eq`); its three pushes stand where the statement says
(`read_afterPushes`) and change nothing else (`read_afterPushes_other`). -/
theorem brkEntry : Obligations.BrkEntry := by
  refine ⟨hasRows_of_opcodesOf (by decide) (by decide) (by decide), fun s hwf hstack hvector => ?completes,
    fun s addr => exec_of_accessOp_missing rfl rfl executeBrk_eq⟩
  case completes =>
    have exist : ∀ addr ∈ brkAccesses s, addr < s.cfg.memSize := by
      simp [brkAccesses, hstack, hvector, Nat.lt_of_succ_lt hvector]
    have stands {k : Nat} (hk : k < 3) := read_afterPushes (s := s.setFlag .b true)
      (vs := [hi8 s.pc, lo8 s.pc, setFlag s.p .b true]) hwf (by simp) hk
    refine ⟨_, exec_of_accessOp rfl rfl executeBrk_eq exist, stands (k := 0) (by decide), stands (k := 1) (by decide),
      stands (k := 2) (by decide), fun addr haddr => ?frame, toNat_sub_ofNat s.sp (by simp), rfl,
      compose_toNat_eq_mul_add _ _, ⟨rfl, rfl, rfl, rfl⟩, rfl⟩
    exact read_afterPushes_other (s := s.setFlag .b true) (by simp) haddr

/-- The bytes of an address, in the order JSR and BRK push them, as one number (R5). -/
theorem hi8_lo8_toNat (w : Addr) : 256 * (hi8 w).toNat + (lo8 w).toNat = w.toNat := by
  rw [← compose_toNat_eq_mul_add, compose_hi8_lo8]

/-- Settles O45: JSR makes its two pushes and goes to its operand's address (`executeJsr_eq`). -/
theorem jumpToSubroutine : Obligations.JumpToSubroutine := by
  refine ⟨hasRows_of_opcodesOf (by decide) (by decide) (by decide), fun s ea hwf hstack => ?completes,
    fun s ea addr => exec_of_accessAddressOp_missing (i := .jsr _) rfl rfl executeJsr_eq⟩
  case completes =>
    have exist : ∀ addr ∈ [pushed s 0, pushed s 1], addr < s.cfg.memSize := by simp [hstack]
    have stands {k : Nat} (hk : k < 2) :=
      read_afterPushes (vs := [hi8 (s.pc - 1#16), lo8 (s.pc - 1#16)]) hwf (by simp) hk
    refine ⟨_, exec_of_accessAddressOp rfl rfl executeJsr_eq exist, ?saved,
      fun addr haddr => ?frame, toNat_sub_ofNat s.sp (by simp), rfl, rfl, ⟨rfl, rfl, rfl, rfl⟩, rfl⟩
    case frame => exact read_afterPushes_other (vs := [hi8 (s.pc - 1#16), lo8 (s.pc - 1#16)]) (by simp) haddr
    have saved : (s.pc - 1#16).toNat = (s.pc.toNat + 65535) % 65536 := by bv_omega
    rw [← saved, ← hi8_lo8_toNat (s.pc - 1#16)]
    exact congrArg₂ (fun hi lo : Byte => 256 * hi.toNat + lo.toNat) (stands (k := 0) (by simp))
      (stands (k := 1) (by simp))

/-! ### The returns -/

/-- Settles O46: RTS and RTI make their pulls in order (`executeRts_eq`, `executeRti_eq`) and load the pulled pair. -/
theorem returns : Obligations.Returns := by
  refine ⟨?rtsRows, ?rtiRows, fun s hstack => ?rts, fun s hstack => ?rti,
    fun s addr => exec_of_accessOp_missing (i := .rts) rfl rfl executeRts_eq,
    fun s addr => exec_of_accessOp_missing (i := .rti) rfl rfl executeRti_eq⟩
  case rtsRows | rtiRows => exact hasRows_of_opcodesOf (by decide) (by decide) (by decide)
  case rts =>
    have exist : ∀ addr ∈ [pulled s 1, pulled s 2], addr < s.cfg.memSize := by simp [hstack]
    refine ⟨_, exec_of_accessOp rfl rfl executeRts_eq exist, ?_, rfl⟩
    rw [State.withCyc_pc, State.withPc_pc, BitVec.toNat_add, pulledPair, compose_toNat_eq_mul_add]
    rfl
  case rti =>
    have exist : ∀ addr ∈ [pulled s 1, pulled s 2, pulled s 3], addr < s.cfg.memSize := by simp [hstack]
    exact ⟨_, exec_of_accessOp rfl rfl executeRti_eq exist, compose_toNat_eq_mul_add _ _, reserved_or_load _,
      getFlag_load _, rfl⟩

/-- A base count is read from the parameters alone (U22). -/
theorem ticksLeft_congr {s t : State} (h : t.cfg = s.cfg) (b : Byte) (pen : Nat) :
    ticksLeft t b pen = ticksLeft s b pen := by
  rw [ticksLeft, ticksLeft, State.baseCycles, State.baseCycles, h]

/-- RTI after BRK: the first pull gives the pushed status, the next two the pushed address (R247). -/
theorem rti_undoes_brk {s : State} (hwf : s.mem.wf = true) (hp : s.p.getLsbD 5 = true) (hsize : 0x200 ≤ s.cfg.memSize)
    (hvector : s.cfg.brkVector + 1 < s.cfg.memSize) : ∃ t u, exec .brk s = .next t ∧ exec .rti t = .next u ∧
      u = { s with p := setFlag s.p .b true, mem := t.mem, cyc := ticksLeft s 0x40#8 0 } := by
  obtain ⟨-, completes, -⟩ := brkEntry
  obtain ⟨t, ht, hhi, hlo, hstatus, -, hsp, -, -, ⟨ha, hx, hy, hcfg⟩, -⟩ :=
    completes s hwf (fun k _ => Nat.lt_of_lt_of_le (pushed_lt s k) hsize) hvector
  have cell {k : Nat} (hk : k ≤ 3) : pulled t k = pushed s (3 - k) := pulled_eq_pushed hsp (by decide) hk
  obtain ⟨-, -, -, completes, -⟩ := returns
  obtain ⟨u, hu, hpc, hreserved, hflags, heq⟩ :=
    completes t fun k _ _ => Nat.lt_of_lt_of_le (pulled_lt t k) (hcfg ▸ hsize)
  rw [cell (by decide), hstatus] at hflags
  rw [cell (by decide), cell (by decide), hhi, hlo, hi8_lo8_toNat] at hpc
  have status : u.p = setFlag s.p .b true := eq_of_flags hflags (by rw [hreserved, reserved_setFlag, hp])
  have back : t.sp + 3#8 = s.sp := by bv_omega
  refine ⟨t, u, ht, hu, ?_⟩
  rw [heq, status, BitVec.eq_of_toNat_eq hpc, back, ticksLeft_congr hcfg, ha, hx, hy, hcfg]

/-- RTS after JSR: the two pulls give the address of JSR's last byte, and RTS adds 1 (R223). -/
theorem rts_undoes_jsr {s : State} (ea : Addr) (hwf : s.mem.wf = true) (hsize : 0x200 ≤ s.cfg.memSize) :
    ∃ t u, exec (.jsr (.absolute ea)) s = .next t ∧ exec .rts t = .next u ∧
      u = { s with mem := t.mem, cyc := ticksLeft s 0x60#8 0 } := by
  obtain ⟨-, completes, -⟩ := jumpToSubroutine
  obtain ⟨t, ht, hsaved, -, hsp, hp, -, ⟨ha, hx, hy, hcfg⟩, -⟩ :=
    completes s ea hwf fun k _ => Nat.lt_of_lt_of_le (pushed_lt s k) hsize
  have cell {k : Nat} (hk : k ≤ 2) : pulled t k = pushed s (2 - k) := pulled_eq_pushed hsp (by decide) hk
  obtain ⟨-, -, completes, -⟩ := returns
  obtain ⟨u, hu, hpc, heq⟩ := completes t fun k _ _ => Nat.lt_of_lt_of_le (pulled_lt t k) (hcfg ▸ hsize)
  rw [cell (by decide), cell (by decide), hsaved] at hpc
  have forward : u.pc = s.pc := by bv_omega
  have back : t.sp + 2#8 = s.sp := by bv_omega
  refine ⟨t, u, ht, hu, ?_⟩
  rw [heq, forward, back, ticksLeft_congr hcfg, ha, hx, hy, hp, hcfg]

/-- Settles O58: the pulled cells are the pushed ones in reverse (`pulled_eq_pushed`), so each return finds the bytes of
its entry. -/
theorem returnsUndoEntries : Obligations.ReturnsUndoEntries :=
  ⟨fun _ => rti_undoes_brk, fun _ ea => rts_undoes_jsr ea⟩

/-- Settles O44: the rows are the opcode lists' (`hasRows_of_opcodesOf`); JMP goes where its operand resolves
(`exec_jmp_of_resolve`) and faults where the resolver does. -/
theorem jumpIndirect : Obligations.JumpIndirect :=
  ⟨hasRows_of_opcodesOf (by decide) (by decide) (by decide), fun _ _ _ hr => exec_jmp_of_resolve rfl hr,
    fun _ _ _ hr => exec_of_resolve_stop (i := .jmp (.indirect _)) rfl hr⟩

end Sys2Proof.Machine
end

section
/-! The engine and the rest of the resolver: the fetch as accesses in order (R58, R73), the step that runs what it
fetched (R100, R101), the bound of `CYC`, the trap entry as a step, the Indirect mode (R93) and page crossings (R94). -/

namespace Sys2Proof.Machine

open Sys2Proof.Claims

/-! ### The fetch -/

/-- The address of byte `k` of the instruction at `PC`, modulo 65536 (R17, R58). -/
def fetchAddr (s : State) (k : Nat) : Nat := (s.pc + BitVec.ofNat 16 k).toNat

/-- The `Fetch8` that reads byte `k` of the instruction at `s.pc`, and what follows it, as an access (R16). -/
theorem fetch8_withPc_bind {α : Type} (s : State) (n : Nat) (k : Byte × State → Except Stop α) :
    fetch8 (s.withPc (s.pc + BitVec.ofNat 16 n)) >>= k =
      afterAccesses s.cfg.memSize [fetchAddr s n] (k (byteAt s n, s.withPc (s.pc + BitVec.ofNat 16 (n + 1)))) := by
  have past : s.pc + BitVec.ofNat 16 n + 1#16 = s.pc + BitVec.ofNat 16 (n + 1) := by
    rw [BitVec.add_assoc, ← BitVec.ofNat_add]
  rw [fetch8, bind_assoc, memRead_bind, ← past]
  rfl

/-- The fetch in every state: it reads the bytes from `PC` on, as many as the opcode's mode takes, and answers the
instruction they make with `PC` past them (R15, R60, R73). -/
theorem fetch_eq (s : State) : fetch s =
    afterAccesses s.cfg.memSize ((List.range (1 + (optable (byteAt s 0)).mode.operandBytes)).map (fetchAddr s))
      (.ok (instrAt (byteAt s 0) (byteAt s 1) (byteAt s 2),
        s.withPc (s.pc + BitVec.ofNat 16 (1 + (optable (byteAt s 0)).mode.operandBytes)))) := by
  have start : s = s.withPc (s.pc + BitVec.ofNat 16 0) := by simp [State.withPc]
  have two := operandBytes_le_two (optable (byteAt s 0)).mode
  conv_lhs => rw [start]
  obtain zero | one | two : (optable (byteAt s 0)).mode.operandBytes = 0 ∨
      (optable (byteAt s 0)).mode.operandBytes = 1 ∨ (optable (byteAt s 0)).mode.operandBytes = 2 := by omega
  · simp only [fetch, fetch8_withPc_bind, zero]
    rw [instrAt_of_operandBytes_zero zero 0#8 0#8 (byteAt s 1) (byteAt s 2)]
    rfl
  · simp only [fetch, fetch8_withPc_bind, one, afterAccesses_append]
    rw [instrAt_of_operandBytes_one one _ (byteAt s 2) 0#8]
    rfl
  · simp only [fetch, fetch8_withPc_bind, two, afterAccesses_append]
    rfl

/-- The fetch faults at the first byte of the instruction that does not exist (R240, R245). -/
theorem fetch_missing {s : State} {k : Nat} (hexist : BytesExist s k)
    (hk : k ≤ (optable (byteAt s 0)).mode.operandBytes) (hmiss : ¬ BytesExist s (k + 1)) :
    fetch s = .error (.fault (.addressingFault (fetchAddr s k))) := by
  have outside : s.cfg.memSize ≤ fetchAddr s k := by
    by_contra hin
    refine hmiss fun j hj => ?_
    obtain h | rfl := Nat.lt_succ_iff_lt_or_eq.mp hj
    · exact hexist j h
    · exact Nat.lt_of_not_le hin
  have first : firstMissing s ((List.range (1 + (optable (byteAt s 0)).mode.operandBytes)).map (fetchAddr s)) =
      some (fetchAddr s k) := by
    have found : (List.range (1 + (optable (byteAt s 0)).mode.operandBytes)).find?
        (fun j => decide (s.cfg.memSize ≤ fetchAddr s j)) = some k := by
      rw [List.find?_range_eq_some]
      refine ⟨by simpa using outside, List.mem_range.mpr (by omega), fun j hj => ?_⟩
      simpa using (show fetchAddr s j < s.cfg.memSize from hexist j hj)
    rw [firstMissing, List.find?_map]
    exact congrArg (Option.map (fetchAddr s)) found
  rw [fetch_eq, afterAccesses_of_missing _ first]

/-- Everything the fetch can do when it answers: the instruction is built from an opcode byte, and only `PC` changes. -/
theorem fetch_ok {s t : State} {i : Instr} (h : fetch s = .ok (i, t)) :
    (∃ b x y, i = instrAt b x y) ∧ ∃ pc, t = s.withPc pc := by
  rw [fetch_eq] at h
  obtain ⟨-, h⟩ := afterAccesses_ok.mp h
  cases h
  exact ⟨⟨_, _, _, rfl⟩, _, rfl⟩

/-- What the fetch finds is well formed (R66). -/
theorem wf_of_fetch {s t : State} {i : Instr} (h : fetch s = .ok (i, t)) : i.wf = true := by
  obtain ⟨⟨b, x, y, rfl⟩, -⟩ := fetch_ok h
  exact instrAt_wf b x y

/-! ### The step -/

/-- A fetch that faults is the step's fault (R101, R240). -/
theorem step_of_fetch_fault {s : State} {f : Fault} (h : s.cyc = 0) (hf : fetch s = .error (.fault f)) :
    step s = .fault f := by
  rw [step_of_idle h, fetchTick, hf]

/-- Everything a step can do when it answers: a countdown tick, or an instruction fetched and run (R100 to R102). -/
theorem step_next {s t : State} (h : step s = .next t) :
    (0 < s.cyc ∧ t = countdownTick s) ∨ (s.cyc = 0 ∧ ∃ i u, fetch s = .ok (i, u) ∧ exec i u = .next t) := by
  obtain idle | busy := Nat.eq_zero_or_pos s.cyc
  · rw [step_of_idle idle, fetchTick] at h
    split at h
    · next i u hf => exact .inr ⟨idle, i, u, hf, h⟩
    · cases h
    · cases h
  · rw [step_of_busy busy] at h
    cases h
    exact .inl ⟨busy, rfl⟩

/-- Settles O21: a busy engine counts down; the bytes that decode at `PC` are those the fetch reads
(`decode_cons_ok`, `fetch_of_bytesExist`). -/
theorem stepRunsDecodedInstruction : Obligations.StepRunsDecodedInstruction := by
  refine ⟨fun s hbusy => step_of_busy hbusy, fun s i rest hidle hdecode hexist => ?_⟩
  obtain ⟨-, rfl, rfl⟩ := decode_cons_ok.mp hdecode
  have two := operandBytes_le_two (optable (byteAt s 0)).mode
  have length : 3 - ([byteAt s 1, byteAt s 2].drop (optable (byteAt s 0)).mode.operandBytes).length =
      1 + (optable (byteAt s 0)).mode.operandBytes := by
    rw [List.length_drop, List.length_cons, List.length_singleton]
    omega
  rw [length] at hexist ⊢
  exact step_of_fetch hidle (fetch_of_bytesExist hexist)

/-- Settles O22: the three clauses are `fetch_missing` for the opcode byte and the first and second operand byte. -/
theorem fetchFaults : Obligations.FetchFaults := by
  intro s hidle
  refine ⟨fun hmiss => ?opcode, fun hexist hmode hmiss => ?first, fun hexist hmode hmiss => ?second⟩
  case opcode =>
    have fault := fetch_missing (k := 0) nofun (Nat.zero_le _) hmiss
    rw [fetchAddr, BitVec.add_zero] at fault
    exact step_of_fetch_fault hidle fault
  case first => exact step_of_fetch_fault hidle (fetch_missing hexist hmode hmiss)
  case second => exact step_of_fetch_fault hidle (fetch_missing hexist hmode.ge hmiss)

/-! ### The bound of `CYC` -/

theorem pagePenalty_le_one (base : Addr) (ea : Nat) : pagePenalty base ea ≤ 1 := by
  rw [pagePenalty]
  split <;> decide

/-- A mode's own penalty is at most one tick, and Relative has none (R92, R94). -/
theorem resolve_penalty {m : Operand} {s : State} {opd : Opd} {pen : Nat} (hr : resolve m s = .ok (opd, pen)) :
    pen ≤ 1 ∧ (m.mode = .relative → pen = 0) := by
  cases m with
  | implied | accumulator | immediate | zeroPage | zeroPageX | zeroPageY | absolute | relative =>
    cases hr
    exact ⟨Nat.zero_le _, fun _ => rfl⟩
  | absoluteX | absoluteY =>
    cases hr
    exact ⟨pagePenalty_le_one _ _, nofun⟩
  | indirectX | indirect =>
    obtain ⟨w, -, h⟩ := bind_ok_iff.mp hr
    cases h
    exact ⟨Nat.zero_le _, nofun⟩
  | indirectY =>
    obtain ⟨w, -, h⟩ := bind_ok_iff.mp hr
    cases h
    exact ⟨pagePenalty_le_one _ _, nofun⟩

theorem branchPenalty_le_two (old new : Addr) : branchPenalty old new ≤ 2 := by
  rw [branchPenalty]
  split <;> decide

/-- Only a branch has a penalty of its own, of at most two ticks (R145). -/
theorem RunsAs.penalty {i : Instr} {ex : Execution} {s u : State} {opd : Opd} {n : Nat} (h : RunsAs i ex)
    (he : ex opd s = .ok (u, n)) : n = 0 ∨ i.operand.mode = .relative ∧ n ≤ 2 := by
  cases h with
  | register f _ => exact .inl (registerOp_ok.mp he).2
  | read f _ =>
    obtain ⟨_, -, -, rfl⟩ := readOp_ok.mp he
    exact .inl rfl
  | store value _ => exact .inl (storeOp_ok.mp he).2
  | shift f _ =>
    obtain ⟨_, _, -, -, -, rfl⟩ := shiftOp_ok.mp he
    exact .inl rfl
  | modify f _ =>
    obtain ⟨_, _, -, -, -, rfl⟩ := modifyOp_ok.mp he
    exact .inl rfl
  | binary f _ _ =>
    obtain ⟨_, -, -, rfl, -⟩ := binaryOp_ok.mp he
    exact .inl rfl
  | branch f want hm =>
    obtain ⟨_, -, ⟨-, -, rfl⟩ | ⟨-, -, rfl⟩⟩ := branchOp_ok.mp he
    · exact .inr ⟨hm, branchPenalty_le_two _ _⟩
    · exact .inl rfl
  | stack f _ _ => exact .inl (stackOp_ok.mp he).2
  | address f _ _ _ =>
    obtain ⟨_, -, -, rfl⟩ := addressOp_ok.mp he
    exact .inl rfl

/-- The base counts of the map of R68: 2 to 7, and 2 for every branch. -/
theorem optable_baseCycles : ∀ b : Byte, 2 ≤ (optable b).baseCycles ∧ (optable b).baseCycles ≤ 7 ∧
    ((optable b).mode = .relative → (optable b).baseCycles = 2) := by
  decide

/-- Under the table's counts an instruction leaves `CYC` between 1 and 7 (R101). -/
theorem exec_cyc {i : Instr} {s t : State} (hcfg : s.cfg.baseCycleChanges = []) (h : exec i s = .next t) :
    1 ≤ t.cyc ∧ t.cyc ≤ 7 := by
  obtain ⟨b, opd, penA, u, penOp, hb, hr, he, rfl⟩ := exec_next.mp h
  have hw := wf_of_opcodeOf hb
  obtain ⟨b', hb', -, hmode⟩ := optable_opcodeOf hw
  obtain rfl : b = b' := Option.some.inj (hb.symm.trans hb')
  obtain ⟨low, high, branch⟩ := optable_baseCycles b
  obtain ⟨hpenA, hrelative⟩ := resolve_penalty hr
  rw [State.withCyc_cyc, State.baseCycles_table hcfg]
  obtain rfl | ⟨hrel, hpenOp⟩ := (runsAs_of_wf hw).penalty he
  · omega
  · have := branch (hmode.trans hrel)
    have := hrelative hrel
    omega

/-- Settles O24: a countdown tick lowers `CYC`, and a fetch tick leaves it between 1 and 7 (`exec_cyc`). -/
theorem cycleBound : Obligations.CycleBound := by
  intro s t hcfg hstep
  obtain ⟨busy, rfl⟩ | ⟨idle, i, u, hf, he⟩ := step_next hstep
  · rw [countdownTick, State.withCyc_cyc]
    omega
  · obtain ⟨-, pc, rfl⟩ := fetch_ok hf
    have bound := exec_cyc (s := s.withPc pc) hcfg he
    exact ⟨fun _ => bound, fun _ => bound.2⟩

/-! ### The trap entry as a step -/

/-- The fetch tick of a BRK byte is BRK with `PC` at the byte after the opcode (R246). -/
theorem step_brk {s : State} (hidle : s.cyc = 0) (hpc : s.pc.toNat < s.cfg.memSize) (hbrk : byteAt s 0 = 0x00#8) :
    step s = exec .brk (s.withPc (s.pc + 1#16)) := by
  obtain ⟨-, run⟩ := stepRunsDecodedInstruction
  refine run s .brk [byteAt s 1, byteAt s 2] hidle (by rw [hbrk]; rfl) fun k hk => ?_
  obtain rfl : k = 0 := Nat.lt_one_iff.mp hk
  rwa [BitVec.add_zero]

/-- Settles O32: the step is BRK one byte on (`step_brk`), whose entry and faults are those of `brkEntry`. -/
theorem brkTrapStep : Obligations.BrkTrapStep := by
  obtain ⟨-, completes, faults⟩ := brkEntry
  refine ⟨fun s hwf hidle hpc hbrk hstack hvector => ?entry, fun s addr hidle hpc hbrk hmiss => ?fault⟩
  case entry =>
    obtain ⟨t, ht, hhi, hlo, hstatus, hframe, hsp, hp, htarget, hsame, hcyc⟩ :=
      completes (s.withPc (s.pc + 1#16)) hwf hstack hvector
    refine ⟨t, (step_brk hidle hpc hbrk).trans ht, ?saved, hstatus.trans hp.symm, ?set, fun f hf => ?kept, hframe, hsp,
      htarget, hsame, fun hcfg => ?count⟩
    case saved =>
      have saved : (s.pc + 1#16).toNat = (s.pc.toNat + 1) % 65536 := BitVec.toNat_add _ _
      rw [← saved, ← hi8_lo8_toNat]
      exact congrArg₂ (fun hi lo : Byte => 256 * hi.toNat + lo.toNat) hhi hlo
    case set => rw [hp, getFlag_setFlag_same]
    case kept => rw [hp, getFlag_setFlag_other _ _ hf]; rfl
    case count =>
      rw [hcyc, ticksLeft, State.baseCycles_table (s := s.withPc (s.pc + 1#16)) hcfg]
      rfl
  case fault =>
    rw [step_brk hidle hpc hbrk]
    exact faults _ addr hmiss

/-! ### Resolver facts -/

/-- Reading the pair of the Indirect mode and going on with it, as accesses (R93). -/
theorem indirectPair_bind {α : Type} (s : State) (ptr : Addr) (k : Addr → Except Stop α) : indirectPair s ptr >>= k =
    afterAccesses s.cfg.memSize [ptr.toNat, indirectHighAddr s.cfg.jmpIndirectPageWrap ptr]
      (k (compose (s.mem.read (indirectHighAddr s.cfg.jmpIndirectPageWrap ptr)) (s.mem.read ptr.toNat))) := by
  rw [indirectPair, bind_assoc, memRead_bind, bind_assoc, memRead_bind, afterAccesses_append]
  rfl

/-- Where the Indirect mode reads the high byte, in numbers (R93, D6). -/
theorem indirectHighAddr_compose (wrap : Bool) (hi lo : Byte) : indirectHighAddr wrap (compose hi lo) =
    if wrap then 256 * hi.toNat + (lo.toNat + 1) % 256 else 256 * hi.toNat + lo.toNat + 1 := by
  cases wrap with
  | true =>
    simp only [indirectHighAddr, if_true, hi8_compose, lo8_compose, compose_toNat_eq_mul_add, BitVec.toNat_add]
    rfl
  | false => simp [indirectHighAddr, compose_toNat_eq_mul_add]

/-- Settles O18: the two accesses of the pair (`indirectPair_bind`), with the pointer and its successor in numbers
(`indirectHighAddr_compose`). -/
theorem resolverIndirectMode : Obligations.ResolverIndirectMode := by
  refine resolves_of_operandOf (m := .indirect) fun s => ?_
  rw [operandOf, resolve, indirectPair_bind, indirectHighAddr_compose, compose_toNat_eq_mul_add,
    compose_toNat_eq_mul_add, afterAccesses_cons, afterAccesses_cons]
  rfl

/-- Settles O19: the sum's low byte carries into the page exactly where it is at least 256. -/
theorem pageCrossing : Obligations.PageCrossing := by
  intro base index
  refine ⟨rfl, ?_⟩
  have byte := index.isLt
  have addr := base.isLt
  have same : pageOf (base.toNat + index.toNat) = pageOf base.toNat ↔ ¬ 256 ≤ base.toNat % 256 + index.toNat := by
    rw [pageOf, pageOf]
    omega
  rw [indexed, pagePenalty]
  by_cases crosses : 256 ≤ base.toNat % 256 + index.toNat
  · rw [if_pos crosses, if_neg fun h => same.mp h crosses]
  · rw [if_neg crosses, if_pos (same.mpr crosses)]

end Sys2Proof.Machine
end

section
/-! The add and subtract family (R200 to R202, R212), the conditional branches (R145 to R153) and the fetch of a stored
byte. -/

namespace Sys2Proof.Machine

open Sys2Proof.Claims

/-! ### The sum and the difference in numbers -/

/-- The binary sum in the words of the statement (R200). -/
theorem addWithCarry_eq (a m : Byte) (c : Bool) : addWithCarry a m c =
    { result := BitVec.ofNat 8 ((a.toNat + m.toNat + c.toNat) % 256)
      carry := decide (255 < a.toNat + m.toNat + c.toNat)
      overflow := decide ((a ^^^ BitVec.ofNat 8 ((a.toNat + m.toNat + c.toNat) % 256)) &&&
        (m ^^^ BitVec.ofNat 8 ((a.toNat + m.toNat + c.toNat) % 256)) &&& 0x80#8 ≠ 0#8) } := by
  have reduced : BitVec.ofNat 8 ((a.toNat + m.toNat + c.toNat) % 256) = BitVec.ofNat 8 (a.toNat + m.toNat + c.toNat) :=
    BitVec.eq_of_toNat_eq (by simp)
  rw [reduced, addWithCarry, bne, beq_eq_decide, ← decide_not]

/-- The one's complement of the operand as a number (R201). -/
theorem toNat_xor_ones (m : Byte) : (m ^^^ 0xFF#8).toNat = 255 - m.toNat := by
  have ones : (0xFF#8 : Byte) = BitVec.allOnes 8 := rfl
  rw [ones, BitVec.xor_allOnes, BitVec.toNat_not]

/-- The one's complement of the operand as a signed number (R201). -/
theorem toInt_xor_ones (m : Byte) : (m ^^^ 0xFF#8).toInt = -1 - m.toInt := by
  have byte := m.isLt
  rw [BitVec.toInt_eq_toNat_cond, BitVec.toInt_eq_toNat_cond, toNat_xor_ones]
  split <;> split <;> omega

/-- The sum is exact: what the result byte loses is the carry (R200). -/
theorem addWithCarry_exact (a m : Byte) (c : Bool) : a.toNat + m.toNat + c.toNat =
    256 * (addWithCarry a m c).carry.toNat + (addWithCarry a m c).result.toNat := by
  have ha := a.isLt
  have hm := m.isLt
  have hc := c.toNat_le
  rw [addWithCarry_eq, BitVec.toNat_ofNat, Nat.mod_mod]
  by_cases carry : 255 < a.toNat + m.toNat + c.toNat
  · rw [decide_eq_true carry, Bool.toNat_true]
    omega
  · rw [decide_eq_false carry, Bool.toNat_false]
    omega

/-- Bit 7 is the one bit that the mask of the overflow rule keeps. -/
theorem and_sign_ne_zero : ∀ v : Byte, v &&& 0x80#8 ≠ 0#8 ↔ v.msb = true := by decide

/-- V reports that the sign of the result is that of neither operand (R200). -/
theorem addWithCarry_overflow (a m : Byte) (c : Bool) : (addWithCarry a m c).overflow = true ↔
    (128 ≤ a.toNat ↔ ¬ 128 ≤ (a.toNat + m.toNat + c.toNat) % 256) ∧
      (128 ≤ m.toNat ↔ ¬ 128 ≤ (a.toNat + m.toNat + c.toNat) % 256) := by
  rw [addWithCarry_eq, decide_eq_true_iff, and_sign_ne_zero, BitVec.msb_and, BitVec.msb_xor, BitVec.msb_xor,
    Bool.and_eq_true, Bool.xor_iff_ne, Bool.xor_iff_ne, BitVec.msb_eq_decide, BitVec.msb_eq_decide,
    BitVec.msb_eq_decide, ne_eq, ne_eq, decide_eq_decide, decide_eq_decide, BitVec.toNat_ofNat]
  omega

/-- V is signed overflow of the sum (R200). -/
theorem addWithCarry_overflow_iff_toInt (a m : Byte) (c : Bool) : (addWithCarry a m c).overflow = true ↔
    a.toInt + m.toInt + c.toNat < -128 ∨ 127 < a.toInt + m.toInt + c.toNat := by
  have ha := a.isLt
  have hm := m.isLt
  have hc := c.toNat_le
  rw [addWithCarry_overflow, BitVec.toInt_eq_toNat_cond, BitVec.toInt_eq_toNat_cond]
  split <;> split <;> omega

/-- Settles O39: the sum's equation and overflow (`addWithCarry_exact`, `addWithCarry_overflow_iff_toInt`), for the
difference at the operand's one's complement. -/
theorem exactArithmetic : Obligations.ExactArithmetic := by
  intro a m c
  have complement := toNat_xor_ones m
  have signed := toInt_xor_ones m
  have byte := m.isLt
  have difference := addWithCarry_exact a (m ^^^ 0xFF#8) c
  refine ⟨addWithCarry_exact a m c, ?_, addWithCarry_overflow_iff_toInt a m c, ?_⟩
  · rw [subWithBorrow]
    omega
  · rw [subWithBorrow, addWithCarry_overflow_iff_toInt, signed]
    omega

/-! ### Adding and subtracting an operand -/

/-- What an instruction that runs `binaryOp` leaves where its operand is read and D is 0 (R200, R201). -/
theorem exec_of_binaryOp {i : Instr} {f : Byte → Byte → Bool → AddResult} {s : State} {b v r : Byte} {opd : Opd}
    {pen : Nat} {carry overflow : Bool} (hex : executionOf i = binaryOp f) (hb : opcodeOf i = some b)
    (hr : resolve i.operand s = .ok (opd, pen)) (hv : readOperand opd s = .ok v) (hd : getFlag s.p .d = false)
    (hf : f s.a v (getFlag s.p .c) = ⟨r, carry, overflow⟩) : exec i s = .next
      { s with a := r, p := withFlags s.p ((.c, carry) :: (.v, overflow) :: nz r), cyc := ticksLeft s b pen } := by
  have run : executionOf i opd s =
      .ok (((((s.setFlag .c carry).setFlag .v overflow).withA r).setNZ r), 0) := by
    rw [hex]
    exact binaryOp_ok.mpr ⟨v, hv, hd, rfl, by rw [hf]⟩
  rw [setNZ_withA] at run
  exact exec_next.mpr ⟨b, opd, pen, _, 0, hb, hr, run, rfl⟩

/-- An instruction that runs `binaryOp` faults where the read of its operand does, whatever D is (R245). -/
theorem exec_of_binaryOp_fault {i : Instr} {f : Byte → Byte → Bool → AddResult} {s : State} {b : Byte} {opd : Opd}
    {pen : Nat} {e : Fault} (hex : executionOf i = binaryOp f) (hb : opcodeOf i = some b)
    (hr : resolve i.operand s = .ok (opd, pen)) (he : readOperand opd s = .error (.fault e)) : exec i s = .fault e := by
  have stop : executionOf i opd s = .error (.fault e) := by
    rw [hex, binaryOp, he]
    rfl
  exact exec_of_stop (wf_of_opcodeOf hb) hr stop

/-- Settles O38: the rows are the opcode list's (`hasRows_of_opcodesOf`), and SBC runs `binaryOp` with the sum of the
operand's complement in numbers (`toNat_xor_ones`). -/
theorem subtractWithBorrow : Obligations.SubtractWithBorrow := by
  refine ⟨?rows, fun m s b opd pen v hb hr hv hd => ?completes, fun m s b opd pen v hb hr hv hd => ?refused,
    fun m s b opd pen f hb hr he => ?faults, faultsWithResolver_of_operand fun _ => rfl⟩
  case rows => exact hasRows_of_opcodesOf (by decide) (by decide) (by decide)
  case completes =>
    rw [← toNat_xor_ones v]
    exact exec_of_binaryOp (i := .sbc m) rfl hb hr hv hd (addWithCarry_eq _ _ _)
  case refused => exact exec_decimal (i := .sbc m) (wf_of_opcodeOf hb) ⟨.inr rfl, hd⟩ hr hv
  case faults => exact exec_of_binaryOp_fault (i := .sbc m) rfl hb hr he

/-! ### Branches -/

/-- The high byte of an address as a number (R5). -/
theorem hi8_toNat (w : Addr) : (hi8 w).toNat = w.toNat / 256 % 256 := by
  simp [hi8, Nat.shiftRight_eq_div_pow]

/-- A taken branch's penalty in the words of the statements (R145). -/
theorem branchPenalty_eq_crossing (old new : Addr) : branchPenalty old new = 1 + crossing old.toNat new.toNat := by
  simp only [branchPenalty, crossing, BitVec.toNat_eq, hi8_toNat]

/-- A taken branch's target is the address that the statements describe by its number (R145, R17). -/
theorem branchTarget_eq {old target : Addr} {d : Int} (h : (target.toNat : Int) = ((old.toNat : Int) + d) % 65536) :
    branchTarget old d = target := by
  apply BitVec.eq_of_toNat_eq
  rw [branchTarget, BitVec.toNat_ofInt]
  exact (congrArg Int.toNat h).symm

/-- An instruction that runs `branchOp` on a Relative operand (R92, R145). -/
theorem branchesOn_of_branchOp {mk : Operand → Instr} {b : Byte} {f : Flag} {want : Bool}
    (hop : ∀ m, (mk m).operand = m) (hex : ∀ m, executionOf (mk m) = branchOp f want)
    (hb : ∀ disp, opcodeOf (mk (.relative disp)) = some b) : BranchesOn mk b f want := by
  intro disp s
  have resolved : resolve (mk (.relative disp)).operand s = .ok (.rel disp.toInt, 0) := by
    rw [hop, resolve, sext16_eq_toInt]
  refine ⟨fun taken target htarget => ?taken, fun skipped => ?skipped⟩
  case taken =>
    have run : executionOf (mk (.relative disp)) (.rel disp.toInt) s =
        .ok (s.withPc target, 1 + crossing s.pc.toNat target.toNat) := by
      rw [hex, ← branchPenalty_eq_crossing]
      refine branchOp_ok.mpr ⟨_, rfl, .inl ⟨taken, ?_, ?_⟩⟩ <;> rw [branchTarget_eq htarget]
    exact exec_next.mpr ⟨b, _, 0, _, _, hb disp, resolved, run, rfl⟩
  case skipped =>
    have run : executionOf (mk (.relative disp)) (.rel disp.toInt) s = .ok (s, 0) := by
      rw [hex]
      exact branchOp_ok.mpr ⟨_, rfl, .inr ⟨skipped, rfl, rfl⟩⟩
    exact exec_next.mpr ⟨b, _, 0, _, _, hb disp, resolved, run, rfl⟩

/-- Settles O28: the rows are the opcode lists' (`hasRows_of_opcodesOf`), and each of the eight runs `branchOp` with its
flag and polarity (`branchesOn_of_branchOp`). -/
theorem conditionalBranches : Obligations.ConditionalBranches := by
  refine ⟨⟨?bplRows, ?bpl⟩, ⟨?bmiRows, ?bmi⟩, ⟨?bvcRows, ?bvc⟩, ⟨?bvsRows, ?bvs⟩, ⟨?bccRows, ?bcc⟩, ⟨?bcsRows, ?bcs⟩,
    ⟨?bneRows, ?bne⟩, ⟨?beqRows, ?beq⟩⟩
  case bplRows | bmiRows | bvcRows | bvsRows | bccRows | bcsRows | bneRows | beqRows =>
    exact hasRows_of_opcodesOf (by decide) (by decide) (by decide)
  case bpl | bmi | bvc | bvs | bcc | bcs | bne | beq =>
    exact branchesOn_of_branchOp (fun _ => rfl) (fun _ => rfl) fun _ => rfl

/-! ### The fetch of a stored byte -/

/-- A byte that an instruction stored at `ea` is what the next fetch there reads (R43). -/
theorem fetch8_of_storesValue {mk : Operand → Instr} {value : State → Byte} {m : Operand} {s t : State} {ea pen : Nat}
    {pc : Addr} (hstores : StoresValue mk value) (hwf : s.mem.wf = true) (hr : resolve m s = .ok (.mem ea, pen))
    (h : exec (mk m) s = .next t) (hpc : pc.toNat = ea) :
    fetch8 { t with pc := pc } = .ok (value s, { t with pc := pc + 1#16 }) := by
  obtain ⟨b, -, -, -, -, hb, -⟩ := exec_next.mp h
  obtain ⟨completes, faults⟩ := hstores m s b ea pen hb hr
  have inside : ea < s.cfg.memSize := by
    by_contra hout
    rw [faults (Nat.le_of_not_lt hout)] at h
    cases h
  obtain rfl := Host.Outcome.next.inj ((completes inside).symm.trans h)
  refine fetch8_ok.mpr ⟨hpc ▸ inside, ?_, rfl⟩
  rw [hpc]
  exact (Memory.read_write_same _ _ _ hwf).symm

/-- Settles O35: the three stores write their register to the cell (`stores`), where the fetch reads it
(`fetch8_of_storesValue`). -/
theorem storeSeenByFetch : Obligations.StoreSeenByFetch := by
  intro i m s t ea pen hwf hi hr h pc hpc
  obtain ⟨-, -, -, sta, stx, sty, -⟩ := stores
  obtain rfl | rfl | rfl := hi
  · rw [if_pos rfl]
    exact fetch8_of_storesValue sta hwf hr h hpc
  · rw [if_neg nofun, if_pos rfl]
    exact fetch8_of_storesValue stx hwf hr h hpc
  · rw [if_neg nofun, if_neg nofun]
    exact fetch8_of_storesValue sty hwf hr h hpc

end Sys2Proof.Machine
/-! O37's theorem bears the name of the model's own `Machine.addWithCarry`, so it stands outside `Machine`. -/

namespace Sys2Proof

open Sys2Proof.Machine

/-- Settles O37: the rows are the opcode list's (`hasRows_of_opcodesOf`), and ADC runs `binaryOp` with the sum in
numbers (`addWithCarry_eq`). -/
theorem addWithCarry : Obligations.AddWithCarry := by
  refine ⟨?rows, fun m s b opd pen v hb hr hv hd => ?completes, fun m s b opd pen v hb hr hv hd => ?refused,
    fun m s b opd pen f hb hr he => ?faults, faultsWithResolver_of_operand fun _ => rfl⟩
  case rows => exact hasRows_of_opcodesOf (by decide) (by decide) (by decide)
  case completes => exact exec_of_binaryOp (i := .adc m) rfl hb hr hv hd (addWithCarry_eq _ _ _)
  case refused => exact exec_decimal (i := .adc m) (wf_of_opcodeOf hb) ⟨.inl rfl, hd⟩ hr hv
  case faults => exact exec_of_binaryOp_fault (i := .adc m) rfl hb hr he

end Sys2Proof
end

section
/-! Frames: the shape of every instruction with the functions it runs (R8, R111), the next states each shape can give,
and from these what no instruction changes. -/

namespace Sys2Proof.Machine

open Sys2Proof.Claims

/-! ### The shape of every instruction -/

/-- The shared operation an instruction runs, with its functions. -/
inductive Shape where
  | register (f : State → State)
  | read (f : State → Byte → State)
  | store (value : State → Byte)
  | shift (f : Bool → Byte → Byte × Bool)
  | modify (f : Byte → Byte)
  | binary (f : Byte → Byte → Bool → AddResult)
  | branch (f : Flag) (want : Bool)
  | access (addrs : State → List Nat) (f : State → State)
  | jump (addrs : State → List Nat) (f : State → Addr → State)

/-- The shared operation itself. -/
def Shape.run : Shape → Execution
  | .register f => registerOp f
  | .read f => readOp f
  | .store value => storeOp value
  | .shift f => shiftOp f
  | .modify f => modifyOp f
  | .binary f => binaryOp f
  | .branch f want => branchOp f want
  | .access addrs f => accessOp addrs f
  | .jump addrs f => accessAddressOp addrs f

/-- The modes whose descriptor the operation can use (R95, R96, R98). -/
def Shape.suits : Shape → Mode → Bool
  | .register _, m | .access _ _, m => m == .implied
  | .read _, m | .binary _, m => m.readable
  | .shift _, m => m.writable
  | .store _, m | .modify _, m | .jump _ _, m => m.hasAddress
  | .branch _ _, m => m == .relative

/-- The shape of each instruction (R120 to R232). -/
def shapeOf : Instr → Shape
  | .ora _ => .read fun s v => (s.withA (s.a ||| v)).setNZ (s.a ||| v)
  | .and _ => .read fun s v => (s.withA (s.a &&& v)).setNZ (s.a &&& v)
  | .eor _ => .read fun s v => (s.withA (s.a ^^^ v)).setNZ (s.a ^^^ v)
  | .lda _ => .read fun s v => (s.withA v).setNZ v
  | .ldx _ => .read fun s v => (s.withX v).setNZ v
  | .ldy _ => .read fun s v => (s.withY v).setNZ v
  | .bit _ => .read fun s v => s.withP (bitFlags s.p s.a v)
  | .cmp _ => .read fun s v => s.withP (compareFlags s.p s.a v)
  | .cpx _ => .read fun s v => s.withP (compareFlags s.p s.x v)
  | .cpy _ => .read fun s v => s.withP (compareFlags s.p s.y v)
  | .adc _ => .binary addWithCarry
  | .sbc _ => .binary subWithBorrow
  | .asl _ => .shift aslByte
  | .rol _ => .shift rolByte
  | .lsr _ => .shift lsrByte
  | .ror _ => .shift rorByte
  | .inc _ => .modify (· + 1#8)
  | .dec _ => .modify (· - 1#8)
  | .sta _ => .store State.a
  | .stx _ => .store State.x
  | .sty _ => .store State.y
  | .bpl _ => .branch .n false
  | .bmi _ => .branch .n true
  | .bvc _ => .branch .v false
  | .bvs _ => .branch .v true
  | .bcc _ => .branch .c false
  | .bcs _ => .branch .c true
  | .bne _ => .branch .z false
  | .beq _ => .branch .z true
  | .php => .access (fun s => [pushed s 0]) fun s => s.afterPushes [s.p]
  | .pha => .access (fun s => [pushed s 0]) fun s => s.afterPushes [s.a]
  | .pla => .access (fun s => [pulled s 1]) fun s =>
      ((s.afterPulls 1).withA (s.mem.read (pulled s 1))).setNZ (s.mem.read (pulled s 1))
  | .plp => .access (fun s => [pulled s 1]) fun s => (s.afterPulls 1).loadP (s.mem.read (pulled s 1))
  | .brk => .access brkAccesses fun s =>
      ((s.setFlag .b true).afterPushes [hi8 s.pc, lo8 s.pc, setFlag s.p .b true]).atVector
  | .rts => .access (fun s => [pulled s 1, pulled s 2]) fun s => (s.afterPulls 2).withPc (pulledPair s 1 + 1#16)
  | .rti => .access (fun s => [pulled s 1, pulled s 2, pulled s 3]) fun s =>
      ((s.afterPulls 3).loadP (s.mem.read (pulled s 1))).withPc (pulledPair s 2)
  | .jmp _ => .jump (fun _ => []) State.withPc
  | .jsr _ => .jump (fun s => [pushed s 0, pushed s 1]) fun s ea =>
      (s.afterPushes [hi8 (s.pc - 1#16), lo8 (s.pc - 1#16)]).withPc ea
  | .tax => .register fun s => (s.withX s.a).setNZ s.a
  | .tay => .register fun s => (s.withY s.a).setNZ s.a
  | .txa => .register fun s => (s.withA s.x).setNZ s.x
  | .tya => .register fun s => (s.withA s.y).setNZ s.y
  | .tsx => .register fun s => (s.withX s.sp).setNZ s.sp
  | .txs => .register fun s => s.withSp s.x
  | .inx => .register fun s => (s.withX (s.x + 1#8)).setNZ (s.x + 1#8)
  | .iny => .register fun s => (s.withY (s.y + 1#8)).setNZ (s.y + 1#8)
  | .dex => .register fun s => (s.withX (s.x - 1#8)).setNZ (s.x - 1#8)
  | .dey => .register fun s => (s.withY (s.y - 1#8)).setNZ (s.y - 1#8)
  | .clc => .register fun s => s.setFlag .c false
  | .sec => .register fun s => s.setFlag .c true
  | .cli => .register fun s => s.setFlag .i false
  | .sei => .register fun s => s.setFlag .i true
  | .clv => .register fun s => s.setFlag .v false
  | .cld => .register fun s => s.setFlag .d false
  | .sed => .register fun s => s.setFlag .d true
  | .nop | .undefined _ => .register fun s => s

/-- Every instruction runs its shape; the stack instructions as accesses in order (R245). -/
theorem executionOf_eq_run (i : Instr) : executionOf i = (shapeOf i).run := by
  cases i with
  | php => exact executePhp_eq
  | pha => exact executePha_eq
  | pla => exact executePla_eq
  | plp => exact executePlp_eq
  | brk => exact executeBrk_eq
  | rts => exact executeRts_eq
  | rti => exact executeRti_eq
  | jsr => exact executeJsr_eq
  | _ => rfl

/-- A well-formed instruction's operand is in a mode that its shape can use (R98). -/
theorem suits_of_wf {i : Instr} (h : i.wf = true) : (shapeOf i).suits i.operand.mode = true := by
  cases i with
  | undefined => rfl
  | _ => exact mode_of_wf (P := Shape.suits _) h rfl

/-! ### The next states of a shape -/

/-- The next states a shape can give from a descriptor and a state. -/
inductive Shape.Gives : Shape → Opd → State → State → Prop
  | register (f : State → State) (opd : Opd) (s : State) : Gives (.register f) opd s (f s)
  | read (f : State → Byte → State) (opd : Opd) (s : State) (v : Byte) : Gives (.read f) opd s (f s v)
  | store (value : State → Byte) (ea : Nat) (s : State) : ea < s.cfg.memSize →
      Gives (.store value) (.mem ea) s (s.withMem (s.mem.write ea (value s)))
  | shiftAcc (f : Bool → Byte → Byte × Bool) (s : State) (c : Bool) (r : Byte) :
      Gives (.shift f) .acc s (((s.setFlag .c c).withA r).setNZ r)
  | shiftCell (f : Bool → Byte → Byte × Bool) (ea : Nat) (s : State) (c : Bool) (r : Byte) : ea < s.cfg.memSize →
      Gives (.shift f) (.mem ea) s (((s.setFlag .c c).withMem (s.mem.write ea r)).setNZ r)
  | modify (f : Byte → Byte) (ea : Nat) (s : State) (r : Byte) : ea < s.cfg.memSize →
      Gives (.modify f) (.mem ea) s ((s.withMem (s.mem.write ea r)).setNZ r)
  | binary (f : Byte → Byte → Bool → AddResult) (opd : Opd) (s : State) (c v : Bool) (r : Byte) :
      Gives (.binary f) opd s ((((s.setFlag .c c).setFlag .v v).withA r).setNZ r)
  | taken (f : Flag) (want : Bool) (d : Int) (s : State) (pc : Addr) : Gives (.branch f want) (.rel d) s (s.withPc pc)
  | skipped (f : Flag) (want : Bool) (d : Int) (s : State) : Gives (.branch f want) (.rel d) s s
  | access (addrs : State → List Nat) (f : State → State) (opd : Opd) (s : State) :
      (∀ addr ∈ addrs s, addr < s.cfg.memSize) → Gives (.access addrs f) opd s (f s)
  | jump (addrs : State → List Nat) (f : State → Addr → State) (ea : Nat) (s : State) :
      (∀ addr ∈ addrs s, addr < s.cfg.memSize) → Gives (.jump addrs f) (.mem ea) s (f s (BitVec.ofNat 16 ea))

/-- Everything a shape can do when it answers, from a descriptor of a mode it can use. -/
theorem Shape.gives_of_run {sh : Shape} {m : Operand} {s u : State} {opd : Opd} {pen n : Nat}
    (hm : sh.suits m.mode = true) (hr : resolve m s = .ok (opd, pen)) (h : sh.run opd s = .ok (u, n)) :
    sh.Gives opd s u := by
  cases sh with
  | register f =>
    obtain ⟨rfl, -⟩ := (registerOp_ok (opd := opd)).mp h
    exact .register f opd s
  | read f =>
    obtain ⟨v, -, rfl, -⟩ := readOp_ok.mp h
    exact .read f opd s v
  | store value =>
    obtain ⟨ea, rfl⟩ := resolve_hasAddress hr hm
    obtain ⟨hw, -⟩ := storeOp_ok.mp h
    obtain ⟨hin, rfl⟩ := memWrite_ok.mp hw
    exact .store value ea s hin
  | shift f =>
    obtain ⟨v, t, -, hw, rfl, -⟩ := shiftOp_ok.mp h
    obtain ⟨rfl, rfl⟩ | ⟨ea, rfl, hin, rfl⟩ := writeOperand_ok.mp hw
    · exact .shiftAcc f s _ _
    · exact .shiftCell f ea s _ _ hin
  | modify f =>
    obtain ⟨ea, rfl⟩ := resolve_hasAddress hr hm
    obtain ⟨v, t, -, hw, rfl, -⟩ := modifyOp_ok.mp h
    obtain ⟨hin, rfl⟩ := memWrite_ok.mp hw
    exact .modify f ea s _ hin
  | binary f =>
    obtain ⟨v, -, -, -, rfl⟩ := binaryOp_ok.mp h
    exact .binary f opd s _ _ _
  | branch f want =>
    obtain ⟨d, rfl, ⟨-, rfl, -⟩ | ⟨-, rfl, -⟩⟩ := branchOp_ok.mp h
    · exact .taken f want d s _
    · exact .skipped f want d u
  | access addrs f =>
    obtain ⟨hin, rfl, -⟩ := accessOp_ok.mp h
    exact .access addrs f opd s hin
  | jump addrs f =>
    obtain ⟨ea, rfl, hin, rfl, -⟩ := accessAddressOp_ok.mp h
    exact .jump addrs f ea s hin

/-- Everything executing an instruction can do when it answers a next state: its shape gives it, and `CYC` is set. -/
theorem gives_of_exec {i : Instr} {s t : State} (h : exec i s = .next t) :
    ∃ opd pen u n, resolve i.operand s = .ok (opd, pen) ∧ (shapeOf i).Gives opd s u ∧ t = u.withCyc n := by
  obtain ⟨b, opd, pen, u, n, hb, hr, he, rfl⟩ := exec_next.mp h
  rw [executionOf_eq_run] at he
  exact ⟨opd, pen, u, _, hr, Shape.gives_of_run (suits_of_wf (wf_of_opcodeOf hb)) hr he, rfl⟩

/-! ### Registers and parameters -/

/-- Only the Accumulator mode resolves to the accumulator (R82). -/
theorem resolve_acc {m : Operand} {s : State} {pen : Nat} (hr : resolve m s = .ok (.acc, pen)) : m = .accumulator := by
  cases m with
  | accumulator => rfl
  | indirectX | indirectY | indirect =>
    obtain ⟨w, -, h⟩ := bind_ok_iff.mp hr
    cases h
  | _ => cases hr

section
variable {i : Instr} {opd : Opd} {s u : State} (h : (shapeOf i).Gives opd s u)
include h

/-- No instruction writes a parameter (R3). -/
theorem Shape.Gives.cfg : u.cfg = s.cfg := by
  cases i <;> cases h <;> rfl

theorem Shape.Gives.x (hw : writesX i.operation = false) : u.x = s.x := by
  cases i with
  | ldx | tax | tsx | inx | dex => cases hw
  | _ => cases h <;> rfl

theorem Shape.Gives.y (hw : writesY i.operation = false) : u.y = s.y := by
  cases i with
  | ldy | tay | iny | dey => cases hw
  | _ => cases h <;> rfl

theorem Shape.Gives.pc (hw : transfersControl i.operation = false) : u.pc = s.pc := by
  cases i with
  | bpl | bmi | bvc | bvs | bcc | bcs | bne | beq | brk | jmp | jsr | rts | rti => cases hw
  | _ => cases h <;> rfl

/-- A shift writes `A` where its descriptor is the accumulator, which is in Accumulator mode only (R11, R82). -/
theorem Shape.Gives.a {pen : Nat} (hr : resolve i.operand s = .ok (opd, pen)) (hw : writesA i = false) : u.a = s.a := by
  cases i with
  | ora | and | eor | adc | sbc | lda | pla | txa | tya => cases hw
  | asl m | rol m | lsr m | ror m =>
    cases h with
    | shiftAcc c r =>
      obtain rfl : m = .accumulator := resolve_acc hr
      cases hw
    | shiftCell => rfl
  | _ => cases h <;> rfl

/-- `SP` moves by the bytes pulled and pushed (R14). -/
theorem Shape.Gives.sp (hi : i ≠ .txs) :
    u.sp.toNat = (s.sp.toNat + 256 + pullCount i.operation - pushCount i.operation) % 256 := by
  have byte := s.sp.isLt
  have still : s.sp.toNat = (s.sp.toNat + 256 + 0 - 0) % 256 := by omega
  have up (n : Nat) : (s.sp + BitVec.ofNat 8 n).toNat = (s.sp.toNat + 256 + n - 0) % 256 := by
    rw [BitVec.toNat_add, BitVec.toNat_ofNat]
    omega
  cases i with
  | txs => exact absurd rfl hi
  | php | pha | brk | jsr => cases h; exact toNat_sub_ofNat s.sp (by simp)
  | pla | plp => cases h; exact up 1
  | rts => cases h; exact up 2
  | rti => cases h; exact up 3
  | _ => cases h <;> exact still

end

/-! ### Flags -/

/-- From `p` to `q` no flag outside `fs` changes, and bit 5 stays set (R9, R20). -/
def FlagsKept (fs : List Flag) (p q : Byte) : Prop :=
  (∀ f, f ∉ fs → getFlag q f = getFlag p f) ∧ (p.getLsbD 5 = true → q.getLsbD 5 = true)

theorem FlagsKept.refl (fs : List Flag) (p : Byte) : FlagsKept fs p p := ⟨fun _ _ => rfl, id⟩

theorem FlagsKept.setFlag {fs : List Flag} {p q : Byte} {f : Flag} {b : Bool} (h : FlagsKept fs p q)
    (hf : fs.contains f = true) : FlagsKept fs p (Machine.setFlag q f b) := by
  obtain ⟨hflags, hreserved⟩ := h
  refine ⟨fun g hg => ?_, fun hp => by rw [reserved_setFlag, hreserved hp]⟩
  have other : g ≠ f := fun hgf => hg (hgf ▸ List.contains_iff_mem.mp hf)
  rw [getFlag_setFlag_other _ _ other, hflags g hg]

theorem FlagsKept.setNZ {fs : List Flag} {p q v : Byte} (h : FlagsKept fs p q) (hn : fs.contains .n = true)
    (hz : fs.contains .z = true) : FlagsKept fs p (Machine.setNZ q v) := (h.setFlag hn).setFlag hz

/-- A load of `P` may write every flag (R20, R171, R224). -/
theorem FlagsKept.load {fs : List Flag} (p v : Byte) (h : ∀ f, fs.contains f = true) :
    FlagsKept fs p (v ||| 0x20#8) :=
  ⟨fun f hf => absurd (List.contains_iff_mem.mp (h f)) hf, fun _ => reserved_or_load v⟩

/-- The flags each instruction writes are in its rule's list (R22). -/
theorem Shape.Gives.flags {i : Instr} {opd : Opd} {s u : State} (h : (shapeOf i).Gives opd s u) :
    FlagsKept (flagsWritten i.operation) s.p u.p := by
  have same := FlagsKept.refl (flagsWritten i.operation) s.p
  cases i with
  | ora | and | eor | lda | ldx | ldy | inc | dec | tax | tay | txa | tya | tsx | inx | iny | dex | dey | pla =>
    cases h
    exact same.setNZ rfl rfl
  | asl | rol | lsr | ror | cmp | cpx | cpy =>
    cases h <;> exact (same.setFlag rfl).setNZ rfl rfl
  | adc | sbc =>
    cases h
    exact ((same.setFlag rfl).setFlag rfl).setNZ rfl rfl
  | bit =>
    cases h
    exact ((same.setFlag rfl).setFlag rfl).setFlag rfl
  | clc | sec | cli | sei | clv | cld | sed | brk =>
    cases h
    exact same.setFlag rfl
  | plp | rti =>
    cases h
    exact .load _ _ fun f => by cases f <;> rfl
  | bpl | bmi | bvc | bvs | bcc | bcs | bne | beq | php | pha | sta | stx | sty | txs | jmp | jsr | rts | nop
  | undefined =>
    cases h <;> exact same

/-! ### Memory -/

/-- The memory of `u` is that of `s` after writes to existing cells: to the operand's, if the operation writes it, and
to those it pushes to. -/
def WritesFootprint (i : Instr) (opd : Opd) (s u : State) : Prop :=
  ∃ ws : List (Nat × Byte), u.mem = writeAll s.mem ws ∧ ∀ w ∈ ws, w.1 < s.cfg.memSize ∧
    ((writesOperand i.operation = true ∧ opd = .mem w.1) ∨ ∃ k < pushCount i.operation, w.1 = pushed s k)

theorem WritesFootprint.none {i : Instr} {opd : Opd} {s u : State} (h : u.mem = s.mem) : WritesFootprint i opd s u :=
  ⟨[], h, nofun⟩

theorem WritesFootprint.operand {i : Instr} {ea : Nat} {s u : State} {v : Byte} (hi : writesOperand i.operation = true)
    (hin : ea < s.cfg.memSize) (h : u.mem = s.mem.write ea v) : WritesFootprint i (.mem ea) s u :=
  ⟨[(ea, v)], h, List.forall_mem_singleton.mpr ⟨hin, .inl ⟨hi, rfl⟩⟩⟩

theorem WritesFootprint.pushes {i : Instr} {opd : Opd} {s u : State} {vs : List Byte}
    (hi : vs.length = pushCount i.operation) (hlen : vs.length ≤ 256)
    (hin : ∀ addr ∈ (List.range vs.length).map (pushed s), addr < s.cfg.memSize)
    (h : u.mem = (s.afterPushes vs).mem) : WritesFootprint i opd s u := by
  refine ⟨stackWrites s.sp vs, h, fun w hw => ?_⟩
  obtain ⟨k, hk, hwk⟩ := addr_of_mem_stackWrites hw
  rw [← pushed_eq_stackAddr s (by omega)] at hwk
  have exist := hin _ (List.mem_map_of_mem (List.mem_range.mpr hk))
  exact ⟨hwk ▸ exist, .inr ⟨k, hi ▸ hk, hwk⟩⟩

/-- Every instruction writes only cells of its footprint (the "Memory written" lines of files 42 to 49). -/
theorem Shape.Gives.memory {i : Instr} {opd : Opd} {s u : State} (h : (shapeOf i).Gives opd s u) :
    WritesFootprint i opd s u := by
  cases i with
  | sta | stx | sty | inc | dec =>
    cases h
    next hin => exact .operand rfl hin rfl
  | asl | rol | lsr | ror =>
    cases h
    · exact .none rfl
    · next hin => exact .operand rfl hin rfl
  | php =>
    cases h
    next hin => exact .pushes (vs := [s.p]) rfl (by simp) hin rfl
  | pha =>
    cases h
    next hin => exact .pushes (vs := [s.a]) rfl (by simp) hin rfl
  | jsr =>
    cases h
    next hin => exact .pushes (vs := [hi8 (s.pc - 1#16), lo8 (s.pc - 1#16)]) rfl (by simp) hin rfl
  | brk =>
    cases h
    next hin =>
      exact .pushes (vs := [hi8 s.pc, lo8 s.pc, setFlag s.p .b true]) rfl (by simp)
        (fun addr ha => hin addr (List.mem_append_left [s.cfg.brkVector, s.cfg.brkVector + 1] ha)) rfl
  | _ => cases h <;> exact .none rfl

/-! ### The statements -/

/-- Settles O49: `Shape.Gives.flags`. -/
theorem flagFrame : Obligations.FlagFrame := by
  intro i s t h
  obtain ⟨opd, pen, u, n, -, hu, rfl⟩ := gives_of_exec h
  exact hu.flags

/-- Settles O50: the frame lemmas of the next states (`Shape.Gives.a` to `Shape.Gives.pc`), and TXS by its one. -/
theorem registerFrame : Obligations.RegisterFrame := by
  intro i s t h
  obtain ⟨opd, pen, u, n, hr, hu, rfl⟩ := gives_of_exec h
  refine ⟨hu.a hr, hu.x, hu.y, hu.sp, ?txs, hu.pc, hu.cfg⟩
  rintro rfl
  cases hu
  rfl

/-- Settles O51: an address outside the footprint is none of those written (`Shape.Gives.memory`). -/
theorem memoryFrame : Obligations.MemoryFrame := by
  intro i s t h addr hoperand hpushed
  obtain ⟨opd, pen, u, n, hr, hu, rfl⟩ := gives_of_exec h
  obtain ⟨ws, hmem, hws⟩ := hu.memory
  rw [State.withCyc_mem, hmem]
  refine read_writeAll_other s.mem ws fun w hw hwa => ?_
  obtain ⟨-, ⟨hi, rfl⟩ | ⟨k, hk, hwk⟩⟩ := hws w hw
  · exact hoperand hi w.1 pen hr hwa.symm
  · exact hpushed k hk (hwa.symm.trans hwk)

/-- CLD clears D, and BRK sets B. -/
theorem flag_of_exec_cld {s t : State} (h : exec .cld s = .next t) : getFlag t.p .d = false := by
  obtain ⟨opd, pen, u, n, -, hu, rfl⟩ := gives_of_exec h
  cases hu
  exact getFlag_setFlag_same _ _ _

theorem flag_of_exec_brk {s t : State} (h : exec .brk s = .next t) : getFlag t.p .b = true := by
  obtain ⟨opd, pen, u, n, -, hu, rfl⟩ := gives_of_exec h
  cases hu
  exact getFlag_setFlag_same _ _ _

/-- A flag that an instruction changes is in its rule's list (R9). -/
theorem mem_flagsWritten {i : Instr} {s t : State} {f : Flag} (h : exec i s = .next t)
    (hf : getFlag s.p f ≠ getFlag t.p f) : f ∈ flagsWritten i.operation := by
  by_contra hnot
  obtain ⟨kept, -⟩ := flagFrame i s t h
  exact hf (kept f hnot).symm

/-! The instructions whose lists name D, B and I (10_state.md section 4). -/

theorem instr_of_writes_d {i : Instr} (h : .d ∈ flagsWritten i.operation) :
    i = .cld ∨ i = .sed ∨ i = .plp ∨ i = .rti := by
  cases i with
  | cld | sed | plp | rti => simp
  | _ => simp [flagsWritten, Instr.operation] at h

theorem instr_of_writes_b {i : Instr} (h : .b ∈ flagsWritten i.operation) : i = .brk ∨ i = .plp ∨ i = .rti := by
  cases i with
  | brk | plp | rti => simp
  | _ => simp [flagsWritten, Instr.operation] at h

theorem instr_of_writes_i {i : Instr} (h : .i ∈ flagsWritten i.operation) :
    i = .cli ∨ i = .sei ∨ i = .plp ∨ i = .rti := by
  cases i with
  | cli | sei | plp | rti => simp
  | _ => simp [flagsWritten, Instr.operation] at h

/-- Settles O59: the instructions that list D, B or I (`mem_flagsWritten`), without CLD, which clears D, and BRK, which
sets B. -/
theorem flagSources : Obligations.FlagSources := by
  intro i s t h
  refine ⟨fun hs ht => ?rises, fun hs ht => ?cleared,
    fun hs ht => instr_of_writes_b (mem_flagsWritten h (by simp [hs, ht])),
    fun hne => instr_of_writes_i (mem_flagsWritten h hne)⟩
  case rises =>
    obtain rfl | hi := instr_of_writes_d (mem_flagsWritten h (by simp [hs, ht]))
    · rw [flag_of_exec_cld h] at ht
      cases ht
    · exact hi
  case cleared =>
    obtain rfl | hi := instr_of_writes_b (mem_flagsWritten h (by simp [hs, ht]))
    · rw [flag_of_exec_brk h] at ht
      cases ht
    · exact hi

end Sys2Proof.Machine
end

section
/-! The invariant: every step and every driver event keeps it, and a reset after a fault changes only the cells at risk
(R20, R40, R241). -/

namespace Sys2Proof.Machine

open Sys2Proof.Claims

/-! ### Steps -/

/-- An instruction keeps the invariant: it writes no parameter, only existing cells, and never bit 5 of `P`. -/
theorem State.Inv.exec {i : Instr} {s t : State} (h : s.Inv) (he : exec i s = .next t) : t.Inv := by
  obtain ⟨opd, pen, u, n, -, hu, rfl⟩ := gives_of_exec he
  obtain ⟨ws, hmem, hws⟩ := hu.memory
  obtain ⟨-, reserved⟩ := hu.flags
  refine ⟨?config, ?memory, ?inside, reserved h.reserved⟩
  case config => rw [State.withCyc_cfg, hu.cfg, h.config]
  case memory => rw [State.withCyc_mem, hmem, wf_writeAll ws h.memory]
  case inside =>
    rw [State.withCyc_mem, State.withCyc_cfg, hmem, hu.cfg]
    exact fits_writeAll h.inside fun w hw => (hws w hw).1

/-- Settles O55: a countdown tick changes `CYC` alone, the fetch `PC` alone, and the instruction keeps the invariant
(`State.Inv.exec`). -/
theorem stepKeepsInv : Obligations.StepKeepsInv := by
  intro s t h hstep
  obtain ⟨-, rfl⟩ | ⟨-, i, u, hf, he⟩ := step_next hstep
  · exact h.of_eq rfl rfl h.reserved
  · obtain ⟨-, pc, rfl⟩ := fetch_ok hf
    exact (h.of_eq (t := s.withPc pc) rfl rfl h.reserved).exec he

/-! ### Driver events -/

/-- The reset event keeps the invariant (R261). -/
theorem inv_of_reset {cfg : Config} {mem : Memory} (hcfg : cfg.wf = true) (hwf : mem.wf = true)
    (hin : mem.fits cfg.memSize = true) : State.Inv { State.reset with mem := mem, cfg := cfg } :=
  ⟨hcfg, hwf, hin, reset_reserved⟩

/-- The bytes of a residue are writes to the cells at risk (R241). -/
theorem scatter_eq_writeAll (m : Memory) (cells : List Nat) (bytes : List Byte) :
    m.scatter cells bytes = writeAll m (cells.zip bytes) := by
  induction cells generalizing m bytes with
  | nil => cases bytes <;> rfl
  | cons a cells ih =>
    cases bytes with
    | nil => rfl
    | cons v bytes => exact ih _ _

/-- The cells at risk exist (R241). -/
theorem cellsAtRisk_lt {s : State} {addr : Nat} (h : addr ∈ cellsAtRisk s) : addr < s.cfg.memSize := by
  rw [cellsAtRisk] at h
  split at h
  · simpa using List.of_mem_filter h
  · cases h

theorem Session.Inv.tick {ss tt : Session} {r : TickReport} (h : ss.Inv) (ht : ss.tick = .ok (r, tt)) : tt.Inv := by
  obtain ⟨ticked, s, rfl, ⟨t, hstep, -, rfl⟩ | ⟨addr, -, -, rfl⟩⟩ := Session.tick_ok.mp ht
  · exact stepKeepsInv s t h hstep
  · exact ⟨h.config, h.memory, h.inside, fun _ => cellsAtRisk_lt⟩

theorem Session.Inv.reset {ss : Session} (residue : List Byte) (h : ss.Inv) : (ss.reset residue).Inv := by
  cases ss with
  | neverReset cfg mem =>
    obtain ⟨hcfg, hwf, hin⟩ := h
    exact inv_of_reset hcfg hwf hin
  | live ticked s => exact inv_of_reset h.config h.memory h.inside
  | faulted cfg mem atRisk =>
    obtain ⟨hcfg, hwf, hin, hrisk⟩ := h
    have inside : ∀ w ∈ atRisk.zip residue, w.1 < cfg.memSize := fun w hw => hrisk w.1 (List.of_mem_zip hw).1
    rw [Session.reset, scatter_eq_writeAll]
    exact inv_of_reset hcfg (wf_writeAll _ hwf) (fits_writeAll hin inside)

/-- Settles O56: a tick keeps the invariant of its step (`stepKeepsInv`), a reset writes only cells at risk, which
exist, and a driver's write lands in an existing cell. -/
theorem sessionEventsKeepInv : Obligations.SessionEventsKeepInv := by
  intro e ss tt r h he
  cases e with
  | tick =>
    obtain ⟨⟨report, uu⟩, ht, heq⟩ := bind_ok_iff.mp he
    cases heq
    exact h.tick ht
  | reset residue =>
    cases he
    exact h.reset residue
  | write addr v =>
    obtain ⟨uu, hw, heq⟩ := bind_ok_iff.mp he
    cases heq
    obtain ⟨hin, -, rfl⟩ := Session.hostWrite_ok.mp hw
    exact h.withCell hin

/-- Settles O60: only a live core ticks (`Session.tick_ok`), and the reset of a faulted one writes the residue to the
cells at risk alone (`scatter_eq_writeAll`). -/
theorem faultIsTerminal : Obligations.FaultIsTerminal := by
  refine ⟨fun cfg mem => rfl, fun ticked s addr ss ht => ?_⟩
  obtain ⟨_, s', hs, ⟨_, -, hreport, -⟩ | ⟨a, -, -, rfl⟩⟩ := Session.tick_ok.mp ht
  · cases hreport
  · cases hs
    refine ⟨rfl, fun residue => ⟨_, rfl, rfl, rfl, fun cell hcell => ?_⟩⟩
    rw [scatter_eq_writeAll]
    refine read_writeAll_other _ _ fun w hw hwc => hcell ?_
    exact hwc ▸ (List.of_mem_zip hw).1

end Sys2Proof.Machine
end

section
/-! Noninterference: no operation reads `CYC` or the base cycle counts (R112), so each does the same with a state seen
without its timing. -/

namespace Sys2Proof.Machine

open Sys2Proof.Claims

/-! ### Sequences seen through a function -/

/-- A sequence whose second part is seen through `g`. -/
theorem bind_eq_map {α β γ : Type} (x : Except Stop α) {k : α → Except Stop β} {k' : α → Except Stop γ} {g : β → γ}
    (h : ∀ a, k' a = (k a).map g) : x >>= k' = (x >>= k).map g := by
  cases x with
  | error e => rfl
  | ok a => exact h a

/-- A sequence whose first part is seen through `f` and whose second part is seen through `g`. -/
theorem map_bind_eq_map {α β γ δ : Type} (x : Except Stop α) {f : α → β} {k : α → Except Stop γ}
    {k' : β → Except Stop δ} {g : γ → δ} (h : ∀ a, k' (f a) = (k a).map g) : x.map f >>= k' = (x >>= k).map g := by
  cases x with
  | error e => rfl
  | ok a => exact h a

theorem map_afterAccesses {α β : Type} (g : α → β) (size : Nat) (addrs : List Nat) (x : Except Stop α) :
    (afterAccesses size addrs x).map g = afterAccesses size addrs (x.map g) := by
  rw [afterAccesses, afterAccesses]
  split <;> rfl

/-! ### Operands without timing -/

/-- Resolving an operand reads no timing (R80, R112). -/
theorem resolve_withoutTiming (m : Operand) (s : State) : resolve m s.withoutTiming = resolve m s := by
  cases m <;> rfl

theorem readOperand_withoutTiming (opd : Opd) (s : State) : readOperand opd s.withoutTiming = readOperand opd s := by
  cases opd <;> rfl

/-- A write goes to the same place, and leaves the same but for the timing (R96). -/
theorem writeOperand_withoutTiming (opd : Opd) (v : Byte) (s : State) :
    writeOperand opd v s.withoutTiming = (writeOperand opd v s).map State.withoutTiming := by
  cases opd with
  | mem ea =>
    obtain hin | hout := Nat.lt_or_ge ea s.cfg.memSize
    · rw [writeOperand, writeOperand, memWrite_inside hin, memWrite_inside (s := s.withoutTiming) hin]
      rfl
    · rw [writeOperand, writeOperand, memWrite_outside hout, memWrite_outside (s := s.withoutTiming) hout]
      rfl
  | _ => rfl

/-! ### Operations without timing -/

/-- A change of the state by registers and memory alone. -/
def CommutesWithTiming (f : State → State) : Prop := ∀ s, f s.withoutTiming = (f s).withoutTiming

/-- An operation does the same with a state seen without timing, and has the same penalty. -/
def IgnoresTiming (ex : Execution) : Prop :=
  ∀ opd s, ex opd s.withoutTiming = (ex opd s).map (Prod.map State.withoutTiming id)

theorem ignoresTiming_registerOp {f : State → State} (hf : CommutesWithTiming f) : IgnoresTiming (registerOp f) :=
  fun _ s => congrArg (fun u => Except.ok (u, 0)) (hf s)

theorem ignoresTiming_readOp {f : State → Byte → State} (hf : ∀ v, CommutesWithTiming fun s => f s v) :
    IgnoresTiming (readOp f) := by
  intro opd s
  rw [readOp, readOperand_withoutTiming]
  exact bind_eq_map _ fun v => congrArg (fun u => Except.ok (u, 0)) (hf v s)

theorem ignoresTiming_storeOp {value : State → Byte} (hf : ∀ s, value s.withoutTiming = value s) :
    IgnoresTiming (storeOp value) := by
  intro opd s
  rw [storeOp, hf, writeOperand_withoutTiming]
  exact map_bind_eq_map _ fun _ => rfl

theorem ignoresTiming_shiftOp (f : Bool → Byte → Byte × Bool) : IgnoresTiming (shiftOp f) := by
  intro opd s
  rw [shiftOp, readOperand_withoutTiming]
  refine bind_eq_map _ fun v => ?_
  have write := writeOperand_withoutTiming opd (f (s.flag .c) v).1 (s.setFlag .c (f (s.flag .c) v).2)
  exact (congrArg (· >>= _) write).trans (map_bind_eq_map _ fun _ => rfl)

theorem ignoresTiming_modifyOp (f : Byte → Byte) : IgnoresTiming (modifyOp f) := by
  intro opd s
  rw [modifyOp, readOperand_withoutTiming]
  refine bind_eq_map _ fun v => ?_
  rw [writeOperand_withoutTiming]
  exact map_bind_eq_map _ fun _ => rfl

theorem ignoresTiming_binaryOp (f : Byte → Byte → Bool → AddResult) : IgnoresTiming (binaryOp f) := by
  intro opd s
  rw [binaryOp, readOperand_withoutTiming]
  refine bind_eq_map _ fun v => ?_
  change (if s.flag .d then _ else _) = Except.map _ (if s.flag .d then _ else _)
  split <;> rfl

theorem ignoresTiming_branchOp (f : Flag) (want : Bool) : IgnoresTiming (branchOp f want) := by
  intro opd s
  cases opd with
  | rel d =>
    change (if s.flag f = want then _ else _) = Except.map _ (if s.flag f = want then _ else _)
    split <;> rfl
  | _ => rfl

theorem ignoresTiming_accessOp {addrs : State → List Nat} {f : State → State}
    (haddrs : ∀ s, addrs s.withoutTiming = addrs s) (hf : CommutesWithTiming f) : IgnoresTiming (accessOp addrs f) := by
  intro opd s
  have accesses : afterAccesses s.withoutTiming.cfg.memSize (addrs s.withoutTiming) (.ok (f s.withoutTiming)) =
      (afterAccesses s.cfg.memSize (addrs s) (.ok (f s))).map State.withoutTiming := by
    rw [map_afterAccesses, haddrs, hf]
    rfl
  rw [accessOp, stackOp, accesses]
  exact map_bind_eq_map _ fun _ => rfl

theorem ignoresTiming_accessAddressOp {addrs : State → List Nat} {f : State → Addr → State}
    (haddrs : ∀ s, addrs s.withoutTiming = addrs s) (hf : ∀ ea, CommutesWithTiming fun s => f s ea) :
    IgnoresTiming (accessAddressOp addrs f) := by
  intro opd s
  cases opd with
  | mem ea => exact ignoresTiming_accessOp haddrs (hf (BitVec.ofNat 16 ea)) .none s
  | _ => rfl

/-- No operation of the table reads `CYC` or a base count (R112). -/
theorem ignoresTiming_executionOf (i : Instr) : IgnoresTiming (executionOf i) := by
  rw [executionOf_eq_run]
  cases i with
  | ora | and | eor | bit | lda | ldx | ldy | cmp | cpx | cpy => exact ignoresTiming_readOp fun _ _ => rfl
  | sta | stx | sty => exact ignoresTiming_storeOp fun _ => rfl
  | asl | rol | lsr | ror => exact ignoresTiming_shiftOp _
  | inc | dec => exact ignoresTiming_modifyOp _
  | adc | sbc => exact ignoresTiming_binaryOp _
  | bpl | bmi | bvc | bvs | bcc | bcs | bne | beq => exact ignoresTiming_branchOp _ _
  | php | pha | pla | plp | brk | rts | rti => exact ignoresTiming_accessOp (fun _ => rfl) fun _ => rfl
  | jmp | jsr => exact ignoresTiming_accessAddressOp (fun _ => rfl) fun _ _ => rfl
  | tax | tay | txa | tya | tsx | txs | inx | iny | dex | dey | clc | sec | cli | sei | clv | cld | sed | nop
  | undefined =>
    exact ignoresTiming_registerOp fun _ => rfl

/-! ### Instructions and steps without timing -/

/-- An instruction has the same outcome with a state seen without timing. -/
theorem exec_withoutTiming (i : Instr) (s : State) :
    outcomeWithoutTiming (exec i s.withoutTiming) = outcomeWithoutTiming (exec i s) := by
  rw [exec_eq_runEntry, exec_eq_runEntry, runEntry, runEntry, resolve_withoutTiming]
  cases opcodeOf i with
  | none => rfl
  | some b =>
    cases resolve i.operand s with
    | error e => rfl
    | ok r =>
      obtain ⟨opd, penA⟩ := r
      simp only [bind, Except.bind]
      rw [ignoresTiming_executionOf i opd s]
      cases executionOf i opd s with
      | error e => cases e <;> rfl
      | ok u => rfl

/-- The fetch reads no timing (R73). -/
theorem fetch_withoutTiming (s : State) : fetch s.withoutTiming = (fetch s).map (Prod.map id State.withoutTiming) := by
  rw [fetch_eq, fetch_eq s, map_afterAccesses]
  rfl

/-- A fetch tick has the same outcome with a state seen without timing (R101). -/
theorem fetchTick_withoutTiming (s : State) :
    outcomeWithoutTiming (fetchTick s.withoutTiming) = outcomeWithoutTiming (fetchTick s) := by
  rw [fetchTick, fetchTick, fetch_withoutTiming]
  cases fetch s with
  | error e => cases e <;> rfl
  | ok r => exact exec_withoutTiming r.1 r.2

/-- Settles O57: both states have the outcome of the one state seen without timing (`exec_withoutTiming`,
`fetchTick_withoutTiming`). -/
theorem timingIndependence : Obligations.TimingIndependence := by
  intro s t h
  refine ⟨fun i => ?_, fun hs ht => ?_⟩
  · rw [← exec_withoutTiming i s, h, exec_withoutTiming i t]
  · rw [step_of_idle hs, step_of_idle ht, ← fetchTick_withoutTiming s, h, fetchTick_withoutTiming t]

end Sys2Proof.Machine
end

section
/-! Faults and refusals: everything a well-formed instruction and a step can do (R98, R202, R240, R242). -/

namespace Sys2Proof.Machine

open Sys2Proof.Claims

/-! ### What stops an operation -/

/-- A sequence of two computations stops exactly when one of them does. -/
theorem bind_error_iff {ε α β : Type} {x : Except ε α} {f : α → Except ε β} {e : ε} :
    (x >>= f) = .error e ↔ x = .error e ∨ ∃ a, x = .ok a ∧ f a = .error e := by
  cases x <;> simp [bind, Except.bind]

theorem memRead_error {s : State} {addr : Nat} {e : Stop} (h : memRead s addr = .error e) :
    FaultsOutside s.cfg.memSize e := by
  obtain hin | hout := Nat.lt_or_ge addr s.cfg.memSize
  · rw [memRead_inside hin] at h
    cases h
  · rw [memRead_outside hout] at h
    cases h
    exact ⟨addr, hout, rfl⟩

theorem memWrite_error {s : State} {addr : Nat} {v : Byte} {e : Stop} (h : memWrite s addr v = .error e) :
    FaultsOutside s.cfg.memSize e := by
  obtain hin | hout := Nat.lt_or_ge addr s.cfg.memSize
  · rw [memWrite_inside hin] at h
    cases h
  · rw [memWrite_outside hout] at h
    cases h
    exact ⟨addr, hout, rfl⟩

/-- Reading a zero-page pair and going on with it, as accesses (R90, R91). -/
theorem zeroPagePair_accesses {α : Type} (s : State) (ptr : Byte) (k : Addr → Except Stop α) :
    zeroPagePair s ptr >>= k = afterAccesses s.cfg.memSize [ptr.toNat, (ptr + 1#8).toNat]
      (k (compose (s.mem.read (ptr + 1#8).toNat) (s.mem.read ptr.toNat))) := by
  rw [zeroPagePair, bind_assoc, memRead_bind, bind_assoc, memRead_bind, afterAccesses_append]
  rfl

/-- The resolver stops only at a pointer byte that does not exist (R90, R91, R93). -/
theorem resolve_error {m : Operand} {s : State} {e : Stop} (h : resolve m s = .error e) :
    FaultsOutside s.cfg.memSize e := by
  cases m with
  | indirectX | indirectY =>
    rw [resolve, zeroPagePair_accesses] at h
    exact afterAccesses_error h
  | indirect =>
    rw [resolve, indirectPair_bind] at h
    exact afterAccesses_error h
  | _ => cases h

/-- The read of an operand in a readable mode stops only where its cell does not exist (R95). -/
theorem readOperand_error {m : Operand} {s : State} {opd : Opd} {pen : Nat} {e : Stop} (hm : m.mode.readable = true)
    (hr : resolve m s = .ok (opd, pen)) (h : readOperand opd s = .error e) : FaultsOutside s.cfg.memSize e := by
  obtain ⟨v, rfl⟩ | rfl | ⟨ea, rfl⟩ := resolve_readable hr hm
  · cases h
  · cases h
  · exact memRead_error h

/-- The write of an operand in a writable mode stops only where its cell does not exist (R96). -/
theorem writeOperand_error {m : Operand} {s t : State} {opd : Opd} {pen : Nat} {v : Byte} {e : Stop}
    (hm : m.mode.writable = true) (hr : resolve m s = .ok (opd, pen)) (h : writeOperand opd v t = .error e) :
    FaultsOutside t.cfg.memSize e := by
  obtain rfl | ⟨ea, rfl⟩ := resolve_writable hr hm
  · cases h
  · exact memWrite_error h

/-- A mode with an address is written back where an operation does that (R96). -/
theorem writable_of_hasAddress {m : Mode} (h : m.hasAddress = true) : m.writable = true := by
  rw [Mode.writable, h, Bool.or_true]

/-- Everything that stops a shape, from a descriptor of a mode it can use: an access that does not exist, or ADC and SBC
in decimal mode (R202). -/
theorem Shape.stops_of_run {sh : Shape} {m : Operand} {s : State} {opd : Opd} {pen : Nat} {e : Stop}
    (hm : sh.suits m.mode = true) (hr : resolve m s = .ok (opd, pen)) (h : sh.run opd s = .error e) :
    FaultsOutside s.cfg.memSize e ∨
      (∃ f, sh = .binary f) ∧ getFlag s.p .d = true ∧ e = .refused .decimalMode := by
  cases sh with
  | register f => cases h
  | read f =>
    obtain hread | ⟨v, -, hrest⟩ := bind_error_iff.mp h
    · exact .inl (readOperand_error hm hr hread)
    · cases hrest
  | store value =>
    obtain hwrite | ⟨t, -, hrest⟩ := bind_error_iff.mp h
    · exact .inl (writeOperand_error (writable_of_hasAddress hm) hr hwrite)
    · cases hrest
  | shift f =>
    obtain hread | ⟨v, -, hrest⟩ := bind_error_iff.mp h
    · exact .inl (readOperand_error (Mode.readable_of_writable hm) hr hread)
    · obtain hwrite | ⟨t, -, hrest⟩ := bind_error_iff.mp hrest
      · exact .inl (writeOperand_error (t := s.setFlag .c _) hm hr hwrite)
      · cases hrest
  | modify f =>
    have hm := writable_of_hasAddress hm
    obtain hread | ⟨v, -, hrest⟩ := bind_error_iff.mp h
    · exact .inl (readOperand_error (Mode.readable_of_writable hm) hr hread)
    · obtain hwrite | ⟨t, -, hrest⟩ := bind_error_iff.mp hrest
      · exact .inl (writeOperand_error hm hr hwrite)
      · cases hrest
  | binary f =>
    obtain hread | ⟨v, -, hrest⟩ := bind_error_iff.mp h
    · exact .inl (readOperand_error hm hr hread)
    · split at hrest
      · next hd =>
        cases hrest
        exact .inr ⟨⟨f, rfl⟩, hd, rfl⟩
      · cases hrest
  | branch f want =>
    obtain ⟨d, rfl⟩ := resolve_relative hr (eq_of_beq hm)
    rw [Shape.run, branchOp] at h
    split at h <;> cases h
  | access addrs f =>
    obtain haccess | ⟨t, -, hrest⟩ := bind_error_iff.mp h
    · exact .inl (afterAccesses_error haccess)
    · cases hrest
  | jump addrs f =>
    obtain ⟨ea, rfl⟩ := resolve_hasAddress hr hm
    obtain haccess | ⟨t, -, hrest⟩ := bind_error_iff.mp h
    · exact .inl (afterAccesses_error haccess)
    · cases hrest

/-- ADC and SBC alone have a decimal mode (R202). -/
theorem operation_of_binary {i : Instr} {f : Byte → Byte → Bool → AddResult} (h : shapeOf i = .binary f) :
    i.operation = .adc ∨ i.operation = .sbc := by
  cases i with
  | adc => exact .inl rfl
  | sbc => exact .inr rfl
  | _ => cases h

/-! ### Everything an instruction and a step can do -/

/-- A well-formed instruction completes, faults at a cell that does not exist, or is refused in decimal mode. -/
theorem exec_cases {i : Instr} (hw : i.wf = true) (s : State) : (∃ t, exec i s = .next t) ∨
    (∃ addr, s.cfg.memSize ≤ addr ∧ exec i s = .fault (.addressingFault addr)) ∨
      Decimal i s ∧ exec i s = .refused .decimalMode := by
  obtain ⟨b, hb⟩ := opcodeOf_of_wf hw
  cases hr : resolve i.operand s with
  | error e =>
    obtain ⟨addr, hout, rfl⟩ := resolve_error hr
    exact .inr (.inl ⟨addr, hout, exec_of_resolve_stop hw hr⟩)
  | ok r =>
    obtain ⟨opd, pen⟩ := r
    cases hrun : executionOf i opd s with
    | ok u => exact .inl ⟨_, exec_next.mpr ⟨b, opd, pen, u.1, u.2, hb, hr, hrun, rfl⟩⟩
    | error e =>
      have stopped := exec_of_stop hw hr hrun
      rw [executionOf_eq_run] at hrun
      obtain ⟨addr, hout, rfl⟩ | ⟨⟨f, hf⟩, hd, rfl⟩ := Shape.stops_of_run (suits_of_wf hw) hr hrun
      · exact .inr (.inl ⟨addr, hout, stopped⟩)
      · exact .inr (.inr ⟨⟨operation_of_binary hf, hd⟩, stopped⟩)

/-- A step answers, faults in a fetch tick at a cell that does not exist, or is refused with D = 1. -/
theorem step_cases (s : State) : (∃ t, step s = .next t) ∨
    (∃ addr, s.cfg.memSize ≤ addr ∧ s.cyc = 0 ∧ step s = .fault (.addressingFault addr)) ∨
      getFlag s.p .d = true ∧ step s = .refused .decimalMode := by
  obtain idle | busy := Nat.eq_zero_or_pos s.cyc
  · cases hf : fetch s with
    | error e =>
      have missing := hf
      rw [fetch_eq] at missing
      obtain ⟨addr, hout, rfl⟩ := afterAccesses_error missing
      exact .inr (.inl ⟨addr, hout, idle, step_of_fetch_fault idle hf⟩)
    | ok r =>
      obtain ⟨i, t⟩ := r
      rw [step_of_fetch idle hf]
      obtain ⟨-, pc, rfl⟩ := fetch_ok hf
      obtain hnext | ⟨addr, hout, hfault⟩ | ⟨⟨-, hd⟩, hrefused⟩ := exec_cases (wf_of_fetch hf) (s.withPc pc)
      · exact .inl hnext
      · exact .inr (.inl ⟨addr, hout, idle, hfault⟩)
      · exact .inr (.inr ⟨hd, hrefused⟩)
  · exact .inl ⟨_, step_of_busy busy⟩

/-! ### The statements -/

/-- Settles O52: the operand's cell and the resolver's fault by the instruction's shape (`exec_faults_outside`,
`exec_of_resolve_stop`); a step's only faults are those of `step_cases`. -/
theorem operandFaults : Obligations.OperandFaults := by
  refine ⟨fun i s ea pen hw hjmp hjsr hr hout => ?operand, fun i s f hw hr => exec_of_resolve_stop hw hr,
    fun s addr h => ?step⟩
  case operand => exact exec_faults_outside hw hr hout (not_or.mpr ⟨hjmp, hjsr⟩)
  case step =>
    obtain ⟨t, hnext⟩ | ⟨a, hout, idle, hfault⟩ | ⟨-, hrefused⟩ := step_cases s
    · rw [hnext] at h; cases h
    · rw [hfault] at h
      cases h
      exact ⟨hout, idle⟩
    · rw [hrefused] at h; cases h

/-- Settles O53: the decimal refusal is `exec_decimal`, a pair outside the table has no opcode byte (`wf_of_opcodeOf`),
and there are no others (`exec_cases`, `step_cases`). -/
theorem refusals : Obligations.Refusals := by
  refine ⟨fun i s opd pen v hw hd hr hv => exec_decimal hw hd hr hv, fun i s hw => ?noEntry,
    fun i s r hw h => ?instruction, fun s r h => ?step⟩
  case noEntry =>
    rw [exec_eq_runEntry]
    refine runEntry_noEntry (Option.eq_none_iff_forall_not_mem.mpr fun b hb => ?_)
    rw [wf_of_opcodeOf hb] at hw
    cases hw
  case instruction =>
    obtain ⟨t, hnext⟩ | ⟨a, -, hfault⟩ | ⟨hd, hrefused⟩ := exec_cases hw s
    · rw [hnext] at h; cases h
    · rw [hfault] at h; cases h
    · rw [hrefused] at h
      cases h
      exact ⟨rfl, hd⟩
  case step =>
    obtain ⟨t, hnext⟩ | ⟨a, -, -, hfault⟩ | ⟨hd, hrefused⟩ := step_cases s
    · rw [hnext] at h; cases h
    · rw [hfault] at h; cases h
    · rw [hrefused] at h
      cases h
      exact ⟨rfl, hd⟩

end Sys2Proof.Machine
end
